-- ==== Sys2Proof/Word.lean ====
section
/-! DEFINITION. The word types of the block (spec/00_scope.md R12, spec/30_encoding.md R90). -/
namespace Sys2Proof

/-- One 40-bit command word, CMD40 (R90). -/
abbrev CmdWord := BitVec 40

/-- A 32-bit register or operand. -/
abbrev Word32 := BitVec 32

/-- An octet of the compressed stream (R12: "An octet is 8 bits"). -/
abbrev Octet := BitVec 8

/-- A 16-bit sample, residual or cyclic-buffer element (spec/00_scope.md R7, R8: EW = 16). -/
abbrev Sample := BitVec 16

/-- A stored probability, 13 bits (spec/42_bit_model.md R145). -/
abbrev Prob := BitVec 13

end Sys2Proof
end

