-- ==== Sys2Proof/Syntax.lean ====
section
/-! DEFINITION. The commands of RAC-CMD v1 as abstract syntax (spec/30_encoding.md R91 to R93): one
constructor per row of spec/opcode_table.json, each operand with the width of its field. -/
namespace Sys2Proof

/-- A channel: 0 is the source's "a", 1 its "b" (spec/44_predictor.md, opening). -/
inductive Channel where
  | a
  | b
deriving DecidableEq, Repr

/-- The 40 commands (R93). A coded bit is a `Bool`: `false` is 0, `true` is 1. -/
inductive Instr where
  | cbResize (n : BitVec 24) (pad : BitVec 8)
  | cbPush (v : BitVec 16)
  | cbGet (off : BitVec 32)
  | cbGetu (off : BitVec 32)
  | cbFill (v : BitVec 16)
  | cbRelease
  | cbPrev (p : BitVec 16) (k : BitVec 16)
  | cbNext (p : BitVec 16) (k : BitVec 16)
  | cbCopyS2e (k : BitVec 24)
  | cbCopyE2s (k : BitVec 24)
  | dqPushBack (v : BitVec 16)
  | dqPopFront (k : BitVec 24)
  | dqFront
  | dqGet (off : BitVec 32)
  | dqCapacity
  | dqSize
  | dqFull
  | mtInit
  | bmInit (idx : BitVec 16)
  | bmGetp (idx : BitVec 16)
  | bmUpdate (idx : BitVec 16) (bit : Bool)
  | rcInitEnc
  | rcInitDec
  | rcEnc (p : BitVec 13) (bit : Bool)
  | rcEncDirect (bit : Bool)
  | rcDec (p : BitVec 13)
  | rcDecDirect
  | rcFlush
  | prInit
  | prPredict (c : Channel)
  | prResidual (c : Channel) (v : BitVec 16)
  | prRecon (c : Channel) (v : BitVec 16)
  | prShift (c : Channel) (v : BitVec 16)
  | cxEncRes (c : Channel) (v : BitVec 16)
  | cxDecRes (c : Channel)
  | cxEncFrame (a : BitVec 16) (b : BitVec 16)
  | cxDecFrame
  | rdReg (n : BitVec 8)
  | setOpt (val : BitVec 32)
  | reset
deriving DecidableEq, Repr

end Sys2Proof
end

