-- ==== Sys2Proof/WellFormed.lean ====
section
/-! DEFINITION. When a command word is well formed (spec/30_encoding.md R93, R94; spec/60_exceptions.md
R227), read from the match and mask columns of spec/opcode_table.json. It is written independently of the
decoder, which follows the operand layouts of R91. A term of `Instr` has operands of exactly the widths of
their fields, so well-formedness is a property of words; operand VALUES that a command does not accept are
no encoding errors (R94) and are checked by the command itself. -/
namespace Sys2Proof

/-- One row of the opcode table: a word `w` is the row's command exactly when `w AND mask = match` (R93). -/
structure OpcodeRow where
  pattern : CmdWord
  mask : CmdWord
deriving DecidableEq, Repr

/-- The word belongs to the row (R93). -/
def OpcodeRow.owns (r : OpcodeRow) (w : CmdWord) : Bool :=
  w &&& r.mask == r.pattern

/-- The word has the row's opcode, whatever its other bits are. -/
def OpcodeRow.sameOpcode (r : OpcodeRow) (w : CmdWord) : Bool :=
  w.extractLsb' 32 8 == r.pattern.extractLsb' 32 8

/-- The rows CB_RESIZE to CB_COPY_E2S. -/
def cbRows : List OpcodeRow :=
  [⟨0x1000000000#40, 0xFF00000000#40⟩,
   ⟨0x1100000000#40, 0xFFFFFF0000#40⟩,
   ⟨0x1200000000#40, 0xFF00000000#40⟩,
   ⟨0x1300000000#40, 0xFF00000000#40⟩,
   ⟨0x1400000000#40, 0xFFFFFF0000#40⟩,
   ⟨0x1500000000#40, 0xFFFFFFFFFF#40⟩,
   ⟨0x1600000000#40, 0xFF00000000#40⟩,
   ⟨0x1700000000#40, 0xFF00000000#40⟩,
   ⟨0x1800000000#40, 0xFFFF000000#40⟩,
   ⟨0x1900000000#40, 0xFFFF000000#40⟩]

/-- The rows DQ_PUSH_BACK to DQ_FULL. -/
def dqRows : List OpcodeRow :=
  [⟨0x2000000000#40, 0xFFFFFF0000#40⟩,
   ⟨0x2100000000#40, 0xFFFF000000#40⟩,
   ⟨0x2200000000#40, 0xFFFFFFFFFF#40⟩,
   ⟨0x2300000000#40, 0xFF00000000#40⟩,
   ⟨0x2400000000#40, 0xFFFFFFFFFF#40⟩,
   ⟨0x2500000000#40, 0xFFFFFFFFFF#40⟩,
   ⟨0x2600000000#40, 0xFFFFFFFFFF#40⟩]

/-- The rows MT_INIT to BM_UPDATE. -/
def bmRows : List OpcodeRow :=
  [⟨0x3000000000#40, 0xFFFFFFFFFF#40⟩,
   ⟨0x3100000000#40, 0xFFFFFF0000#40⟩,
   ⟨0x3200000000#40, 0xFFFFFF0000#40⟩,
   ⟨0x3300000000#40, 0xFFFFFE0000#40⟩]

/-- The rows RC_INIT_ENC to RC_FLUSH. -/
def rcRows : List OpcodeRow :=
  [⟨0x4000000000#40, 0xFFFFFFFFFF#40⟩,
   ⟨0x4100000000#40, 0xFFFFFFFFFF#40⟩,
   ⟨0x4200000000#40, 0xFFFFFEE000#40⟩,
   ⟨0x4300000000#40, 0xFFFFFEFFFF#40⟩,
   ⟨0x4400000000#40, 0xFFFFFFE000#40⟩,
   ⟨0x4500000000#40, 0xFFFFFFFFFF#40⟩,
   ⟨0x4600000000#40, 0xFFFFFFFFFF#40⟩]

/-- The rows PR_INIT to PR_SHIFT. -/
def prRows : List OpcodeRow :=
  [⟨0x5000000000#40, 0xFFFFFFFFFF#40⟩,
   ⟨0x5100000000#40, 0xFFFFFEFFFF#40⟩,
   ⟨0x5200000000#40, 0xFFFFFE0000#40⟩,
   ⟨0x5300000000#40, 0xFFFFFE0000#40⟩,
   ⟨0x5400000000#40, 0xFFFFFE0000#40⟩]

/-- The rows CX_ENC_RES to CX_DEC_FRAME. -/
def cxRows : List OpcodeRow :=
  [⟨0x6000000000#40, 0xFFFFFE0000#40⟩,
   ⟨0x6100000000#40, 0xFFFFFEFFFF#40⟩,
   ⟨0x6200000000#40, 0xFF00000000#40⟩,
   ⟨0x6300000000#40, 0xFFFFFFFFFF#40⟩]

/-- The rows RD_REG to RESET. -/
def sysRows : List OpcodeRow :=
  [⟨0x7000000000#40, 0xFFFFFFFF00#40⟩,
   ⟨0x7100000000#40, 0xFF00000000#40⟩,
   ⟨0x7F00000000#40, 0xFFFFFFFFFF#40⟩]

/-- The 40 rows of spec/opcode_table.json. -/
def opcodeRows : List OpcodeRow :=
  cbRows ++ dqRows ++ bmRows ++ rcRows ++ prRows ++ cxRows ++ sysRows

/-- First check: the opcode is one of the 40 (R94 (a)). -/
def opcodeDefined (w : CmdWord) : Bool :=
  opcodeRows.any (fun r => r.sameOpcode w)

/-- Second check: no "zero" bit of the opcode's layout is 1 (R94 (b)). -/
def zeroBitsClear (w : CmdWord) : Bool :=
  opcodeRows.all (fun r => !r.sameOpcode w || r.owns w)

/-- A well-formed command word (R227): a defined opcode and all its zero bits 0. -/
def wellFormed (w : CmdWord) : Bool :=
  opcodeDefined w && zeroBitsClear w

end Sys2Proof
end

