-- ==== Sys2Proof/Decode.lean ====
section
/-! DEFINITION. The decoder and the encoder of RAC-CMD v1 (spec/30_encoding.md R90 to R94). -/
namespace Sys2Proof

/-- Why a word is no command (R94): both raise IllegalCommand, in this order (spec/60_exceptions.md R238). -/
inductive DecodeError where
  /-- R94 (a): the opcode is not one of the 40. Safe: the block latches IllegalCommand. -/
  | undefinedOpcode
  /-- R94 (b): a "zero" bit of the layout is 1. Safe: the block latches IllegalCommand. -/
  | zeroBitSet
deriving DecidableEq, Repr

/-- `opcode`, bits 39:32 (R90). -/
def opcodeOf (w : CmdWord) : BitVec 8 := w.extractLsb' 32 8

/-- `arg`, bits 31:0 (R90). -/
def argOf (w : CmdWord) : BitVec 32 := w.extractLsb' 0 32

/-- The channel a `c` field names (R91, layouts C and VC). -/
def channelOf (b : Bool) : Channel := if b then .b else .a

/-- The `c` field of a channel. -/
def channelBit : Channel → Bool
  | .a => false
  | .b => true

/-- Accept the command when every bit of `zero` is 0 in `arg` (R90, R91). -/
def accept (zero : BitVec 32) (arg : BitVec 32) (i : Instr) : Except DecodeError Instr :=
  if arg &&& zero = 0#32 then .ok i else .error .zeroBitSet

/-! The fifteen operand layouts (R91); each names its zero bits. -/

def layoutN (arg : BitVec 32) (i : Instr) : Except DecodeError Instr :=
  accept 0xFFFFFFFF#32 arg i

def layoutV (arg : BitVec 32) (i : BitVec 16 → Instr) : Except DecodeError Instr :=
  accept 0xFFFF0000#32 arg (i (arg.extractLsb' 0 16))

def layoutO (arg : BitVec 32) (i : BitVec 32 → Instr) : Except DecodeError Instr :=
  accept 0x00000000#32 arg (i arg)

def layoutPK (arg : BitVec 32) (i : BitVec 16 → BitVec 16 → Instr) : Except DecodeError Instr :=
  accept 0x00000000#32 arg (i (arg.extractLsb' 0 16) (arg.extractLsb' 16 16))

def layoutNP (arg : BitVec 32) (i : BitVec 24 → BitVec 8 → Instr) : Except DecodeError Instr :=
  accept 0x00000000#32 arg (i (arg.extractLsb' 0 24) (arg.extractLsb' 24 8))

def layoutK (arg : BitVec 32) (i : BitVec 24 → Instr) : Except DecodeError Instr :=
  accept 0xFF000000#32 arg (i (arg.extractLsb' 0 24))

def layoutI (arg : BitVec 32) (i : BitVec 16 → Instr) : Except DecodeError Instr :=
  accept 0xFFFF0000#32 arg (i (arg.extractLsb' 0 16))

def layoutIB (arg : BitVec 32) (i : BitVec 16 → Bool → Instr) : Except DecodeError Instr :=
  accept 0xFFFE0000#32 arg (i (arg.extractLsb' 0 16) (arg.getLsbD 16))

def layoutPB (arg : BitVec 32) (i : BitVec 13 → Bool → Instr) : Except DecodeError Instr :=
  accept 0xFFFEE000#32 arg (i (arg.extractLsb' 0 13) (arg.getLsbD 16))

def layoutB (arg : BitVec 32) (i : Bool → Instr) : Except DecodeError Instr :=
  accept 0xFFFEFFFF#32 arg (i (arg.getLsbD 16))

def layoutP (arg : BitVec 32) (i : BitVec 13 → Instr) : Except DecodeError Instr :=
  accept 0xFFFFE000#32 arg (i (arg.extractLsb' 0 13))

def layoutC (arg : BitVec 32) (i : Channel → Instr) : Except DecodeError Instr :=
  accept 0xFFFEFFFF#32 arg (i (channelOf (arg.getLsbD 16)))

def layoutVC (arg : BitVec 32) (i : Channel → BitVec 16 → Instr) : Except DecodeError Instr :=
  accept 0xFFFE0000#32 arg (i (channelOf (arg.getLsbD 16)) (arg.extractLsb' 0 16))

def layoutAB (arg : BitVec 32) (i : BitVec 16 → BitVec 16 → Instr) : Except DecodeError Instr :=
  accept 0x00000000#32 arg (i (arg.extractLsb' 0 16) (arg.extractLsb' 16 16))

def layoutR (arg : BitVec 32) (i : BitVec 8 → Instr) : Except DecodeError Instr :=
  accept 0xFFFFFF00#32 arg (i (arg.extractLsb' 0 8))

/-- The command with opcode `op` and operands `arg` (R93); undefined opcodes first, then zero bits
(spec/60_exceptions.md R238, items 2 and 3). -/
def decodeFields (op : BitVec 8) (arg : BitVec 32) : Except DecodeError Instr :=
  match op with
  | 0x10#8 => layoutNP arg .cbResize
  | 0x11#8 => layoutV arg .cbPush
  | 0x12#8 => layoutO arg .cbGet
  | 0x13#8 => layoutO arg .cbGetu
  | 0x14#8 => layoutV arg .cbFill
  | 0x15#8 => layoutN arg .cbRelease
  | 0x16#8 => layoutPK arg .cbPrev
  | 0x17#8 => layoutPK arg .cbNext
  | 0x18#8 => layoutK arg .cbCopyS2e
  | 0x19#8 => layoutK arg .cbCopyE2s
  | 0x20#8 => layoutV arg .dqPushBack
  | 0x21#8 => layoutK arg .dqPopFront
  | 0x22#8 => layoutN arg .dqFront
  | 0x23#8 => layoutO arg .dqGet
  | 0x24#8 => layoutN arg .dqCapacity
  | 0x25#8 => layoutN arg .dqSize
  | 0x26#8 => layoutN arg .dqFull
  | 0x30#8 => layoutN arg .mtInit
  | 0x31#8 => layoutI arg .bmInit
  | 0x32#8 => layoutI arg .bmGetp
  | 0x33#8 => layoutIB arg .bmUpdate
  | 0x40#8 => layoutN arg .rcInitEnc
  | 0x41#8 => layoutN arg .rcInitDec
  | 0x42#8 => layoutPB arg .rcEnc
  | 0x43#8 => layoutB arg .rcEncDirect
  | 0x44#8 => layoutP arg .rcDec
  | 0x45#8 => layoutN arg .rcDecDirect
  | 0x46#8 => layoutN arg .rcFlush
  | 0x50#8 => layoutN arg .prInit
  | 0x51#8 => layoutC arg .prPredict
  | 0x52#8 => layoutVC arg .prResidual
  | 0x53#8 => layoutVC arg .prRecon
  | 0x54#8 => layoutVC arg .prShift
  | 0x60#8 => layoutVC arg .cxEncRes
  | 0x61#8 => layoutC arg .cxDecRes
  | 0x62#8 => layoutAB arg .cxEncFrame
  | 0x63#8 => layoutN arg .cxDecFrame
  | 0x70#8 => layoutR arg .rdReg
  | 0x71#8 => layoutO arg .setOpt
  | 0x7F#8 => layoutN arg .reset
  | _ => .error .undefinedOpcode

/-- The decoder: total on any word, rejecting by name (R90). -/
def decode (w : CmdWord) : Except DecodeError Instr :=
  decodeFields (opcodeOf w) (argOf w)

/-- The instruction the decoder reads from an instruction of `nbits` bits with value `w`, bit 0 the least
significant (bits above `nbits` are 0); every command has 40 bits (R95). -/
def decodeTableWord (nbits w : Nat) : Option Instr :=
  if nbits ≤ 40 then
    match decode (BitVec.ofNat 40 (w % 2 ^ nbits)) with
    | .ok i => some i
    | .error _ => none
  else none

/-- The word `(opcode << 32) | arg` (R96). -/
def commandWord (op : BitVec 8) (arg : BitVec 32) : CmdWord := op ++ arg

/-! Operand assembly, one function per layout with operands (R91, R92); unlisted bits are 0. -/

def argV (v : BitVec 16) : BitVec 32 := 0#16 ++ v

def argPair (lo hi : BitVec 16) : BitVec 32 := hi ++ lo

def argNP (n : BitVec 24) (pad : BitVec 8) : BitVec 32 := pad ++ n

def argK (k : BitVec 24) : BitVec 32 := 0#8 ++ k

def argIB (idx : BitVec 16) (bit : Bool) : BitVec 32 := 0#15 ++ BitVec.ofBool bit ++ idx

def argPB (p : BitVec 13) (bit : Bool) : BitVec 32 := 0#15 ++ BitVec.ofBool bit ++ 0#3 ++ p

def argB (bit : Bool) : BitVec 32 := 0#15 ++ BitVec.ofBool bit ++ 0#16

def argP (p : BitVec 13) : BitVec 32 := 0#19 ++ p

def argR (n : BitVec 8) : BitVec 32 := 0#24 ++ n

/-- The opcode of a command (R93). -/
def opcode : Instr → BitVec 8
  | .cbResize _ _ => 0x10#8
  | .cbPush _ => 0x11#8
  | .cbGet _ => 0x12#8
  | .cbGetu _ => 0x13#8
  | .cbFill _ => 0x14#8
  | .cbRelease => 0x15#8
  | .cbPrev _ _ => 0x16#8
  | .cbNext _ _ => 0x17#8
  | .cbCopyS2e _ => 0x18#8
  | .cbCopyE2s _ => 0x19#8
  | .dqPushBack _ => 0x20#8
  | .dqPopFront _ => 0x21#8
  | .dqFront => 0x22#8
  | .dqGet _ => 0x23#8
  | .dqCapacity => 0x24#8
  | .dqSize => 0x25#8
  | .dqFull => 0x26#8
  | .mtInit => 0x30#8
  | .bmInit _ => 0x31#8
  | .bmGetp _ => 0x32#8
  | .bmUpdate _ _ => 0x33#8
  | .rcInitEnc => 0x40#8
  | .rcInitDec => 0x41#8
  | .rcEnc _ _ => 0x42#8
  | .rcEncDirect _ => 0x43#8
  | .rcDec _ => 0x44#8
  | .rcDecDirect => 0x45#8
  | .rcFlush => 0x46#8
  | .prInit => 0x50#8
  | .prPredict _ => 0x51#8
  | .prResidual _ _ => 0x52#8
  | .prRecon _ _ => 0x53#8
  | .prShift _ _ => 0x54#8
  | .cxEncRes _ _ => 0x60#8
  | .cxDecRes _ => 0x61#8
  | .cxEncFrame _ _ => 0x62#8
  | .cxDecFrame => 0x63#8
  | .rdReg _ => 0x70#8
  | .setOpt _ => 0x71#8
  | .reset => 0x7F#8

/-- The operand field `arg` of a command (R91). -/
def operandField : Instr → BitVec 32
  | .cbResize n pad => argNP n pad
  | .cbPush v => argV v
  | .cbGet off => off
  | .cbGetu off => off
  | .cbFill v => argV v
  | .cbRelease => 0#32
  | .cbPrev p k => argPair p k
  | .cbNext p k => argPair p k
  | .cbCopyS2e k => argK k
  | .cbCopyE2s k => argK k
  | .dqPushBack v => argV v
  | .dqPopFront k => argK k
  | .dqFront => 0#32
  | .dqGet off => off
  | .dqCapacity => 0#32
  | .dqSize => 0#32
  | .dqFull => 0#32
  | .mtInit => 0#32
  | .bmInit idx => argV idx
  | .bmGetp idx => argV idx
  | .bmUpdate idx bit => argIB idx bit
  | .rcInitEnc => 0#32
  | .rcInitDec => 0#32
  | .rcEnc p bit => argPB p bit
  | .rcEncDirect bit => argB bit
  | .rcDec p => argP p
  | .rcDecDirect => 0#32
  | .rcFlush => 0#32
  | .prInit => 0#32
  | .prPredict c => argB (channelBit c)
  | .prResidual c v => argIB v (channelBit c)
  | .prRecon c v => argIB v (channelBit c)
  | .prShift c v => argIB v (channelBit c)
  | .cxEncRes c v => argIB v (channelBit c)
  | .cxDecRes c => argB (channelBit c)
  | .cxEncFrame a b => argPair a b
  | .cxDecFrame => 0#32
  | .rdReg n => argR n
  | .setOpt val => val
  | .reset => 0#32

/-- The command word of an instruction (R91, R93, R96). -/
def encode (i : Instr) : CmdWord := commandWord (opcode i) (operandField i)

end Sys2Proof
end

