-- ==== Sys2Proof/Config.lean ====
section
/-! DEFINITION. What an implementation fixes (spec/00_scope.md R7, R8) and the values the spec leaves free. -/
namespace Sys2Proof.Config

/-- Fractional bits of a probability (R7). -/
abbrev kShift : Nat := 12

/-- Probability one, `1 << kShift` (R7). -/
abbrev kMaxValue : Nat := 4096

/-- Residual MSBs coded through the model (R7). -/
abbrev nonNoiseBits : Nat := 13

/-- Residual LSBs coded with probability one half (R7). -/
abbrev noiseBits : Nat := 3

/-- Width reserved for `outer_ctx` in the model-table index (R7). -/
abbrev contextBits : Nat := 2

/-- Learning exponent `L` of the bit-model update (R7). -/
abbrev learnShift : Nat := 9

/-- Number of model-table entries, `2 << (13 + 2)` (R7). -/
abbrev tableSize : Nat := 65536

/-- Initial value of a model-table entry, `kMaxValue / 2` (R7). -/
abbrev pInit : Nat := 2048

/-- PCLAMP, the bound applied after a bit-0 update; the spec's default (R8; log 9). Every value in
[3585, 4096] behaves alike (spec/42_bit_model.md R151). -/
abbrev pclamp : Nat := 4095

/-- Normalisation threshold 2^24 (R7). -/
abbrev normThreshold : Nat := 16777216

/-- `ShiftOut` calls of RC_FLUSH (R7: flush length 5). -/
abbrev flushLength : Nat := 5

/-- Octets RC_INIT_DEC reads (R7: decoder preload 4). -/
abbrev preloadLength : Nat := 4

/-- NMAX, the largest ring size CB_RESIZE accepts (R8; log 9). -/
abbrev nMax : Nat := 65536

/-- The octet a source read answers after end of input, for the `n`-th such read: a draw, any octet,
fresh each time, under no law (R8, spec/20_memory.md R66; log 3). It has no body on purpose. -/
opaque eofOctet : Nat → Octet

/-- How many of the octets that an abandoned command would have written had reached the sink when the
hardware reset input arrived: the spec leaves it open (spec/70_reset_and_hazards.md R255; log 11). -/
opaque resetSinkCut : Nat → Nat

/-- How many of the octets that an abandoned command would have read had been taken from the source
when the hardware reset input arrived: the spec leaves it open (R255; log 11). -/
opaque resetSourceCut : Nat → Nat

end Sys2Proof.Config
end

