-- ==== Sys2Proof/Machine/State.lean ====
section
/-! DEFINITION. The architectural state (spec/10_state.md) as plain data, and its reset value (R44). -/
namespace Sys2Proof.Machine

/-- MODE (R26): the coder's direction. -/
inductive Mode where
  | idle
  | enc
  | dec
  | flushed
deriving DecidableEq, Repr

/-- The causes of a latched fault (spec/60_exceptions.md R226). They are part of the machine: taking one
is a next state, not a stop of the model. -/
inductive FaultCode where
  | illegalCommand
  | badConfiguration
  | badMode
  | modelUninit
  | badOperand
  | cbUnallocated
  | cbBounds
  | dqOverflow
  | dqUnderflow
deriving DecidableEq, Repr

/-- Why the model itself stops with a fault. -/
inductive Fault where
  /-- Raised by CB_PUSH, CB_GET, DQ_PUSH_BACK, DQ_FRONT and DQ_GET when the masked index lies outside the
  `CB_N + 2 * CB_PAD` elements of ST, which needs a CB_MASK other than `CB_N - 1` (R36 rules it out). No run
  from reset meets it. Safe: the model stops where the spec describes no element (log 7). -/
  | storageOutside
deriving DecidableEq, Repr

/-- Why the model gives an instruction no meaning. -/
inductive Refusal where
  /-- Raised by an arm of `exec` whose instruction has no meaning yet; no arm is left with it. Safe. -/
  | notModelled (mnemonic : String)
deriving DecidableEq, Repr

/-- A memory of `w`-bit cells: (index, cell) pairs, indices strictly rising, no cell equal to what an
unlisted index reads as. The cells are the spec's own units, whole entries and elements
(spec/20_memory.md R69; log 6). -/
abbrev Memory (w : Nat) := List (Nat × BitVec w)

/-- The response to a command (spec/30_encoding.md R98). -/
structure Response where
  fault : BitVec 8
  res : BitVec 32
deriving DecidableEq, Repr

/-- What the host can present at the block's command port and reset input
(spec/92_eei_decisions.md D2, spec/70_reset_and_hazards.md R255). -/
inductive HostInput where
  /-- A 40-bit command word (spec/30_encoding.md R90). -/
  | command (w : CmdWord)
  /-- The hardware reset input, between two commands (R255). -/
  | resetInput
  /-- The hardware reset input while the command `w` is executing (R255, last sentence; log 11). -/
  | resetDuring (w : CmdWord)
deriving DecidableEq, Repr

/-- FAULT, FAULT_OP, FAULT_ARG (R22). -/
structure FaultLatch where
  fault : BitVec 8
  faultOp : BitVec 8
  faultArg : BitVec 32
deriving DecidableEq, Repr

/-- The range-coder registers (R27 to R33). -/
structure Coder where
  /-- LOW (R27). -/
  low : BitVec 32
  /-- RANGE (R28). -/
  range : BitVec 32
  /-- CODE (R29). -/
  code : BitVec 32
  /-- CARRY (R30). -/
  carry : Bool
  /-- HELD (R31). -/
  held : BitVec 8
  /-- HELD_VALID (R31). -/
  heldValid : Bool
  /-- FF_RUN (R32), a natural number (spec/00_scope.md R8; log 10). -/
  ffRun : Nat
  /-- SRC_COUNT (R33). -/
  srcCount : BitVec 32
  /-- SNK_COUNT (R33). -/
  snkCount : BitVec 32
  /-- SRC_EOF (R33). -/
  srcEof : Bool
deriving DecidableEq, Repr

/-- LAST1, LAST2, LAST3 of one channel (R35). -/
structure History where
  last1 : Sample
  last2 : Sample
  last3 : Sample
deriving DecidableEq, Repr

/-- The cyclic buffer, its storage and the deque cursors (R36 to R38). -/
structure Ring where
  /-- CB_ALLOC (R36). -/
  alloc : Bool
  /-- CB_N (R36). -/
  n : BitVec 17
  /-- CB_PAD (R36). -/
  pad : BitVec 8
  /-- CB_MASK (R36). -/
  mask : BitVec 32
  /-- CB_POS (R36). -/
  pos : BitVec 32
  /-- ST (R37); an unlisted element reads 0, empty while CB_ALLOC = 0. -/
  st : Memory 16
  /-- DQ_FRONT_POS (R38). -/
  frontPos : BitVec 32
  /-- DQ_SIZE (R38). -/
  dqSize : BitVec 17
deriving DecidableEq, Repr

/-- The block's ports, and the counter of free draws. The spec calls their contents the host's
(R43, spec/00_scope.md R11); they stand here so that a step is a function of the state (log 1, 2, 3). -/
structure Ports where
  /-- What the host presents next, first first (log 1). -/
  inputs : List HostInput
  /-- The unread octets of the octet source (spec/20_memory.md R66). -/
  source : List Octet
  /-- The octets written to the octet sink, in order (spec/20_memory.md R67). -/
  sink : List Octet
  /-- The responses returned, in order (spec/30_encoding.md R98). -/
  responses : List Response
  /-- How many free draws have been taken; the model's own counter (log 3). -/
  draws : Nat
deriving DecidableEq, Repr

/-- The whole state. STATUS and ABI have no storage (R39, R40); they are computed in Machine/Flags.lean. -/
structure State where
  latch : FaultLatch
  /-- RES (R23). -/
  res : BitVec 32
  /-- OPT_VAR (R24). -/
  optVar : BitVec 32
  /-- MT_VALID (R25). -/
  mtValid : Bool
  /-- MODE (R26). -/
  mode : Mode
  rc : Coder
  /-- MT (R34); an unlisted entry reads 2048 (log 4). -/
  mt : Memory 13
  /-- LAST1[0], LAST2[0], LAST3[0] (R35). -/
  histA : History
  /-- LAST1[1], LAST2[1], LAST3[1] (R35). -/
  histB : History
  ring : Ring
  io : Ports
deriving DecidableEq, Repr

/-- What one step of this machine answers. -/
abbrev Result := Host.Outcome State Fault Refusal

/-- The machine right after reset (R44). MT has no reset value in the spec: nothing is listed, so each
entry would read 2048, and MT_VALID = 0 keeps every entry unreadable (log 4). The ports hold nothing. -/
def State.reset : State where
  latch := ⟨0#8, 0#8, 0#32⟩
  res := 0#32
  optVar := 0#32
  mtValid := false
  mode := .idle
  rc :=
    { low := 0#32, range := 0xFFFFFFFF#32, code := 0#32, carry := false, held := 0#8,
      heldValid := false, ffRun := 0, srcCount := 0#32, snkCount := 0#32, srcEof := false }
  mt := []
  histA := ⟨0#16, 0#16, 0#16⟩
  histB := ⟨0#16, 0#16, 0#16⟩
  ring :=
    { alloc := false, n := 0#17, pad := 0#8, mask := 0xFFFFFFFF#32, pos := 0#32, st := [],
      frontPos := 0#32, dqSize := 0#17 }
  io := { inputs := [], source := [], sink := [], responses := [], draws := 0 }

end Sys2Proof.Machine
end

