-- ==== Sys2Proof/Machine/Ops.lean ====
section
/-! DEFINITION. The named operations over memory, registers and ports, taking a fault and leaving the
faulted state (spec/10_state.md, spec/20_memory.md, spec/60_exceptions.md R238 to R241). -/
namespace Sys2Proof.Machine

/-! ## Memory cells -/

/-- The cell at index `a`; an unlisted index reads `d`. -/
def Memory.read {w : Nat} (d : BitVec w) : Memory w → Nat → BitVec w
  | [], _ => d
  | c :: m, a => if c.1 = a then c.2 else Memory.read d m a

/-- Every cell but the one at index `a`. -/
def Memory.erase {w : Nat} : Memory w → Nat → Memory w
  | [], _ => []
  | c :: m, a => if c.1 = a then Memory.erase m a else c :: Memory.erase m a

/-- Insert a cell before the first higher index. -/
def Memory.insert {w : Nat} : Memory w → Nat → BitVec w → Memory w
  | [], a, v => [(a, v)]
  | c :: m, a, v => if a < c.1 then (a, v) :: c :: m else c :: Memory.insert m a v

/-- Write the cell at index `a`, keeping the canonical form: writing `d` removes the cell. -/
def Memory.write {w : Nat} (d : BitVec w) (m : Memory w) (a : Nat) (v : BitVec w) : Memory w :=
  if v = d then Memory.erase m a else Memory.insert (Memory.erase m a) a v

/-- `len` cells from index 0, all holding `v`. -/
def Memory.fill {w : Nat} (d : BitVec w) (len : Nat) (v : BitVec w) : Memory w :=
  if v = d then [] else (List.range len).map (fun a => (a, v))

/-- Copy `len` cells from `src` on to `dst` on, in ascending order, each read after the earlier writes
(spec/40_cyclic_buffer.md R119, R120). -/
def Memory.copyUp {w : Nat} (d : BitVec w) (m : Memory w) (dst src : Nat) : Nat → Memory w
  | 0 => m
  | len + 1 =>
    let done := Memory.copyUp d m dst src len
    Memory.write d done (dst + len) (Memory.read d done (src + len))

/-- Indices rise strictly from `from_` on, stay below `bound`, and no cell reads as an unlisted one. -/
def Memory.wfFrom {w : Nat} (d : BitVec w) (bound from_ : Nat) : Memory w → Bool
  | [] => true
  | c :: m => decide (from_ ≤ c.1) && decide (c.1 < bound) && decide (c.2 ≠ d) && Memory.wfFrom d bound (c.1 + 1) m

/-- The canonical form of a memory of `bound` cells. -/
def Memory.wf {w : Nat} (d : BitVec w) (bound : Nat) (m : Memory w) : Bool :=
  Memory.wfFrom d bound 0 m

/-- What an unlisted model-table entry reads as: the value MT_INIT gives every entry
(spec/42_bit_model.md R148; log 4). -/
def mtDefault : Prob := BitVec.ofNat 13 Config.pInit

/-- What an unlisted storage element reads as: CB_RESIZE "allocates zero-initialized elements"
(spec/10_state.md R37). -/
def stDefault : Sample := 0#16

/-- `MT[i]` (spec/00_scope.md R13). -/
def mtRead (s : State) (i : Nat) : Prob := Memory.read mtDefault s.mt i

/-- `MT[i] <- p` (spec/00_scope.md R13). -/
def mtWrite (s : State) (i : Nat) (p : Prob) : State :=
  { s with mt := Memory.write mtDefault s.mt i p }

/-- `ST[j]` (spec/00_scope.md R13). -/
def stRead (r : Ring) (j : Nat) : Sample := Memory.read stDefault r.st j

/-- `ST[j] <- v` (spec/00_scope.md R13). -/
def stWrite (r : Ring) (j : Nat) (v : Sample) : Ring :=
  { r with st := Memory.write stDefault r.st j v }

/-- The number of elements of ST, `CB_N + 2 * CB_PAD` (spec/10_state.md R37). -/
def Ring.cells (r : Ring) : Nat := r.n.toNat + 2 * r.pad.toNat

/-! ## Registers -/

/-- `RES <- v` (spec/10_state.md R23). -/
def setRes (s : State) (v : BitVec 32) : State := { s with res := v }

/-- The history of a channel (spec/10_state.md R35). -/
def histOf (s : State) : Channel → History
  | .a => s.histA
  | .b => s.histB

/-- Write the history of a channel. -/
def setHist (s : State) (c : Channel) (h : History) : State :=
  match c with
  | .a => { s with histA := h }
  | .b => { s with histB := h }

/-! ## Taking a fault, being refused, leaving the faulted state -/

/-- The code of a fault cause (spec/60_exceptions.md R226). -/
def faultNumber : FaultCode → BitVec 8
  | .illegalCommand => 1#8
  | .badConfiguration => 2#8
  | .badMode => 3#8
  | .modelUninit => 4#8
  | .badOperand => 5#8
  | .cbUnallocated => 6#8
  | .cbBounds => 7#8
  | .dqOverflow => 8#8
  | .dqUnderflow => 9#8

/-- Fault entry for the command word `w` (spec/60_exceptions.md R239): the three fault registers and
nothing else. -/
def raiseWord (f : FaultCode) (w : CmdWord) (s : State) : State :=
  { s with latch := { fault := faultNumber f, faultOp := opcodeOf w, faultArg := argOf w } }

/-- Fault entry for a decoded command; its word is the command's encoding (log 13). -/
def raise (f : FaultCode) (i : Instr) (s : State) : State := raiseWord f (encode i) s

/-- The block is faulted (spec/10_state.md R22). -/
def faulted (s : State) : Bool := s.latch.fault != 0#8

/-- A faulted block refuses the command: no state change at all (spec/60_exceptions.md R240). -/
def unlessFaulted (s : State) (k : Result) : Result :=
  if faulted s then .next s else k

/-- Raise the fault unless the check holds (spec/60_exceptions.md R238: all checks come before any effect). -/
def require (ok : Bool) (f : FaultCode) (i : Instr) (s : State) (k : Result) : Result :=
  if ok then k else .next (raise f i s)

/-- What either reset event leaves (spec/10_state.md R44, R45, spec/70_reset_and_hazards.md R255, R256):
every register at its reset value, the ports untouched. It is the only way out of the faulted state
(spec/60_exceptions.md R241). -/
def resetBlock (s : State) : State := { State.reset with io := s.io }

/-- The response of a word that is no command: IllegalCommand, or nothing at all in a faulted block
(spec/60_exceptions.md R227, R240). -/
def illegalCommand (w : CmdWord) (s : State) : Result :=
  unlessFaulted s (.next (raiseWord .illegalCommand w s))

/-! ## Ports -/

/-- `SrcRead()` (spec/20_memory.md R66): the next octet, or a free draw after end of input (log 3). -/
def srcRead (s : State) : Octet × State :=
  match s.io.source with
  | o :: rest =>
    (o, { s with
      rc := { s.rc with srcCount := s.rc.srcCount + 1#32 }
      io := { s.io with source := rest } })
  | [] =>
    (Config.eofOctet s.io.draws, { s with
      rc := { s.rc with srcCount := s.rc.srcCount + 1#32, srcEof := true }
      io := { s.io with draws := s.io.draws + 1 } })

/-- `SnkWrite(o)` (spec/20_memory.md R67). -/
def snkWrite (o : Octet) (s : State) : State :=
  { s with
    rc := { s.rc with snkCount := s.rc.snkCount + 1#32 }
    io := { s.io with sink := s.io.sink ++ [o] } }

/-- `repeat n times: SnkWrite(o)`. -/
def snkWriteRun (o : Octet) : Nat → State → State
  | 0, s => s
  | n + 1, s => snkWriteRun o n (snkWrite o s)

/-- Take the presented input off the command port. -/
def takeInput (s : State) : State :=
  { s with io := { s.io with inputs := s.io.inputs.tail } }

/-- Present an input before the others. -/
def presentFirst (x : HostInput) (s : State) : State :=
  { s with io := { s.io with inputs := x :: s.io.inputs } }

/-- The response as the registers stand after the command (spec/30_encoding.md R98). -/
def responseOf (s : State) : Response := { fault := s.latch.fault, res := s.res }

/-- Return the response. -/
def respond (s : State) : State :=
  { s with io := { s.io with responses := s.io.responses ++ [responseOf s] } }

/-- Return the response of a command that completed or was refused or faulted (spec/30_encoding.md R98). -/
def respondTo : Result → Result
  | .next t => .next (respond t)
  | .fault f => .fault f
  | .refused r => .refused r

/-- The hardware reset input abandons a command that would have led from `s` to `t`: the registers are
reset, and an unspecified part of the command's octets has passed the ports
(spec/70_reset_and_hazards.md R255; spec/93_implementation_defined.md I4; log 11). -/
def abandon (s t : State) : State :=
  let written := t.io.sink.drop s.io.sink.length
  let consumed := s.io.source.length - t.io.source.length
  { State.reset with
    io :=
      { inputs := s.io.inputs
        source := s.io.source.drop (min (Config.resetSourceCut t.io.draws) consumed)
        sink := s.io.sink ++ written.take (Config.resetSinkCut t.io.draws)
        responses := s.io.responses
        draws := t.io.draws + 1 } }

/-- Abandon the command whose result is given; a stop stays a stop. -/
def abandonTo (s : State) : Result → Result
  | .next t => .next (abandon s t)
  | .fault f => .fault f
  | .refused r => .refused r

end Sys2Proof.Machine
end

