-- ==== Sys2Proof/Machine/Operands.lean ====
section
/-! DEFINITION. Operand forms: addressing modes (spec/20_memory.md R72), operand checks
(spec/60_exceptions.md R228, R231, R233) and result packing (spec/20_memory.md R79). -/
namespace Sys2Proof.Machine

/-! ## Addressing modes (R72) -/

/-- Masked mode: the ST index of `data[off & mask]`. -/
def maskedIndex (r : Ring) (off : BitVec 32) : Nat := r.pad.toNat + (off &&& r.mask).toNat

/-- Deque mode: the ST index of `data[((DQ_FRONT_POS + off) mod 2^32) & mask]`. -/
def dequeIndex (r : Ring) (off : BitVec 32) : Nat := maskedIndex r (r.frontPos + off)

/-- Unmasked mode is legal when `-CB_PAD ≤ sext_32(off) < CB_N + CB_PAD` (spec/40_cyclic_buffer.md R114). -/
def unmaskedLegal (r : Ring) (off : BitVec 32) : Bool :=
  decide (-(r.pad.toNat : Int) ≤ off.toInt) && decide (off.toInt < (r.n.toNat : Int) + (r.pad.toNat : Int))

/-- Unmasked mode: the ST index `CB_PAD + sext_32(off)`. -/
def unmaskedIndex (r : Ring) (off : BitVec 32) : Nat := ((r.pad.toNat : Int) + off.toInt).toNat

/-- The channel's number. -/
def channelNumber : Channel → Nat
  | .a => 0
  | .b => 1

/-- Context mode: `((outer_ctx * 2 + channel) << 13) + ctx` with `outer_ctx = 0`
(spec/20_memory.md R70; spec/45_codec.md R195). -/
def contextIndex (c : Channel) (ctx : Nat) : Nat :=
  (0 * 2 + channelNumber c) * 2 ^ Config.nonNoiseBits + ctx

/-- Reach the element at ST index `j`; outside the allocation there is none (spec/10_state.md R37; log 7). -/
def withElement (r : Ring) (j : Nat) (k : Result) : Result :=
  if j < r.cells then k else .fault .storageOutside

/-! ## Operand checks -/

/-- CB_RESIZE's size: not 0, a power of two, at most NMAX (spec/40_cyclic_buffer.md R111). -/
def sizeLegal (n : BitVec 24) : Bool :=
  !(n == 0#24 || (n &&& (n - 1#24)) != 0#24 || decide (Config.nMax < n.toNat))

/-- RC_ENC's and RC_DEC's probability: 1 to 4095 (spec/60_exceptions.md R231). -/
def probLegal (p : Prob) : Bool :=
  !(p == 0#13 || decide (4095 < p.toNat))

/-- CB_COPY_S2E's count (spec/40_cyclic_buffer.md R119). -/
def copyS2eLegal (r : Ring) (k : BitVec 24) : Bool := decide (k.toNat ≤ r.pad.toNat)

/-- CB_COPY_E2S's count (spec/40_cyclic_buffer.md R120). -/
def copyE2sLegal (r : Ring) (k : BitVec 24) : Bool := decide (k.toNat ≤ 2 * r.pad.toNat)

/-! ## Results -/

/-- Zero-extend to the 32 bits of RES. -/
def zext {w : Nat} (v : BitVec w) : BitVec 32 := v.setWidth 32

/-- Two 16-bit values in 32 bits, `a` in 15:0 and `b` in 31:16 (spec/20_memory.md R79). -/
def packPair (a b : Sample) : BitVec 32 := b ++ a

end Sys2Proof.Machine
end

