-- ==== Sys2Proof/Machine/Flags.lean ====
section
/-! DEFINITION. The computed views: STATUS and its flags (spec/10_state.md R39), ABI (R40) and the register
map of RD_REG (R41). -/
namespace Sys2Proof.Machine

/-- MODE's two bits (R26). -/
def modeBits : Mode → BitVec 2
  | .idle => 0#2
  | .enc => 1#2
  | .dec => 2#2
  | .flushed => 3#2

/-- STATUS bit 10, DQ_FULL: allocated and no room (R39, spec/41_cyclic_deque.md R137). -/
def dqFullFlag (r : Ring) : Bool := r.alloc && r.dqSize == r.n

/-- STATUS bit 11, DQ_EMPTY (R39). -/
def dqEmptyFlag (r : Ring) : Bool := r.dqSize == 0#17

/-- STATUS (R39), bit 31 first. -/
def status (s : State) : BitVec 32 :=
  0#20 ++ BitVec.ofBool (dqEmptyFlag s.ring) ++ BitVec.ofBool (dqFullFlag s.ring) ++ modeBits s.mode ++
    0#2 ++ BitVec.ofBool s.rc.carry ++ BitVec.ofBool s.rc.heldValid ++ BitVec.ofBool s.rc.srcEof ++
    BitVec.ofBool s.ring.alloc ++ BitVec.ofBool s.mtValid ++ BitVec.ofBool (faulted s)

/-- ABI (R40): kContextBits, noise_bits, non_noise_bits, kShift, most significant octet first. -/
def abi : BitVec 32 :=
  BitVec.ofNat 8 Config.contextBits ++ BitVec.ofNat 8 Config.noiseBits ++
    BitVec.ofNat 8 Config.nonNoiseBits ++ BitVec.ofNat 8 Config.kShift

/-- RC_PIPE (R41): HELD, HELD_VALID, CARRY. -/
def rcPipe (c : Coder) : BitVec 32 :=
  0#22 ++ BitVec.ofBool c.carry ++ BitVec.ofBool c.heldValid ++ c.held

/-- The register map of RD_REG (R41); `none` for a number that is not listed. -/
def readReg (s : State) (n : BitVec 8) : Option (BitVec 32) :=
  match n with
  | 0x00#8 => some (status s)
  | 0x01#8 => some (zext s.latch.fault)
  | 0x02#8 => some (zext s.latch.faultOp)
  | 0x03#8 => some s.latch.faultArg
  | 0x04#8 => some s.res
  | 0x05#8 => some s.optVar
  | 0x06#8 => some abi
  | 0x08#8 => some s.rc.low
  | 0x09#8 => some s.rc.range
  | 0x0A#8 => some s.rc.code
  | 0x0B#8 => some (rcPipe s.rc)
  | 0x0C#8 => some (BitVec.ofNat 32 s.rc.ffRun)
  | 0x0D#8 => some s.rc.srcCount
  | 0x0E#8 => some s.rc.snkCount
  | 0x10#8 => some (packPair s.histA.last1 s.histA.last2)
  | 0x11#8 => some (zext s.histA.last3)
  | 0x12#8 => some (packPair s.histB.last1 s.histB.last2)
  | 0x13#8 => some (zext s.histB.last3)
  | 0x18#8 => some (zext s.ring.n)
  | 0x19#8 => some (zext s.ring.pad)
  | 0x1A#8 => some s.ring.mask
  | 0x1B#8 => some s.ring.pos
  | 0x1C#8 => some s.ring.frontPos
  | 0x1D#8 => some (zext s.ring.dqSize)
  | _ => none

end Sys2Proof.Machine
end

