-- ==== Sys2Proof/Machine/BitModel.lean ====
section
/-! DEFINITION. The adaptive bit model: MT_INIT and the BM_ commands (spec/42_bit_model.md). -/
namespace Sys2Proof.Machine

/-- `Update(p, bit)` with the clamp as an argument (R147, R151). -/
def updateClamped (clamp p : Nat) (bit : Bool) : Nat :=
  if bit then p - p / 2 ^ Config.learnShift
  else min (p + (Config.kMaxValue - p) / 2 ^ Config.learnShift) clamp

/-- `Update(p, bit)` (R147) with the spec's default PCLAMP (log 9). -/
def update (p : Nat) (bit : Bool) : Nat := updateClamped Config.pclamp p bit

/-- `MT[i] <- Update(MT[i], bit)` (R153, R196). -/
def mtUpdate (s : State) (i : Nat) (bit : Bool) : State :=
  mtWrite s i (BitVec.ofNat 13 (update (mtRead s i).toNat bit))

/-- The MT_VALID gate (spec/10_state.md R25, spec/60_exceptions.md R230). -/
def requireModel (i : Instr) (s : State) (k : Result) : Result :=
  require s.mtValid .modelUninit i s k

/-- MT_INIT (R148): every entry 2048, which is what an unlisted entry reads. -/
def execMtInit (s : State) : Result :=
  unlessFaulted s <|
  .next { s with mt := Memory.fill mtDefault Config.tableSize (BitVec.ofNat 13 Config.pInit), mtValid := true }

/-- BM_INIT (R149). -/
def execBmInit (idx : BitVec 16) (s : State) : Result :=
  unlessFaulted s <|
  requireModel (.bmInit idx) s <|
  .next (mtWrite s idx.toNat (BitVec.ofNat 13 Config.pInit))

/-- BM_GETP (R152): the stored value, unpatched (R146). -/
def execBmGetp (idx : BitVec 16) (s : State) : Result :=
  unlessFaulted s <|
  requireModel (.bmGetp idx) s <|
  .next (setRes s (zext (mtRead s idx.toNat)))

/-- BM_UPDATE (R153). -/
def execBmUpdate (idx : BitVec 16) (bit : Bool) (s : State) : Result :=
  unlessFaulted s <|
  requireModel (.bmUpdate idx bit) s <|
  .next (mtUpdate s idx.toNat bit)

end Sys2Proof.Machine
end

