-- ==== Sys2Proof/Machine/Predictor.lean ====
section
/-! DEFINITION. The linear predictor: the PR_ commands (spec/44_predictor.md). 16-bit arithmetic wraps mod 2^16
and never saturates (R186, spec/00_scope.md R16). -/
namespace Sys2Proof.Machine

/-- `Pred(c) = (2 * LAST1[c] - LAST2[c]) mod 2^16` (R186). -/
def pred (h : History) : Sample := 2#16 * h.last1 - h.last2

/-- `LAST3 <- LAST2; LAST2 <- LAST1; LAST1 <- v`, all read before any is written (R191). -/
def shiftHistory (h : History) (v : Sample) : History :=
  { last1 := v, last2 := h.last1, last3 := h.last2 }

/-- The zero history (R187). -/
def zeroHistory : History := { last1 := 0#16, last2 := 0#16, last3 := 0#16 }

/-- PR_INIT (R187). -/
def execPrInit (s : State) : Result :=
  unlessFaulted s <|
  .next { s with histA := zeroHistory, histB := zeroHistory }

/-- PR_PREDICT (R188). -/
def execPrPredict (c : Channel) (s : State) : Result :=
  unlessFaulted s <|
  .next (setRes s (zext (pred (histOf s c))))

/-- PR_RESIDUAL (R189). -/
def execPrResidual (c : Channel) (v : BitVec 16) (s : State) : Result :=
  unlessFaulted s <|
  .next (setRes s (zext (v - pred (histOf s c))))

/-- PR_RECON (R190). -/
def execPrRecon (c : Channel) (v : BitVec 16) (s : State) : Result :=
  unlessFaulted s <|
  .next (setRes s (zext (pred (histOf s c) + v)))

/-- PR_SHIFT (R191). -/
def execPrShift (c : Channel) (v : BitVec 16) (s : State) : Result :=
  unlessFaulted s <|
  .next (setHist s c (shiftHistory (histOf s c) v))

end Sys2Proof.Machine
end

