-- ==== Sys2Proof/Machine/RangeCoder.lean ====
section
/-! DEFINITION. The range coder: its procedures and the RC_ commands (spec/43_range_coder.md). Arithmetic is
exact on naturals and narrowed once, where the rule writes a register (spec/00_scope.md R17). -/
namespace Sys2Proof.Machine

/-- The MODE gate (spec/10_state.md R26, spec/60_exceptions.md R229). -/
def requireMode (m : Mode) (i : Instr) (s : State) (k : Result) : Result :=
  require (s.mode == m) .badMode i s k

/-- `mid = (RANGE >> 12) * p` (R161), an exact product. -/
def partition (range : BitVec 32) (p : Nat) : Nat := range.toNat / 2 ^ Config.kShift * p

/-- `RANGE <- (RANGE << 8) mod 2^32`. -/
def shiftRange (s : State) : State := { s with rc := { s.rc with range := s.rc.range <<< 8 } }

/-- The octets kept back, written with the carry taken in: HELD if valid, then the 0xFF run (R162). -/
def writePending (s : State) : State :=
  let carry : Octet := (BitVec.ofBool s.rc.carry).setWidth 8
  let s1 := if s.rc.heldValid then snkWrite (s.rc.held + carry) s else s
  snkWriteRun (0xFF#8 + carry) s.rc.ffRun s1

/-- `ShiftOut()` (R162). -/
def shiftOut (s : State) : State :=
  if s.rc.low.toNat < 0xFF000000 ∨ s.rc.carry = true then
    let s1 := writePending s
    { s1 with rc := { s1.rc with
      ffRun := 0, held := s.rc.low.extractLsb' 24 8, heldValid := true, carry := false, low := s.rc.low <<< 8 } }
  else
    { s with rc := { s.rc with ffRun := s.rc.ffRun + 1, carry := false, low := s.rc.low <<< 8 } }

/-- `n` times `ShiftOut`. -/
def shiftOutRun : Nat → State → State
  | 0, s => s
  | n + 1, s => shiftOutRun n (shiftOut s)

/-- How often a normalisation loop may run: three shifts bring every RANGE but 0 to 2^24; the rules need
two (R166; log 8). -/
def normBound : Nat := 3

/-- `while RANGE < 2^24: ShiftOut(); RANGE <- RANGE << 8`, at most the given number of times (R163). -/
def encNormalizeLoop : Nat → State → State
  | 0, s => s
  | n + 1, s =>
    if s.rc.range.toNat < Config.normThreshold then encNormalizeLoop n (shiftRange (shiftOut s)) else s

/-- `EncNormalize()` (R163). -/
def encNormalize (s : State) : State := encNormalizeLoop normBound s

/-- `Drain()` (R164). -/
def drain (s : State) : State :=
  let s1 := if s.rc.heldValid then snkWrite s.rc.held s else s
  let s2 := snkWriteRun 0xFF#8 s.rc.ffRun s1
  { s2 with rc := { s2.rc with heldValid := false, held := 0#8, ffRun := 0 } }

/-- `CODE <- (CODE << 8) | SrcRead()` (R165, R168). -/
def readIntoCode (s : State) : State :=
  let r := srcRead s
  { r.2 with rc := { r.2.rc with code := (s.rc.code <<< 8) ||| zext r.1 } }

/-- `n` times `readIntoCode`. -/
def readIntoCodeRun : Nat → State → State
  | 0, s => s
  | n + 1, s => readIntoCodeRun n (readIntoCode s)

/-- `while RANGE < 2^24: CODE <- (CODE << 8) | SrcRead(); RANGE <- RANGE << 8`, at most the given number of
times (R165). -/
def decNormalizeLoop : Nat → State → State
  | 0, s => s
  | n + 1, s =>
    if s.rc.range.toNat < Config.normThreshold then decNormalizeLoop n (shiftRange (readIntoCode s)) else s

/-- `DecNormalize()` (R165). -/
def decNormalize (s : State) : State := decNormalizeLoop normBound s

/-- `sum = LOW + x; CARRY <- CARRY | sum[32]; LOW <- sum[31:0]` (R169, R170). -/
def addToLow (x : Nat) (s : State) : State :=
  let sum := s.rc.low.toNat + x
  { s with rc := { s.rc with carry := s.rc.carry || decide (2 ^ 32 ≤ sum), low := BitVec.ofNat 32 sum } }

/-- `RANGE <- x`. -/
def setRange (x : Nat) (s : State) : State := { s with rc := { s.rc with range := BitVec.ofNat 32 x } }

/-- The interval update of a modelled bit (R169). -/
def encInterval (p : Nat) (bit : Bool) (s : State) : State :=
  let mid := partition s.rc.range p
  if bit then setRange (s.rc.range.toNat - mid) (addToLow mid s) else setRange mid s

/-- A modelled bit: interval update, then normalisation (R169). -/
def encBit (p : Nat) (bit : Bool) (s : State) : State := encNormalize (encInterval p bit s)

/-- The interval update of a direct bit (R170): the range is halved first. -/
def encDirectInterval (bit : Bool) (s : State) : State :=
  let half := s.rc.range.toNat / 2
  if bit then addToLow half (setRange half s) else setRange half s

/-- A direct bit (R170). -/
def encDirectBit (bit : Bool) (s : State) : State := encNormalize (encDirectInterval bit s)

/-- The interval test and update of a modelled bit (R171). -/
def decInterval (p : Nat) (s : State) : Bool × State :=
  let mid := partition s.rc.range p
  if s.rc.code.toNat < mid then (false, setRange mid s)
  else
    (true, { s with rc := { s.rc with
      code := BitVec.ofNat 32 (s.rc.code.toNat - mid)
      range := BitVec.ofNat 32 (s.rc.range.toNat - mid) } })

/-- Decode a modelled bit (R171). -/
def decBit (p : Nat) (s : State) : Bool × State :=
  let r := decInterval p s
  (r.1, decNormalize r.2)

/-- The interval test and update of a direct bit (R172): the range is halved first. -/
def decDirectInterval (s : State) : Bool × State :=
  let half := s.rc.range.toNat / 2
  if s.rc.code.toNat < half then (false, setRange half s)
  else
    (true, { s with rc := { s.rc with
      code := BitVec.ofNat 32 (s.rc.code.toNat - half)
      range := BitVec.ofNat 32 half } })

/-- Decode a direct bit (R172). -/
def decDirectBit (s : State) : Bool × State :=
  let r := decDirectInterval s
  (r.1, decNormalize r.2)

/-- `RES <- bit`. -/
def setResBit (s : State) (bit : Bool) : State := setRes s (zext (BitVec.ofBool bit))

/-- The coder registers both init commands start from (R167, R168). -/
def freshCoder (c : Coder) : Coder :=
  { c with
    low := 0#32, range := 0xFFFFFFFF#32, code := 0#32, carry := false, held := 0#8, heldValid := false, ffRun := 0 }

/-- RC_INIT_ENC (R167). -/
def execRcInitEnc (s : State) : Result :=
  unlessFaulted s <|
  .next { s with rc := { freshCoder s.rc with snkCount := 0#32 }, mode := .enc }

/-- RC_INIT_DEC (R168): the counters are zeroed before the four reads. -/
def execRcInitDec (s : State) : Result :=
  unlessFaulted s <|
  .next { readIntoCodeRun Config.preloadLength
      { s with rc := { freshCoder s.rc with srcCount := 0#32, srcEof := false } } with mode := .dec }

/-- RC_ENC (R169). -/
def execRcEnc (p : BitVec 13) (bit : Bool) (s : State) : Result :=
  unlessFaulted s <|
  requireMode .enc (.rcEnc p bit) s <|
  require (probLegal p) .badOperand (.rcEnc p bit) s <|
  .next (encBit p.toNat bit s)

/-- RC_ENC_DIRECT (R170). -/
def execRcEncDirect (bit : Bool) (s : State) : Result :=
  unlessFaulted s <|
  requireMode .enc (.rcEncDirect bit) s <|
  .next (encDirectBit bit s)

/-- RC_DEC (R171). -/
def execRcDec (p : BitVec 13) (s : State) : Result :=
  unlessFaulted s <|
  requireMode .dec (.rcDec p) s <|
  require (probLegal p) .badOperand (.rcDec p) s <|
  .next (setResBit (decBit p.toNat s).2 (decBit p.toNat s).1)

/-- RC_DEC_DIRECT (R172). -/
def execRcDecDirect (s : State) : Result :=
  unlessFaulted s <|
  requireMode .dec .rcDecDirect s <|
  .next (setResBit (decDirectBit s).2 (decDirectBit s).1)

/-- RC_FLUSH (R173). -/
def execRcFlush (s : State) : Result :=
  unlessFaulted s <|
  requireMode .enc .rcFlush s <|
  .next { drain (shiftOutRun Config.flushLength s) with mode := .flushed }

end Sys2Proof.Machine
end

