-- ==== Sys2Proof/Machine/Codec.lean ====
section
/-! DEFINITION. Residual and frame coding: the CX_ commands (spec/45_codec.md). -/
namespace Sys2Proof.Machine

/-- The point-of-use patch `if p = 0: p = 1` (R204): the value given to the coder, not the entry. -/
def patchedProb (p : Prob) : Nat := if p.toNat = 0 then 1 else p.toNat

/-- Bits 15 down to 3 of a residual, the modelled ones, first coded first (R196). -/
def modelledBits (r : Sample) : List Bool :=
  (List.range Config.nonNoiseBits).map (fun i => r.getLsbD (15 - i))

/-- Bits 2 down to 0 of a residual, the direct ones, first coded first (R196). -/
def directBits (r : Sample) : List Bool :=
  (List.range Config.noiseBits).map (fun i => r.getLsbD (2 - i))

/-- One modelled step of the walk at `ctx` (R196): code the bit with the entry's probability, then update
the entry. -/
def encModelStep (c : Channel) (ctx : Nat) (bit : Bool) (s : State) : State :=
  let idx := contextIndex c ctx
  mtUpdate (encBit (patchedProb (mtRead s idx)) bit s) idx bit

/-- The context walk of the encoder (R196). -/
def encWalk (c : Channel) : List Bool → Nat → State → State
  | [], _, s => s
  | bit :: bits, ctx, s => encWalk c bits (2 * ctx + bit.toNat) (encModelStep c ctx bit s)

/-- Direct bits in order (R196). -/
def encDirectBits : List Bool → State → State
  | [], s => s
  | bit :: bits, s => encDirectBits bits (encDirectBit bit s)

/-- `EncResidual(c, r)` (R196). -/
def encResidual (c : Channel) (r : Sample) (s : State) : State :=
  encDirectBits (directBits r) (encWalk c (modelledBits r) 1 s)

/-- One modelled step of the decoder's walk at `ctx` (R197). -/
def decModelStep (c : Channel) (ctx : Nat) (s : State) : Bool × State :=
  let idx := contextIndex c ctx
  let r := decInterval (patchedProb (mtRead s idx)) s
  (r.1, decNormalize (mtUpdate r.2 idx r.1))

/-- `n` modelled steps of the decoder's walk: the context reached and the state (R197). -/
def decWalk (c : Channel) : Nat → Nat → State → Nat × State
  | 0, ctx, s => (ctx, s)
  | n + 1, ctx, s => decWalk c n (2 * ctx + (decModelStep c ctx s).1.toNat) (decModelStep c ctx s).2

/-- `n` direct bits appended to the context (R197). -/
def decDirectBits : Nat → Nat → State → Nat × State
  | 0, ctx, s => (ctx, s)
  | n + 1, ctx, s => decDirectBits n (2 * ctx + (decDirectBit s).1.toNat) (decDirectBit s).2

/-- `DecResidual(c)` (R197): `ctx XOR 0x10000` strips the leading marker. -/
def decResidual (c : Channel) (s : State) : Sample × State :=
  let walk := decWalk c Config.nonNoiseBits 1 s
  let all := decDirectBits Config.noiseBits walk.1 walk.2
  (BitVec.ofNat 16 (all.1 ^^^ 0x10000), all.2)

/-- Shift both histories (R200, R201). -/
def shiftBoth (a b : Sample) (s : State) : State :=
  { s with histA := shiftHistory s.histA a, histB := shiftHistory s.histB b }

/-- CX_ENC_RES (R198). -/
def execCxEncRes (c : Channel) (v : BitVec 16) (s : State) : Result :=
  unlessFaulted s <|
  requireMode .enc (.cxEncRes c v) s <|
  requireModel (.cxEncRes c v) s <|
  .next (encResidual c v s)

/-- CX_DEC_RES (R199). -/
def execCxDecRes (c : Channel) (s : State) : Result :=
  unlessFaulted s <|
  requireMode .dec (.cxDecRes c) s <|
  requireModel (.cxDecRes c) s <|
  .next (setRes (decResidual c s).2 (zext (decResidual c s).1))

/-- CX_ENC_FRAME (R200): both predictions are taken before either history moves. -/
def execCxEncFrame (a b : BitVec 16) (s : State) : Result :=
  unlessFaulted s <|
  requireMode .enc (.cxEncFrame a b) s <|
  requireModel (.cxEncFrame a b) s <|
  let ra := a - pred s.histA
  let rb := b - pred s.histB
  .next (setRes (shiftBoth a b (encResidual .b rb (encResidual .a ra s))) (packPair ra rb))

/-- CX_DEC_FRAME (R201). -/
def execCxDecFrame (s : State) : Result :=
  unlessFaulted s <|
  requireMode .dec .cxDecFrame s <|
  requireModel .cxDecFrame s <|
  let ra := decResidual .a s
  let rb := decResidual .b ra.2
  let a := pred s.histA + ra.1
  let b := pred s.histB + rb.1
  .next (setRes (shiftBoth a b rb.2) (packPair a b))

end Sys2Proof.Machine
end

