-- ==== Sys2Proof/Machine/CyclicBuffer.lean ====
section
/-! DEFINITION. The cyclic-buffer commands CB_ (spec/40_cyclic_buffer.md). -/
namespace Sys2Proof.Machine

/-- The allocation gate (R110). -/
def requireAlloc (i : Instr) (s : State) (k : Result) : Result :=
  require s.ring.alloc .cbUnallocated i s k

/-- `data[CB_POS & CB_MASK] <- v; CB_POS <- (CB_POS + 1) mod 2^32` (R112; also the end of R131). -/
def pushElement (r : Ring) (v : Sample) : Ring :=
  { stWrite r (maskedIndex r r.pos) v with pos := r.pos + 1#32 }

/-- The buffer right after CB_RESIZE: `n` elements of ring, `pad` of padding on each side, all 0, an empty
deque (R111). -/
def freshRing (n : BitVec 24) (pad : BitVec 8) : Ring :=
  { alloc := true, n := n.setWidth 17, pad := pad, mask := n.setWidth 32 - 1#32, pos := 0#32, st := [],
    frontPos := 0#32, dqSize := 0#17 }

/-- The released buffer; the cursors CB_POS and DQ_FRONT_POS keep their values (R116). -/
def releasedRing (r : Ring) : Ring :=
  { r with alloc := false, n := 0#17, pad := 0#8, mask := 0xFFFFFFFF#32, st := [], dqSize := 0#17 }

/-- CB_RESIZE (R111). -/
def execCbResize (n : BitVec 24) (pad : BitVec 8) (s : State) : Result :=
  unlessFaulted s <|
  require (sizeLegal n) .badConfiguration (.cbResize n pad) s <|
  .next { s with ring := freshRing n pad }

/-- CB_PUSH (R112). -/
def execCbPush (v : BitVec 16) (s : State) : Result :=
  unlessFaulted s <|
  requireAlloc (.cbPush v) s <|
  withElement s.ring (maskedIndex s.ring s.ring.pos) <|
  .next { s with ring := pushElement s.ring v }

/-- CB_GET (R113). -/
def execCbGet (off : BitVec 32) (s : State) : Result :=
  unlessFaulted s <|
  requireAlloc (.cbGet off) s <|
  withElement s.ring (maskedIndex s.ring off) <|
  .next (setRes s (zext (stRead s.ring (maskedIndex s.ring off))))

/-- CB_GETU (R114). -/
def execCbGetu (off : BitVec 32) (s : State) : Result :=
  unlessFaulted s <|
  requireAlloc (.cbGetu off) s <|
  require (unmaskedLegal s.ring off) .cbBounds (.cbGetu off) s <|
  .next (setRes s (zext (stRead s.ring (unmaskedIndex s.ring off))))

/-- CB_FILL (R115): every element of ST, padding included. -/
def execCbFill (v : BitVec 16) (s : State) : Result :=
  unlessFaulted s <|
  requireAlloc (.cbFill v) s <|
  .next { s with ring := { s.ring with st := Memory.fill stDefault s.ring.cells v } }

/-- CB_RELEASE (R116). -/
def execCbRelease (s : State) : Result :=
  unlessFaulted s <|
  .next { s with ring := releasedRing s.ring }

/-- CB_PREV (R117). -/
def execCbPrev (p k : BitVec 16) (s : State) : Result :=
  unlessFaulted s <|
  .next (setRes s ((zext p - zext k) &&& s.ring.mask))

/-- CB_NEXT (R118). -/
def execCbNext (p k : BitVec 16) (s : State) : Result :=
  unlessFaulted s <|
  .next (setRes s ((zext p + zext k) &&& s.ring.mask))

/-- CB_COPY_S2E (R119): `data[CB_N + i] <- data[i]` for i = 0 .. k-1, ascending. -/
def execCbCopyS2e (k : BitVec 24) (s : State) : Result :=
  unlessFaulted s <|
  requireAlloc (.cbCopyS2e k) s <|
  require (copyS2eLegal s.ring k) .cbBounds (.cbCopyS2e k) s <|
  .next { s with ring := { s.ring with
    st := Memory.copyUp stDefault s.ring.st (s.ring.pad.toNat + s.ring.n.toNat) s.ring.pad.toNat k.toNat } }

/-- CB_COPY_E2S (R120): `ST[i] <- ST[CB_N + i]` for i = 0 .. k-1, ascending; storage indices, as
spec/90_conflicts.md C2 settles. -/
def execCbCopyE2s (k : BitVec 24) (s : State) : Result :=
  unlessFaulted s <|
  requireAlloc (.cbCopyE2s k) s <|
  require (copyE2sLegal s.ring k) .cbBounds (.cbCopyE2s k) s <|
  .next { s with ring := { s.ring with st := Memory.copyUp stDefault s.ring.st 0 s.ring.n.toNat k.toNat } }

end Sys2Proof.Machine
end

