-- ==== Sys2Proof/Machine/Deque.lean ====
section
/-! DEFINITION. The cyclic-deque commands DQ_ (spec/41_cyclic_deque.md), a second view of the one storage (R130). -/
namespace Sys2Proof.Machine

/-- DQ_PUSH_BACK (R131). -/
def execDqPushBack (v : BitVec 16) (s : State) : Result :=
  unlessFaulted s <|
  requireAlloc (.dqPushBack v) s <|
  require (s.ring.dqSize != s.ring.n) .dqOverflow (.dqPushBack v) s <|
  withElement s.ring (maskedIndex s.ring s.ring.pos) <|
  .next { s with ring := { pushElement s.ring v with dqSize := s.ring.dqSize + 1#17 } }

/-- DQ_POP_FRONT (R132). It touches no storage, so it has no allocation gate. -/
def execDqPopFront (k : BitVec 24) (s : State) : Result :=
  unlessFaulted s <|
  require (decide (k.toNat ≤ s.ring.dqSize.toNat)) .dqUnderflow (.dqPopFront k) s <|
  .next { s with ring := { s.ring with
    frontPos := s.ring.frontPos + k.setWidth 32
    dqSize := s.ring.dqSize - k.setWidth 17 } }

/-- DQ_FRONT (R133). -/
def execDqFront (s : State) : Result :=
  unlessFaulted s <|
  requireAlloc .dqFront s <|
  withElement s.ring (dequeIndex s.ring 0#32) <|
  .next (setRes s (zext (stRead s.ring (dequeIndex s.ring 0#32))))

/-- DQ_GET (R134). -/
def execDqGet (off : BitVec 32) (s : State) : Result :=
  unlessFaulted s <|
  requireAlloc (.dqGet off) s <|
  withElement s.ring (dequeIndex s.ring off) <|
  .next (setRes s (zext (stRead s.ring (dequeIndex s.ring off))))

/-- DQ_CAPACITY (R135). -/
def execDqCapacity (s : State) : Result :=
  unlessFaulted s <|
  .next (setRes s (s.ring.mask + 1#32))

/-- DQ_SIZE (R136). -/
def execDqSize (s : State) : Result :=
  unlessFaulted s <|
  .next (setRes s (zext s.ring.dqSize))

/-- DQ_FULL (R137). -/
def execDqFull (s : State) : Result :=
  unlessFaulted s <|
  .next (setRes s (zext (BitVec.ofBool (dqFullFlag s.ring))))

end Sys2Proof.Machine
end

