-- ==== Sys2Proof/Machine/System.lean ====
section
/-! DEFINITION. The system commands RD_REG, SET_OPT, RESET (spec/46_system.md). -/
namespace Sys2Proof.Machine

/-- RD_REG (R215): a listed register is read in every state, faulted or not (spec/60_exceptions.md R240);
an unlisted number raises BadOperand, or is refused by a faulted block. -/
def execRdReg (n : BitVec 8) (s : State) : Result :=
  match readReg s n with
  | some v => .next (setRes s v)
  | none => unlessFaulted s (.next (raise .badOperand (.rdReg n) s))

/-- SET_OPT (R216). -/
def execSetOpt (val : BitVec 32) (s : State) : Result :=
  unlessFaulted s <|
  .next { s with optVar := val }

/-- RESET (R217): executes in every state, faulted or not. -/
def execReset (s : State) : Result :=
  .next (resetBlock s)

end Sys2Proof.Machine
end

