-- ==== Sys2Proof/Machine/Dispatch.lean ====
section
/-! DEFINITION. Every command's arm: one direct call of its meaning (spec/30_encoding.md R93). -/
namespace Sys2Proof.Machine

def exec (i : Instr) (s : State) : Host.Outcome State Fault Refusal :=
  match i with
  | .cbResize n pad => Sys2Proof.Machine.execCbResize n pad s
  | .cbPush v => Sys2Proof.Machine.execCbPush v s
  | .cbGet off => Sys2Proof.Machine.execCbGet off s
  | .cbGetu off => Sys2Proof.Machine.execCbGetu off s
  | .cbFill v => Sys2Proof.Machine.execCbFill v s
  | .cbRelease => Sys2Proof.Machine.execCbRelease s
  | .cbPrev p k => Sys2Proof.Machine.execCbPrev p k s
  | .cbNext p k => Sys2Proof.Machine.execCbNext p k s
  | .cbCopyS2e k => Sys2Proof.Machine.execCbCopyS2e k s
  | .cbCopyE2s k => Sys2Proof.Machine.execCbCopyE2s k s
  | .dqPushBack v => Sys2Proof.Machine.execDqPushBack v s
  | .dqPopFront k => Sys2Proof.Machine.execDqPopFront k s
  | .dqFront => Sys2Proof.Machine.execDqFront s
  | .dqGet off => Sys2Proof.Machine.execDqGet off s
  | .dqCapacity => Sys2Proof.Machine.execDqCapacity s
  | .dqSize => Sys2Proof.Machine.execDqSize s
  | .dqFull => Sys2Proof.Machine.execDqFull s
  | .mtInit => Sys2Proof.Machine.execMtInit s
  | .bmInit idx => Sys2Proof.Machine.execBmInit idx s
  | .bmGetp idx => Sys2Proof.Machine.execBmGetp idx s
  | .bmUpdate idx bit => Sys2Proof.Machine.execBmUpdate idx bit s
  | .rcInitEnc => Sys2Proof.Machine.execRcInitEnc s
  | .rcInitDec => Sys2Proof.Machine.execRcInitDec s
  | .rcEnc p bit => Sys2Proof.Machine.execRcEnc p bit s
  | .rcEncDirect bit => Sys2Proof.Machine.execRcEncDirect bit s
  | .rcDec p => Sys2Proof.Machine.execRcDec p s
  | .rcDecDirect => Sys2Proof.Machine.execRcDecDirect s
  | .rcFlush => Sys2Proof.Machine.execRcFlush s
  | .prInit => Sys2Proof.Machine.execPrInit s
  | .prPredict c => Sys2Proof.Machine.execPrPredict c s
  | .prResidual c v => Sys2Proof.Machine.execPrResidual c v s
  | .prRecon c v => Sys2Proof.Machine.execPrRecon c v s
  | .prShift c v => Sys2Proof.Machine.execPrShift c v s
  | .cxEncRes c v => Sys2Proof.Machine.execCxEncRes c v s
  | .cxDecRes c => Sys2Proof.Machine.execCxDecRes c s
  | .cxEncFrame a b => Sys2Proof.Machine.execCxEncFrame a b s
  | .cxDecFrame => Sys2Proof.Machine.execCxDecFrame s
  | .rdReg n => Sys2Proof.Machine.execRdReg n s
  | .setOpt val => Sys2Proof.Machine.execSetOpt val s
  | .reset => Sys2Proof.Machine.execReset s

end Sys2Proof.Machine
end

