-- ==== Sys2Proof/Machine/Step.lean ====
section
/-! DEFINITION. One step of the block: one input of the command port (spec/00_scope.md R10; log 1). -/
namespace Sys2Proof.Machine

/-- Execute one command word: decode, then the command's meaning, or IllegalCommand (spec/30_encoding.md R90, R94). -/
def runWord (w : CmdWord) (s : State) : Result :=
  match decode w with
  | .ok i => exec i s
  | .error _ => illegalCommand w s

/-- One step: execute the command the host presents and return its response (R10, spec/30_encoding.md R98),
or take the hardware reset input (spec/70_reset_and_hazards.md R255). With nothing presented the block waits
and nothing changes (R256, spec/60_exceptions.md R237). -/
def step (s : State) : Host.Outcome State Fault Refusal :=
  match s.io.inputs with
  | [] => .next s
  | .command w :: _ => respondTo (runWord w (takeInput s))
  | .resetInput :: _ => .next (resetBlock (takeInput s))
  | .resetDuring w :: _ => abandonTo (takeInput s) (runWord w (takeInput s))

/-- `s` with the command word `w` presented as the next input of the command port: the block fetches nothing
(spec/10_state.md R21), so this stands for the host presenting the command (log 1). -/
def State.withFetchWord (s : State) (nbits w : Nat) : State :=
  presentFirst (.command (BitVec.ofNat 40 (w % 2 ^ nbits))) s

end Sys2Proof.Machine
end

