-- ==== Sys2Proof/Machine/Procedures.lean ====
section
/-! DEFINITION. Pseudo-instructions (spec/30_encoding.md R97) and the host's stream procedures
(spec/45_codec.md R205, R206), as the commands they expand to. They have no encoding of their own. -/
namespace Sys2Proof.Machine

/-- Execute commands one after another. -/
def execAll : List Instr → State → Result
  | [], s => .next s
  | i :: is, s =>
    match exec i s with
    | .next t => execAll is t
    | .fault f => .fault f
    | .refused r => .refused r

/-- The state a result goes on with, if it does. -/
def nextOf : Result → Option State
  | .next t => some t
  | .fault _ => none
  | .refused _ => none

/-- Execute commands one after another and collect their responses; `none` if one of them stops the model. -/
def execCollect : List Instr → State → Option (List Response × State)
  | [], s => some ([], s)
  | i :: is, s =>
    (nextOf (exec i s)).bind fun t => (execCollect is t).map fun r => (responseOf t :: r.1, r.2)

/-- The host presents commands at the command port, in order, after those already presented. -/
def presentCommands (is : List Instr) (s : State) : State :=
  { s with io := { s.io with inputs := s.io.inputs ++ is.map (fun i => .command (encode i)) } }

/-- PUSHN (spec/40_cyclic_buffer.md R121): refused for more values than the ring holds. -/
def pushN (ringSize : Nat) (vs : List Sample) : Option (List Instr) :=
  if vs.length ≤ ringSize then some (vs.map .cbPush) else none

/-- CODEC_INIT_ENC (R97). -/
def codecInitEnc : List Instr := [.mtInit, .prInit, .rcInitEnc]

/-- CODEC_INIT_DEC (R97). -/
def codecInitDec : List Instr := [.mtInit, .prInit, .rcInitDec]

/-- A little-endian sample (spec/20_memory.md R64). -/
def sampleOf (lo hi : Octet) : Sample := hi ++ lo

/-- The whole frames of an octet sequence; a short tail is not coded (R205). -/
def framesOf : List Octet → List (Sample × Sample)
  | o0 :: o1 :: o2 :: o3 :: rest => (sampleOf o0 o1, sampleOf o2 o3) :: framesOf rest
  | _ => []

/-- COMPRESS S (R205). A function only: the assembler has no source notation for it (log 16). -/
def compress (octets : List Octet) : List Instr :=
  codecInitEnc ++ (framesOf octets).map (fun f => .cxEncFrame f.1 f.2) ++ [.rcFlush]

/-- DECOMPRESS L (R206): `ceil(L / 4)` frames. A function only: the assembler has no source notation for it
(log 16). -/
def decompress (len : Nat) : List Instr :=
  codecInitDec ++ List.replicate ((len + 3) / 4) .cxDecFrame

/-- The modelled bits of a residual with the split commands: RC_ENC with the entry's probability, then
BM_UPDATE (spec/45_codec.md R196; spec/70_reset_and_hazards.md R263). -/
def splitEncWalk (c : Channel) : List Bool → Nat → State → Option State
  | [], _, s => some s
  | bit :: bits, ctx, s =>
    let idx := BitVec.ofNat 16 (contextIndex c ctx)
    (nextOf (exec (.rcEnc (mtRead s idx.toNat) bit) s)).bind fun t =>
      (nextOf (exec (.bmUpdate idx bit) t)).bind fun u => splitEncWalk c bits (2 * ctx + bit.toNat) u

/-- Direct bits with RC_ENC_DIRECT. -/
def splitEncDirect : List Bool → State → Option State
  | [], s => some s
  | bit :: bits, s => (nextOf (exec (.rcEncDirect bit) s)).bind fun t => splitEncDirect bits t

/-- A residual with the split commands (R196, R263). -/
def splitEncResidual (c : Channel) (r : Sample) (s : State) : Option State :=
  (splitEncWalk c (modelledBits r) 1 s).bind fun t => splitEncDirect (directBits r) t

/-- The modelled bits of a residual decoded with RC_DEC and BM_UPDATE (R197, R263): the context reached. -/
def splitDecWalk (c : Channel) : Nat → Nat → State → Option (Nat × State)
  | 0, ctx, s => some (ctx, s)
  | n + 1, ctx, s =>
    let idx := BitVec.ofNat 16 (contextIndex c ctx)
    (nextOf (exec (.rcDec (mtRead s idx.toNat)) s)).bind fun t =>
      (nextOf (exec (.bmUpdate idx (t.res == 1#32)) t)).bind fun u =>
        splitDecWalk c n (2 * ctx + t.res.toNat) u

/-- Direct bits decoded with RC_DEC_DIRECT. -/
def splitDecDirect : Nat → Nat → State → Option (Nat × State)
  | 0, ctx, s => some (ctx, s)
  | n + 1, ctx, s =>
    (nextOf (exec .rcDecDirect s)).bind fun t => splitDecDirect n (2 * ctx + t.res.toNat) t

/-- A residual decoded with the split commands (R197, R263): the residual is the context less its marker. -/
def splitDecResidual (c : Channel) (s : State) : Option (Nat × State) :=
  (splitDecWalk c Config.nonNoiseBits 1 s).bind fun r =>
    (splitDecDirect Config.noiseBits r.1 r.2).map fun q => (q.1 - 0x10000, q.2)

/-- The four octets of a frame in RES, `w[7:0]` first (R206). -/
def frameOctets (w : BitVec 32) : List Octet :=
  [w.extractLsb' 0 8, w.extractLsb' 8 8, w.extractLsb' 16 8, w.extractLsb' 24 8]

/-- What DECOMPRESS L returns, from the responses to its commands (R206): the octets of each CX_DEC_FRAME
response, at most L of them. -/
def decompressOutput (len : Nat) (responses : List Response) : List Octet :=
  ((responses.drop codecInitDec.length).flatMap (fun r => frameOctets r.res)).take len

end Sys2Proof.Machine
end

