-- ==== Sys2Proof/Safety.lean ====
section
/-! DEFINITION. What counts as a safe state and a safe step: the invariants the spec gives the machine, its fault
table, and the terms the statements use. -/
namespace Sys2Proof.Machine

/-- The step answers a next state: neither a fault nor a refusal of the model. -/
def Completes (r : Result) : Prop := ∃ t, r = .next t

/-- Every entry of the model table lies in [511, 3585] (spec/42_bit_model.md R150). An unlisted entry is
2048, which does; while MT_VALID = 0 the spec says nothing of the entries, and the bound is the model's
choice (log 4). -/
abbrev TableBounded (m : Memory 13) : Prop := ∀ c ∈ m, 511 ≤ c.2.toNat ∧ c.2.toNat ≤ 3585

/-- The model table: canonical form over 65536 entries, every entry in range. -/
abbrev TableInv (m : Memory 13) : Prop := Memory.wf mtDefault Config.tableSize m = true ∧ TableBounded m

/-- The buffer while CB_ALLOC = 1 (spec/10_state.md R36 to R38). -/
abbrev AllocatedInv (r : Ring) : Prop :=
  (∃ k, k < 17 ∧ r.n.toNat = 2 ^ k) ∧ r.mask.toNat = r.n.toNat - 1 ∧ r.dqSize.toNat ≤ r.n.toNat ∧
    Memory.wf stDefault r.cells r.st = true

/-- The buffer while CB_ALLOC = 0 (spec/10_state.md R36 to R38). -/
abbrev ReleasedInv (r : Ring) : Prop :=
  r.n = 0#17 ∧ r.pad = 0#8 ∧ r.mask = 0xFFFFFFFF#32 ∧ r.dqSize = 0#17 ∧ r.st = []

/-- The buffer in either state. -/
abbrev RingInv (r : Ring) : Prop :=
  (r.alloc = true → AllocatedInv r) ∧ (r.alloc = false → ReleasedInv r)

/-- The carry invariants (spec/43_range_coder.md R175 (a), (b), (c), (d)). -/
abbrev CarryInv (c : Coder) : Prop :=
  c.carry.toNat * 2 ^ 32 + c.low.toNat + c.range.toNat ≤ 2 ^ 33 - 512 ∧
    (c.carry = true → c.low.toNat + c.range.toNat ≤ 2 ^ 32) ∧
    (c.carry = true → c.heldValid = true ∧ c.held.toNat ≤ 0xFE) ∧
    (c.heldValid = false ∨ c.held.toNat = 0xFF → c.low.toNat + c.range.toNat ≤ 2 ^ 32)

/-- The carry pipeline is empty and LOW is 0: so it is outside MODE = ENC (spec/10_state.md R27, R44;
spec/43_range_coder.md R168, R173). -/
abbrev PipelineEmpty (c : Coder) : Prop :=
  c.low = 0#32 ∧ c.carry = false ∧ c.held = 0#8 ∧ c.heldValid = false ∧ c.ffRun = 0

/-- RANGE never leaves its bounds (spec/43_range_coder.md R166 (a), (e)). -/
abbrev RangeNormal (c : Coder) : Prop := Config.normThreshold ≤ c.range.toNat

/-- The coder registers in each MODE. -/
abbrev CoderInv (m : Mode) (c : Coder) : Prop :=
  RangeNormal c ∧ (m = .enc → CarryInv c) ∧ (m ≠ .enc → PipelineEmpty c) ∧ (m ≠ .dec → c.code = 0#32)

/-- FAULT holds a code of spec/60_exceptions.md R226, and with no fault the latch is clear (R22). -/
abbrev LatchInv (l : FaultLatch) : Prop :=
  l.fault.toNat ≤ 9 ∧ (l.fault = 0#8 → l.faultOp = 0#8 ∧ l.faultArg = 0#32)

/-- The machine invariant. -/
abbrev Inv (s : State) : Prop :=
  LatchInv s.latch ∧ CoderInv s.mode s.rc ∧ TableInv s.mt ∧ RingInv s.ring

/-- The live elements of the deque, front first (spec/41_cyclic_deque.md R138): `DQ_GET 0` to
`DQ_GET (DQ_SIZE - 1)`. -/
def liveElements (r : Ring) : List Sample :=
  (List.range r.dqSize.toNat).map (fun j => stRead r (dequeIndex r (BitVec.ofNat 32 j)))

/-- The deque invariant (spec/41_cyclic_deque.md R139). -/
abbrev DequeInv (r : Ring) : Prop :=
  r.frontPos + r.dqSize.setWidth 32 = r.pos ∧ r.dqSize.toNat ≤ r.n.toNat

/-! ## The fault table (spec/60_exceptions.md R226, R238), written from the table and not from the meanings -/

/-- The MODE an encoding or decoding command needs (R226, code 3). -/
def neededMode : Instr → Option Mode
  | .rcEnc _ _ | .rcEncDirect _ | .rcFlush | .cxEncRes _ _ | .cxEncFrame _ _ => some .enc
  | .rcDec _ | .rcDecDirect | .cxDecRes _ | .cxDecFrame => some .dec
  | _ => none

/-- The command reads or writes a model-table entry (R226, code 4). -/
def needsModel : Instr → Bool
  | .bmInit _ | .bmGetp _ | .bmUpdate _ _ | .cxEncRes _ _ | .cxDecRes _ | .cxEncFrame _ _ | .cxDecFrame => true
  | _ => false

/-- The command touches ST (R226, code 6). -/
def needsStorage : Instr → Bool
  | .cbPush _ | .cbGet _ | .cbGetu _ | .cbFill _ | .cbCopyS2e _ | .cbCopyE2s _ | .dqPushBack _ | .dqFront
  | .dqGet _ => true
  | _ => false

/-- The register numbers of spec/10_state.md R41. -/
def listedRegisters : List (BitVec 8) :=
  [0x00#8, 0x01#8, 0x02#8, 0x03#8, 0x04#8, 0x05#8, 0x06#8, 0x08#8, 0x09#8, 0x0A#8, 0x0B#8, 0x0C#8, 0x0D#8,
   0x0E#8, 0x10#8, 0x11#8, 0x12#8, 0x13#8, 0x18#8, 0x19#8, 0x1A#8, 0x1B#8, 0x1C#8, 0x1D#8]

/-- The command's own operand check and the fault it raises (R226, codes 2, 5, 7, 8, 9). -/
def operandFault (s : State) : Instr → Option FaultCode
  | .cbResize n _ => if ∃ k, k < 17 ∧ n.toNat = 2 ^ k then none else some .badConfiguration
  | .rcEnc p _ => if 1 ≤ p.toNat ∧ p.toNat ≤ 4095 then none else some .badOperand
  | .rcDec p => if 1 ≤ p.toNat ∧ p.toNat ≤ 4095 then none else some .badOperand
  | .rdReg n => if n ∈ listedRegisters then none else some .badOperand
  | .cbGetu off =>
    if -(s.ring.pad.toNat : Int) ≤ off.toInt ∧ off.toInt < (s.ring.n.toNat : Int) + s.ring.pad.toNat then none
    else some .cbBounds
  | .cbCopyS2e k => if k.toNat ≤ s.ring.pad.toNat then none else some .cbBounds
  | .cbCopyE2s k => if k.toNat ≤ 2 * s.ring.pad.toNat then none else some .cbBounds
  | .dqPushBack _ => if s.ring.dqSize = s.ring.n then some .dqOverflow else none
  | .dqPopFront k => if k.toNat ≤ s.ring.dqSize.toNat then none else some .dqUnderflow
  | _ => none

/-- The fault a command reports in a block that is not faulted: the first that applies in the order of R238,
items 4 to 7. -/
def firstFault (i : Instr) (s : State) : Option FaultCode :=
  if (neededMode i).any (fun m => m != s.mode) then some .badMode
  else if needsModel i && !s.mtValid then some .modelUninit
  else if needsStorage i && !s.ring.alloc then some .cbUnallocated
  else operandFault s i

/-! ## Exact values of the range coder (spec/43_range_coder.md R174) -/

/-- An octet sequence read as one big-endian number. -/
def bigEndian : List Octet → Nat
  | [] => 0
  | o :: os => o.toNat * 256 ^ os.length + bigEndian os

/-- The octets kept back: HELD if valid, then the 0xFF run. -/
def keptOctets (c : Coder) : List Octet :=
  (if c.heldValid then [c.held] else []) ++ List.replicate c.ffRun 0xFF#8

/-- `X = (E + CARRY) * 2^32 + LOW`, with E the octets written so far followed by those kept back (R174). -/
def exactLow (s : State) : Nat :=
  (bigEndian (s.io.sink ++ keptOctets s.rc) + s.rc.carry.toNat) * 2 ^ 32 + s.rc.low.toNat

/-! ## Sequences of coding steps (spec/43_range_coder.md R176) -/

/-- One coding step: a bit with a probability, or a direct bit. -/
inductive CodeStep where
  | modelled (p : Prob) (bit : Bool)
  | direct (bit : Bool)
deriving DecidableEq, Repr

/-- The probability is one the coder accepts (spec/60_exceptions.md R231). -/
def CodeStep.legal : CodeStep → Prop
  | .modelled p _ => 1 ≤ p.toNat ∧ p.toNat ≤ 4095
  | .direct _ => True

/-- The bit of a step. -/
def stepBit : CodeStep → Bool
  | .modelled _ bit => bit
  | .direct bit => bit

/-- The encoding command of a step. -/
def encCommand : CodeStep → Instr
  | .modelled p bit => .rcEnc p bit
  | .direct bit => .rcEncDirect bit

/-- The decoding command of a step. -/
def decCommand : CodeStep → Instr
  | .modelled p _ => .rcDec p
  | .direct _ => .rcDecDirect

/-! ## The deque as a queue (spec/41_cyclic_deque.md R138) -/

/-- The command is one of DQ_. -/
def isDequeCommand : Instr → Bool
  | .dqPushBack _ | .dqPopFront _ | .dqFront | .dqGet _ | .dqCapacity | .dqSize | .dqFull => true
  | _ => false

/-- What a DQ_ command does to a first-in first-out queue. -/
def queueStep (q : List Sample) : Instr → List Sample
  | .dqPushBack v => q ++ [v]
  | .dqPopFront k => q.drop k.toNat
  | _ => q

end Sys2Proof.Machine
end

