-- ==== Sys2Proof/Certificates/Slice0/Obligations.lean ====
section
/-! DEFINITION. The statements for the provers. Each says which rule of spec/ it formalises; a statement that rests
on a choice of the model names the log entry. A statement about one command also says its 40-bit word, written from
the operand layout of 30_encoding R91 and the opcode of R93. -/

open Sys2Proof Sys2Proof.Machine

/-! ## Encoding -/

/-- Decoding the encoding of any command gives it back, with every operand at every value of its field
(30_encoding R90 to R93). -/
def Obligations.DecodeEncodeRoundTrip : Prop :=
  ∀ i : Instr, decode (encode i) = .ok i

/-- A word the decoder accepts is the encoding of the command it reads: no bit of a word is ignored
(30_encoding R91, R94). -/
def Obligations.EncodeDecodeRoundTrip : Prop :=
  ∀ (w : CmdWord) (i : Instr), decode w = .ok i → encode i = w

/-- No word matches two rows of the opcode table; the decoder accepts exactly the words of a row and reads a
command with that row's opcode; it names an undefined opcode before a zero bit (30_encoding R93, R94,
60_exceptions R238). -/
def Obligations.DecoderAcceptsExactlyTableRows : Prop :=
  ∀ w : CmdWord,
    (∀ r₁ ∈ opcodeRows, ∀ r₂ ∈ opcodeRows, r₁.owns w = true → r₂.owns w = true → r₁ = r₂) ∧
    ((∃ i, decode w = .ok i) ↔ ∃ r ∈ opcodeRows, r.owns w = true) ∧
    (∀ i, decode w = .ok i → ∃ r ∈ opcodeRows, r.owns w = true ∧ opcode i = r.pattern.extractLsb' 32 8) ∧
    (decode w = .error .undefinedOpcode ↔ opcodeDefined w = false) ∧
    (wellFormed w = true ↔ ∃ r ∈ opcodeRows, r.owns w = true)

/-- Words of spec/95_test_vectors.md 2.1, one or more of each family, decode to the commands they stand for. -/
def Obligations.SpecWordsDecode : Prop :=
  decode 0x10FF000002#40 = .ok (.cbResize 2#24 255#8) ∧
  decode 0x1600030002#40 = .ok (.cbPrev 2#16 3#16) ∧
  decode 0x2100000001#40 = .ok (.dqPopFront 1#24) ∧
  decode 0x3300010005#40 = .ok (.bmUpdate 5#16 true) ∧
  decode 0x4200010800#40 = .ok (.rcEnc 2048#13 true) ∧
  decode 0x520001FFFF#40 = .ok (.prResidual .b 0xFFFF#16) ∧
  decode 0x627FFF0001#40 = .ok (.cxEncFrame 0x0001#16 0x7FFF#16) ∧
  decode 0x700000001B#40 = .ok (.rdReg 0x1B#8) ∧
  decode 0x0000000000#40 = .error .undefinedOpcode ∧
  decode 0x1100010000#40 = .error .zeroBitSet

/-! ## Steps, faults, reset -/

/-- A step on a presented word that decodes to `i` is `exec i`, with the word taken off the port before and the
response (FAULT, RES) returned after; a stop of `exec` is a stop of the step (00_scope R10, 30_encoding R98; the port
in State is the model's, log 1, 2). -/
def Obligations.StepRunsDecodedCommand : Prop :=
  ∀ (s : State) (w : CmdWord) (rest : List HostInput) (i : Instr),
    s.io.inputs = .command w :: rest → decode w = .ok i →
    step s = match exec i { s with io := { s.io with inputs := rest } } with
      | .next t => .next { t with io := { t.io with
          responses := t.io.responses ++ [{ fault := t.latch.fault, res := t.res }] } }
      | .fault f => .fault f
      | .refused r => .refused r

/-- A word that is not a well-formed command latches IllegalCommand and changes nothing else; a faulted block
refuses it (60_exceptions R227, R240). -/
def Obligations.StepOnIllegalWord : Prop :=
  ∀ (s : State) (w : CmdWord) (rest : List HostInput),
    s.io.inputs = .command w :: rest → wellFormed w = false →
    (faulted s = false → step s = .next { s with
      latch := { fault := 1#8, faultOp := w.extractLsb' 32 8, faultArg := w.extractLsb' 0 32 }
      io := { s.io with
        inputs := rest
        responses := s.io.responses ++ [{ fault := 1#8, res := s.res }] } }) ∧
    (faulted s = true → step s = .next { s with
      io := { s.io with
        inputs := rest
        responses := s.io.responses ++ [{ fault := s.latch.fault, res := s.res }] } })

/-- With nothing presented a step changes nothing; the hardware reset input puts every register at its reset
value and leaves the ports alone (60_exceptions R237, 70_reset R255, R256; the input queue is the model's, log 1;
the reset contents of MT are the model's choice, log 4; that the reset input returns no response is the model's
reading, log 12). -/
def Obligations.StepWaitsAndHardwareReset : Prop :=
  ∀ s : State,
    (s.io.inputs = [] → step s = .next s) ∧
    (∀ rest, s.io.inputs = .resetInput :: rest →
      step s = .next { State.reset with io := { s.io with inputs := rest } })

/-- The hardware reset input in the middle of a command: every register is reset, no response is returned, some
prefix of the octets the command would have written stands in the sink and some of those it would have read are
gone (70_reset R255; which ones is free, log 11, and no response is the model's reading, log 12; the reset contents
of MT are the model's choice, log 4). -/
def Obligations.HardwareResetAbandonsCommand : Prop :=
  ∀ (s : State) (w : CmdWord) (rest : List HostInput) (u : State),
    s.io.inputs = .resetDuring w :: rest →
    runWord w { s with io := { s.io with inputs := rest } } = .next u →
    ∃ (k m draws : Nat), m ≤ s.io.source.length - u.io.source.length ∧
      step s = .next { State.reset with io := {
        inputs := rest
        source := s.io.source.drop m
        sink := s.io.sink ++ (u.io.sink.drop s.io.sink.length).take k
        responses := s.io.responses
        draws := draws } }

/-- RESET puts every register at its reset value in every state, faulted or not, and touches no port; a RESET word
with a nonzero `arg` is no command (46_system R217, 10_state R44). MT, which has no reset value, is left out. -/
def Obligations.ResetCommandResult : Prop :=
  (∀ s : State, ∃ t, exec .reset s = .next t ∧
    t.latch = { fault := 0#8, faultOp := 0#8, faultArg := 0#32 } ∧ t.res = 0#32 ∧ t.optVar = 0#32 ∧
    t.mtValid = false ∧ t.mode = .idle ∧
    t.rc = { low := 0#32, range := 0xFFFFFFFF#32, code := 0#32, carry := false, held := 0#8,
             heldValid := false, ffRun := 0, srcCount := 0#32, snkCount := 0#32, srcEof := false } ∧
    t.histA = { last1 := 0#16, last2 := 0#16, last3 := 0#16 } ∧
    t.histB = { last1 := 0#16, last2 := 0#16, last3 := 0#16 } ∧
    t.ring = { alloc := false, n := 0#17, pad := 0#8, mask := 0xFFFFFFFF#32, pos := 0#32, st := [],
               frontPos := 0#32, dqSize := 0#17 } ∧
    t.io = s.io ∧ status t = 0x00000800#32 ∧ responseOf t = { fault := 0#8, res := 0#32 }) ∧
  (∀ arg : BitVec 32, arg ≠ 0#32 → ∀ i, decode (commandWord 0x7F#8 arg) ≠ .ok i)

/-- The machine invariant holds right after reset (10_state R44 for every register; R44 leaves MT unspecified, and its
part of the invariant holds by the model's choice that every entry reads 2048 after reset, log 4). -/
def Obligations.InvHoldsAtReset : Prop := Inv State.reset

/-- Every step keeps the machine invariant: memories in canonical form, table entries in [511, 3585], the buffer
consistent, RANGE normalised, the carry invariants in MODE = ENC, an empty pipeline outside it, a legal fault
latch (10_state R22, R27, R36 to R38; 42_bit_model R150; 43_range_coder R166, R175). R150 bounds the entries from
MT_INIT on; that they are in range while MT_VALID = 0, after RESET, the reset input or an abandoned command, is the
model's choice of the reset contents of MT, log 4. -/
def Obligations.StepKeepsInv : Prop :=
  ∀ s t : State, Inv s → step s = .next t → Inv t

/-- From a state that meets the invariant every step answers a next state: no word, no data and no reset stops the
model (00_scope R14, 60_exceptions R236). -/
def Obligations.StepNeverStopsUnderInv : Prop :=
  ∀ s : State, Inv s → ∃ t, step s = .next t

/-- Faults are precise: whatever word raises a fault in a block that is not faulted, only the three fault registers
change, they record the word, and the response repeats RES (60_exceptions R239). -/
def Obligations.FaultsArePrecise : Prop :=
  ∀ (w : CmdWord) (s t : State), faulted s = false → runWord w s = .next t → faulted t = true →
    ∃ f : FaultCode,
      t = { s with latch :=
        { fault := faultNumber f, faultOp := w.extractLsb' 32 8, faultArg := w.extractLsb' 0 32 } } ∧
      responseOf t = { fault := faultNumber f, res := s.res }

/-- A faulted block refuses every word but a well-formed RESET and RD_REG of a listed number; those execute
(60_exceptions R240). -/
def Obligations.FaultedBlockRefusesWork : Prop :=
  ∀ (w : CmdWord) (s : State), faulted s = true →
    (decode w ≠ .ok .reset → (∀ n ∈ listedRegisters, decode w ≠ .ok (.rdReg n)) → runWord w s = .next s) ∧
    (∀ n ∈ listedRegisters, decode w = .ok (.rdReg n) →
      ∃ v, readReg s n = some v ∧ runWord w s = .next { s with res := v }) ∧
    (decode w = .ok .reset → ∃ t, runWord w s = .next t ∧ faulted t = false ∧ responseOf t = { fault := 0#8, res := 0#32 })

/-- A step leaves the faulted state only by the RESET command or the hardware reset input (60_exceptions R241). -/
def Obligations.OnlyResetLeavesFaultedState : Prop :=
  ∀ s t : State, faulted s = true → step s = .next t → faulted t = false →
    (∃ rest, s.io.inputs = .command (encode .reset) :: rest) ∨
    (∃ rest, s.io.inputs = .resetInput :: rest) ∨
    (∃ w rest, s.io.inputs = .resetDuring w :: rest)

/-- In a block that is not faulted, a command reports the first fault that applies in the fixed order, with the
code of the fault table, and completes without one when none applies (60_exceptions R226, R238). -/
def Obligations.FirstApplicableFaultIsTaken : Prop :=
  ∀ (i : Instr) (s : State), faulted s = false → RingInv s.ring →
    (∀ f, firstFault i s = some f → exec i s = .next (raise f i s)) ∧
    (firstFault i s = none → ∃ t, exec i s = .next t ∧ faulted t = false)

/-! ## Cyclic buffer -/

/-- CB_RESIZE (40_cyclic_buffer R111). -/
def Obligations.CbResizeResult : Prop :=
  ∀ (n : BitVec 24) (pad : BitVec 8) (s : State), faulted s = false →
    encode (.cbResize n pad) = 0x10#8 ++ (pad ++ n) ∧
    ((∃ k, k < 17 ∧ n.toNat = 2 ^ k) → ∃ r : Ring,
      exec (.cbResize n pad) s = .next { s with ring := r } ∧
      r.alloc = true ∧ r.n.toNat = n.toNat ∧ r.pad = pad ∧ r.mask.toNat = n.toNat - 1 ∧ r.pos = 0#32 ∧
      r.frontPos = 0#32 ∧ r.dqSize = 0#17 ∧ (∀ j, stRead r j = 0#16) ∧
      dqEmptyFlag r = true ∧ dqFullFlag r = false) ∧
    ((¬ ∃ k, k < 17 ∧ n.toNat = 2 ^ k) →
      exec (.cbResize n pad) s = .next (raise .badConfiguration (.cbResize n pad) s))

/-- CB_PUSH (40_cyclic_buffer R112): one element and CB_POS change, nothing else. -/
def Obligations.CbPushResult : Prop :=
  ∀ (v : BitVec 16) (s : State), faulted s = false → RingInv s.ring →
    encode (.cbPush v) = 0x11#8 ++ (0#16 ++ v) ∧
    (s.ring.alloc = false → exec (.cbPush v) s = .next (raise .cbUnallocated (.cbPush v) s)) ∧
    (s.ring.alloc = true → ∃ r : Ring, exec (.cbPush v) s = .next { s with ring := r } ∧
      r = { s.ring with pos := s.ring.pos + 1#32, st := r.st } ∧
      ∀ j, stRead r j =
        if j = s.ring.pad.toNat + (s.ring.pos &&& s.ring.mask).toNat then v else stRead s.ring j)

/-- CB_GET (40_cyclic_buffer R113): only RES changes. -/
def Obligations.CbGetResult : Prop :=
  ∀ (off : BitVec 32) (s : State), faulted s = false → RingInv s.ring →
    encode (.cbGet off) = 0x12#8 ++ off ∧
    (s.ring.alloc = false → exec (.cbGet off) s = .next (raise .cbUnallocated (.cbGet off) s)) ∧
    (s.ring.alloc = true → exec (.cbGet off) s = .next { s with
      res := (stRead s.ring (s.ring.pad.toNat + (off &&& s.ring.mask).toNat)).setWidth 32 })

/-- CB_GETU (40_cyclic_buffer R114): only RES changes; outside `-pad ≤ off < N + pad` it raises CbBounds. -/
def Obligations.CbGetuResult : Prop :=
  ∀ (off : BitVec 32) (s : State), faulted s = false →
    encode (.cbGetu off) = 0x13#8 ++ off ∧
    if s.ring.alloc = false then exec (.cbGetu off) s = .next (raise .cbUnallocated (.cbGetu off) s)
    else if off.toInt < -(s.ring.pad.toNat : Int) ∨ (s.ring.n.toNat : Int) + s.ring.pad.toNat ≤ off.toInt then
      exec (.cbGetu off) s = .next (raise .cbBounds (.cbGetu off) s)
    else ∃ j : Nat, (j : Int) = s.ring.pad.toNat + off.toInt ∧
      exec (.cbGetu off) s = .next { s with res := (stRead s.ring j).setWidth 32 }

/-- CB_FILL (40_cyclic_buffer R115): every element of ST, padding included; the cursors keep their values. -/
def Obligations.CbFillResult : Prop :=
  ∀ (v : BitVec 16) (s : State), faulted s = false →
    encode (.cbFill v) = 0x14#8 ++ (0#16 ++ v) ∧
    (s.ring.alloc = false → exec (.cbFill v) s = .next (raise .cbUnallocated (.cbFill v) s)) ∧
    (s.ring.alloc = true → ∃ r : Ring, exec (.cbFill v) s = .next { s with ring := r } ∧
      r = { s.ring with st := r.st } ∧
      ∀ j, j < s.ring.n.toNat + 2 * s.ring.pad.toNat → stRead r j = v)

/-- CB_RELEASE (40_cyclic_buffer R116): CB_POS and DQ_FRONT_POS keep their values; what happens to ST is left open,
since nothing can read it while CB_ALLOC = 0. -/
def Obligations.CbReleaseResult : Prop :=
  ∀ s : State, faulted s = false → encode .cbRelease = 0x1500000000#40 ∧
    ∃ st, exec .cbRelease s = .next { s with ring := { s.ring with
      alloc := false, n := 0#17, pad := 0#8, mask := 0xFFFFFFFF#32, dqSize := 0#17, st := st } }

/-- CB_PREV and CB_NEXT (40_cyclic_buffer R117, R118): only RES changes; it is the exact difference or sum mod N in
an allocated buffer, mod 2^32 in a released one. -/
def Obligations.CbPrevNextResult : Prop :=
  ∀ (p k : BitVec 16) (s : State), faulted s = false → RingInv s.ring →
    let modulus : Int := if s.ring.alloc then (s.ring.n.toNat : Int) else 2 ^ 32
    encode (.cbPrev p k) = 0x16#8 ++ (k ++ p) ∧ encode (.cbNext p k) = 0x17#8 ++ (k ++ p) ∧
    (∃ r : BitVec 32, exec (.cbPrev p k) s = .next { s with res := r } ∧
      (r.toNat : Int) = ((p.toNat : Int) - k.toNat) % modulus ∧
      r = (p.setWidth 32 - k.setWidth 32) &&& s.ring.mask) ∧
    (∃ r : BitVec 32, exec (.cbNext p k) s = .next { s with res := r } ∧
      (r.toNat : Int) = ((p.toNat : Int) + k.toNat) % modulus ∧
      r = (p.setWidth 32 + k.setWidth 32) &&& s.ring.mask)

/-- CB_COPY_S2E (40_cyclic_buffer R119): the tail padding repeats the ring; every other element keeps its value. -/
def Obligations.CbCopyS2eResult : Prop :=
  ∀ (k : BitVec 24) (s : State), faulted s = false → RingInv s.ring →
    encode (.cbCopyS2e k) = 0x18#8 ++ (0#8 ++ k) ∧
    (s.ring.alloc = false → exec (.cbCopyS2e k) s = .next (raise .cbUnallocated (.cbCopyS2e k) s)) ∧
    (s.ring.alloc = true → s.ring.pad.toNat < k.toNat →
      exec (.cbCopyS2e k) s = .next (raise .cbBounds (.cbCopyS2e k) s)) ∧
    (s.ring.alloc = true → k.toNat ≤ s.ring.pad.toNat → ∃ r : Ring,
      exec (.cbCopyS2e k) s = .next { s with ring := r } ∧ r = { s.ring with st := r.st } ∧
      (∀ i, i < k.toNat → stRead r (s.ring.pad.toNat + s.ring.n.toNat + i) =
        stRead s.ring (s.ring.pad.toNat + i % s.ring.n.toNat)) ∧
      (∀ j, j < s.ring.pad.toNat + s.ring.n.toNat ∨ s.ring.pad.toNat + s.ring.n.toNat + k.toNat ≤ j →
        stRead r j = stRead s.ring j))

/-- CB_COPY_E2S (40_cyclic_buffer R120): storage indices; every source element is read before it is overwritten;
every element outside the first `k` keeps its value. -/
def Obligations.CbCopyE2sResult : Prop :=
  ∀ (k : BitVec 24) (s : State), faulted s = false → RingInv s.ring →
    encode (.cbCopyE2s k) = 0x19#8 ++ (0#8 ++ k) ∧
    (s.ring.alloc = false → exec (.cbCopyE2s k) s = .next (raise .cbUnallocated (.cbCopyE2s k) s)) ∧
    (s.ring.alloc = true → 2 * s.ring.pad.toNat < k.toNat →
      exec (.cbCopyE2s k) s = .next (raise .cbBounds (.cbCopyE2s k) s)) ∧
    (s.ring.alloc = true → k.toNat ≤ 2 * s.ring.pad.toNat → ∃ r : Ring,
      exec (.cbCopyE2s k) s = .next { s with ring := r } ∧ r = { s.ring with st := r.st } ∧
      (∀ i, i < k.toNat → stRead r i = stRead s.ring (s.ring.n.toNat + i)) ∧
      (∀ j, k.toNat ≤ j → stRead r j = stRead s.ring j))

/-- Masking law (40_cyclic_buffer R122). -/
def Obligations.CbMaskingLaw : Prop :=
  ∀ (off : BitVec 32) (k : Int) (s : State), faulted s = false → RingInv s.ring → s.ring.alloc = true →
    ∃ t, exec (.cbGet off) s = .next t ∧
      exec (.cbGet (off + BitVec.ofInt 32 (k * s.ring.n.toNat))) s = .next t

/-! ## Cyclic deque -/

/-- DQ_PUSH_BACK (41_cyclic_deque R131). -/
def Obligations.DqPushBackResult : Prop :=
  ∀ (v : BitVec 16) (s : State), faulted s = false → RingInv s.ring →
    encode (.dqPushBack v) = 0x20#8 ++ (0#16 ++ v) ∧
    (s.ring.alloc = false → exec (.dqPushBack v) s = .next (raise .cbUnallocated (.dqPushBack v) s)) ∧
    (s.ring.alloc = true → s.ring.dqSize = s.ring.n →
      exec (.dqPushBack v) s = .next (raise .dqOverflow (.dqPushBack v) s)) ∧
    (s.ring.alloc = true → s.ring.dqSize ≠ s.ring.n → ∃ r : Ring,
      exec (.dqPushBack v) s = .next { s with ring := r } ∧
      r = { s.ring with pos := s.ring.pos + 1#32, dqSize := r.dqSize, st := r.st } ∧
      r.dqSize.toNat = s.ring.dqSize.toNat + 1 ∧
      (∀ j, stRead r j =
        if j = s.ring.pad.toNat + (s.ring.pos &&& s.ring.mask).toNat then v else stRead s.ring j) ∧
      dqEmptyFlag r = false ∧ (dqFullFlag r = true ↔ r.dqSize = s.ring.n))

/-- DQ_POP_FRONT (41_cyclic_deque R132): no element is cleared or returned. -/
def Obligations.DqPopFrontResult : Prop :=
  ∀ (k : BitVec 24) (s : State), faulted s = false →
    encode (.dqPopFront k) = 0x21#8 ++ (0#8 ++ k) ∧
    (s.ring.dqSize.toNat < k.toNat → exec (.dqPopFront k) s = .next (raise .dqUnderflow (.dqPopFront k) s)) ∧
    (k.toNat ≤ s.ring.dqSize.toNat → ∃ r : Ring, exec (.dqPopFront k) s = .next { s with ring := r } ∧
      r = { s.ring with frontPos := r.frontPos, dqSize := r.dqSize } ∧
      r.frontPos.toNat = (s.ring.frontPos.toNat + k.toNat) % 2 ^ 32 ∧
      r.dqSize.toNat = s.ring.dqSize.toNat - k.toNat)

/-- DQ_FRONT and DQ_GET (41_cyclic_deque R133, R134): only RES changes. -/
def Obligations.DqFrontGetResult : Prop :=
  ∀ (off : BitVec 32) (s : State), faulted s = false → RingInv s.ring →
    encode .dqFront = 0x2200000000#40 ∧ encode (.dqGet off) = 0x23#8 ++ off ∧
    (s.ring.alloc = false →
      exec .dqFront s = .next (raise .cbUnallocated .dqFront s) ∧
      exec (.dqGet off) s = .next (raise .cbUnallocated (.dqGet off) s)) ∧
    (s.ring.alloc = true →
      exec .dqFront s = .next { s with
        res := (stRead s.ring (s.ring.pad.toNat + (s.ring.frontPos &&& s.ring.mask).toNat)).setWidth 32 } ∧
      exec (.dqGet off) s = .next { s with
        res := (stRead s.ring (s.ring.pad.toNat + ((s.ring.frontPos + off) &&& s.ring.mask).toNat)).setWidth 32 })

/-- DQ_CAPACITY, DQ_SIZE, DQ_FULL (41_cyclic_deque R135, R136, R137): only RES changes. -/
def Obligations.DqCapacitySizeFullResult : Prop :=
  ∀ s : State, faulted s = false → RingInv s.ring →
    encode .dqCapacity = 0x2400000000#40 ∧ encode .dqSize = 0x2500000000#40 ∧ encode .dqFull = 0x2600000000#40 ∧
    (∃ r : BitVec 32, exec .dqCapacity s = .next { s with res := r } ∧ r = s.ring.mask + 1#32 ∧
      r.toNat = if s.ring.alloc then s.ring.n.toNat else 0) ∧
    exec .dqSize s = .next { s with res := s.ring.dqSize.setWidth 32 } ∧
    exec .dqFull s = .next { s with
      res := if s.ring.alloc = true ∧ s.ring.dqSize = s.ring.n then 1#32 else 0#32 }

/-- FIFO law (41_cyclic_deque R138, R139): after CB_RESIZE and any DQ_ commands none of which faults, the live
elements are those of a first-in first-out queue, front first, and the cursors keep their invariant. -/
def Obligations.DequeIsFifo : Prop :=
  ∀ (n : BitVec 24) (pad : BitVec 8) (is : List Instr) (s t : State),
    faulted s = false → (∃ k, k < 17 ∧ n.toNat = 2 ^ k) → (∀ i ∈ is, isDequeCommand i = true) →
    execAll (.cbResize n pad :: is) s = .next t → faulted t = false →
    liveElements t.ring = is.foldl queueStep [] ∧ DequeInv t.ring

/-! ## Bit model -/

/-- MT_INIT and BM_INIT (42_bit_model R148, R149): the entries they write read 2048, every other entry as before. -/
def Obligations.MtInitBmInitResult : Prop :=
  ∀ (idx : BitVec 16) (s : State), faulted s = false →
    encode .mtInit = 0x3000000000#40 ∧ encode (.bmInit idx) = 0x31#8 ++ (0#16 ++ idx) ∧
    (∃ m, exec .mtInit s = .next { s with mt := m, mtValid := true } ∧
      ∀ j, j < 65536 → Memory.read mtDefault m j = 2048#13) ∧
    (s.mtValid = false → exec (.bmInit idx) s = .next (raise .modelUninit (.bmInit idx) s)) ∧
    (s.mtValid = true → ∃ m, exec (.bmInit idx) s = .next { s with mt := m } ∧
      ∀ j, Memory.read mtDefault m j = if j = idx.toNat then 2048#13 else mtRead s j)

/-- BM_GETP and BM_UPDATE (42_bit_model R147, R152, R153). -/
def Obligations.BmGetpUpdateResult : Prop :=
  ∀ (idx : BitVec 16) (bit : Bool) (s : State), faulted s = false →
    encode (.bmGetp idx) = 0x32#8 ++ (0#16 ++ idx) ∧
    encode (.bmUpdate idx bit) = 0x33#8 ++ (0#15 ++ (if bit then 1#1 else 0#1) ++ idx) ∧
    (s.mtValid = false →
      exec (.bmGetp idx) s = .next (raise .modelUninit (.bmGetp idx) s) ∧
      exec (.bmUpdate idx bit) s = .next (raise .modelUninit (.bmUpdate idx bit) s)) ∧
    (s.mtValid = true →
      exec (.bmGetp idx) s = .next { s with res := (mtRead s idx.toNat).setWidth 32 } ∧
      ∃ m, exec (.bmUpdate idx bit) s = .next { s with mt := m } ∧
        (∀ j, j ≠ idx.toNat → Memory.read mtDefault m j = mtRead s j) ∧
        (Memory.read mtDefault m idx.toNat).toNat =
          if bit then (mtRead s idx.toNat).toNat - (mtRead s idx.toNat).toNat / 512
          else min ((mtRead s idx.toNat).toNat + (4096 - (mtRead s idx.toNat).toNat) / 512) 4095)

/-- Reachable probabilities (42_bit_model R150): the update maps [511, 3585] into itself, the ends are fixed points,
and 938 equal bits lead from 2048 to an end, 937 do not. -/
def Obligations.UpdateStaysInBounds : Prop :=
  (∀ (p : Nat) (bit : Bool), 511 ≤ p → p ≤ 3585 → 511 ≤ update p bit ∧ update p bit ≤ 3585) ∧
  update 3585 false = 3585 ∧ update 511 true = 511 ∧
  (fun p => update p false)^[938] 2048 = 3585 ∧ (fun p => update p false)^[937] 2048 ≠ 3585 ∧
  (fun p => update p true)^[938] 2048 = 511 ∧ (fun p => update p true)^[937] 2048 ≠ 511

/-- The clamp is unobservable for every PCLAMP in [3585, 4096], and a smaller one would change behaviour
(42_bit_model R151). -/
def Obligations.ClampUnobservable : Prop :=
  (∀ (clamp p : Nat), 3585 ≤ clamp → clamp ≤ 4096 → 511 ≤ p → p ≤ 3585 →
    updateClamped clamp p false = p + (4096 - p) / 512) ∧
  (∀ clamp : Nat, clamp < 3585 → ∃ p, 511 ≤ p ∧ p ≤ 3585 ∧ updateClamped clamp p false ≠ p + (4096 - p) / 512)

/-! ## Range coder -/

/-- RC_INIT_ENC (43_range_coder R167): SRC_COUNT, SRC_EOF, the model table, the history and the ports stay. -/
def Obligations.RcInitEncResult : Prop :=
  ∀ s : State, faulted s = false → encode .rcInitEnc = 0x4000000000#40 ∧ exec .rcInitEnc s = .next { s with
    mode := .enc
    rc := { s.rc with
      low := 0#32, range := 0xFFFFFFFF#32, code := 0#32, carry := false, held := 0#8, heldValid := false
      ffRun := 0, snkCount := 0#32 } }

/-- RC_INIT_DEC (43_range_coder R168, 20_memory R65, R66): CODE is the next four octets, most significant first, with
free octets (log 3) for those the source lacks. -/
def Obligations.RcInitDecResult : Prop :=
  ∀ s : State, faulted s = false → encode .rcInitDec = 0x4100000000#40 ∧
    ∃ (octets : List Octet) (draws : Nat), octets.length = 4 ∧
    octets.take s.io.source.length = s.io.source.take 4 ∧
    exec .rcInitDec s = .next { s with
      mode := .dec
      rc := { s.rc with
        low := 0#32, range := 0xFFFFFFFF#32, code := BitVec.ofNat 32 (bigEndian octets), carry := false
        held := 0#8, heldValid := false, ffRun := 0, srcCount := 4#32
        srcEof := decide (s.io.source.length < 4) }
      io := { s.io with source := s.io.source.drop 4, draws := draws } }

/-- The partition of the interval (43_range_coder R161). -/
def Obligations.PartitionBounds : Prop :=
  ∀ (range : BitVec 32) (p : Nat), 2 ^ 24 ≤ range.toNat → 1 ≤ p → p ≤ 4095 →
    partition range p = range.toNat / 4096 * p ∧ 4096 ≤ partition range p ∧
    partition range p < range.toNat ∧ 4096 ≤ range.toNat - partition range p

/-- RC_ENC and RC_ENC_DIRECT (43_range_coder R169, R170): the gates, the interval update with its exact carry, then
normalisation. -/
def Obligations.RcEncResult : Prop :=
  ∀ (p : BitVec 13) (bit : Bool) (s : State), faulted s = false →
    encode (.rcEnc p bit) = 0x42#8 ++ (0#15 ++ (if bit then 1#1 else 0#1) ++ 0#3 ++ p) ∧
    encode (.rcEncDirect bit) = 0x43#8 ++ (0#15 ++ (if bit then 1#1 else 0#1) ++ 0#16) ∧
    (s.mode ≠ .enc →
      exec (.rcEnc p bit) s = .next (raise .badMode (.rcEnc p bit) s) ∧
      exec (.rcEncDirect bit) s = .next (raise .badMode (.rcEncDirect bit) s)) ∧
    (s.mode = .enc → p.toNat = 0 ∨ 4095 < p.toNat →
      exec (.rcEnc p bit) s = .next (raise .badOperand (.rcEnc p bit) s)) ∧
    (s.mode = .enc → 1 ≤ p.toNat → p.toNat ≤ 4095 →
      let mid := s.rc.range.toNat / 4096 * p.toNat
      exec (.rcEnc p bit) s = .next (encNormalize { s with rc :=
        if bit then { s.rc with
          carry := s.rc.carry || decide (2 ^ 32 ≤ s.rc.low.toNat + mid)
          low := BitVec.ofNat 32 (s.rc.low.toNat + mid)
          range := BitVec.ofNat 32 (s.rc.range.toNat - mid) }
        else { s.rc with range := BitVec.ofNat 32 mid } })) ∧
    (s.mode = .enc →
      let half := s.rc.range.toNat / 2
      exec (.rcEncDirect bit) s = .next (encNormalize { s with rc :=
        if bit then { s.rc with
          carry := s.rc.carry || decide (2 ^ 32 ≤ s.rc.low.toNat + half)
          low := BitVec.ofNat 32 (s.rc.low.toNat + half)
          range := BitVec.ofNat 32 half }
        else { s.rc with range := BitVec.ofNat 32 half } }))

/-- Stream layout, one step (43_range_coder R166, R174): an encoded bit adds exactly `mid` (or the halved RANGE) to the
exact low end when it is 1, and each of the 0, 1 or 2 normalisation shifts (0 or 1 for a direct bit) multiplies it
by 256, whatever the carry pipeline holds back; only coder registers and the sink change. -/
def Obligations.EncodingTracksExactLow : Prop :=
  ∀ (p : BitVec 13) (bit : Bool) (s : State), faulted s = false → Inv s → s.mode = .enc →
    (1 ≤ p.toNat → p.toNat ≤ 4095 → ∃ (rc : Coder) (out : List Octet) (shifts : Nat), shifts ≤ 2 ∧
      exec (.rcEnc p bit) s = .next { s with rc := rc, io := { s.io with sink := s.io.sink ++ out } } ∧
      2 ^ 24 ≤ rc.range.toNat ∧
      rc.range.toNat = (if bit then s.rc.range.toNat - partition s.rc.range p.toNat
        else partition s.rc.range p.toNat) * 256 ^ shifts ∧
      exactLow { s with rc := rc, io := { s.io with sink := s.io.sink ++ out } } =
        (exactLow s + if bit then partition s.rc.range p.toNat else 0) * 256 ^ shifts ∧
      out.length + (keptOctets rc).length = (keptOctets s.rc).length + shifts ∧
      rc.snkCount = s.rc.snkCount + BitVec.ofNat 32 out.length ∧ rc.code = s.rc.code ∧
      rc.srcCount = s.rc.srcCount ∧ rc.srcEof = s.rc.srcEof) ∧
    (∃ (rc : Coder) (out : List Octet) (shifts : Nat), shifts ≤ 1 ∧
      exec (.rcEncDirect bit) s = .next { s with rc := rc, io := { s.io with sink := s.io.sink ++ out } } ∧
      2 ^ 24 ≤ rc.range.toNat ∧
      rc.range.toNat = s.rc.range.toNat / 2 * 256 ^ shifts ∧
      exactLow { s with rc := rc, io := { s.io with sink := s.io.sink ++ out } } =
        (exactLow s + if bit then s.rc.range.toNat / 2 else 0) * 256 ^ shifts ∧
      out.length + (keptOctets rc).length = (keptOctets s.rc).length + shifts ∧
      rc.snkCount = s.rc.snkCount + BitVec.ofNat 32 out.length ∧ rc.code = s.rc.code ∧
      rc.srcCount = s.rc.srcCount ∧ rc.srcEof = s.rc.srcEof)

/-- Carry invariants (43_range_coder R175): after any command from a state that meets the invariant, in MODE = ENC. -/
def Obligations.CarryInvariantsHold : Prop :=
  ∀ (i : Instr) (s t : State), Inv s → exec i s = .next t → t.mode = .enc →
    t.rc.carry.toNat * 2 ^ 32 + t.rc.low.toNat + t.rc.range.toNat ≤ 2 ^ 33 - 512 ∧
    (t.rc.carry = true → t.rc.low.toNat + t.rc.range.toNat ≤ 2 ^ 32) ∧
    (t.rc.carry = true → t.rc.heldValid = true ∧ t.rc.held.toNat ≤ 0xFE) ∧
    (t.rc.heldValid = false → t.rc.carry = false ∧ t.rc.low.toNat + t.rc.range.toNat ≤ 2 ^ 32)

/-- RC_FLUSH (43_range_coder R173): BadMode outside ENC; else the kept octets with the carry added as one big-endian
number, the four octets of LOW, and one 0x00, and an empty pipeline. -/
def Obligations.RcFlushResult : Prop :=
  ∀ s : State, faulted s = false →
    encode .rcFlush = 0x4600000000#40 ∧
    (s.mode ≠ .enc → exec .rcFlush s = .next (raise .badMode .rcFlush s)) ∧
    (s.mode = .enc → Inv s → ∃ out : List Octet,
      exec .rcFlush s = .next { s with
        mode := .flushed
        rc := { s.rc with
          low := 0#32, carry := false, held := 0#8, heldValid := false, ffRun := 0
          snkCount := s.rc.snkCount + BitVec.ofNat 32 out.length }
        io := { s.io with sink := s.io.sink ++ out } } ∧
      out.length = (keptOctets s.rc).length + 5 ∧
      bigEndian out = ((bigEndian (keptOctets s.rc) + s.rc.carry.toNat) * 2 ^ 32 + s.rc.low.toNat) * 256)

/-- RC_DEC (43_range_coder R165, R166, R171): the gates; else the bit in RES, CODE and RANGE narrowed, then 0, 1 or 2
octets shifted in, free ones (log 3) for those the source lacks. -/
def Obligations.RcDecResult : Prop :=
  ∀ (p : BitVec 13) (s : State), faulted s = false →
    encode (.rcDec p) = 0x44#8 ++ (0#19 ++ p) ∧
    (s.mode ≠ .dec → exec (.rcDec p) s = .next (raise .badMode (.rcDec p) s)) ∧
    (s.mode = .dec → p.toNat = 0 ∨ 4095 < p.toNat →
      exec (.rcDec p) s = .next (raise .badOperand (.rcDec p) s)) ∧
    (s.mode = .dec → 1 ≤ p.toNat → p.toNat ≤ 4095 → 2 ^ 24 ≤ s.rc.range.toNat →
      let mid := s.rc.range.toNat / 4096 * p.toNat
      ∃ (code range : BitVec 32) (octets : List Octet) (draws : Nat), octets.length ≤ 2 ∧
        octets.take s.io.source.length = s.io.source.take octets.length ∧
        exec (.rcDec p) s = .next { s with
          res := if s.rc.code.toNat < mid then 0#32 else 1#32
          rc := { s.rc with
            code := code, range := range, srcCount := s.rc.srcCount + BitVec.ofNat 32 octets.length
            srcEof := s.rc.srcEof || decide (s.io.source.length < octets.length) }
          io := { s.io with source := s.io.source.drop octets.length, draws := draws } } ∧
        2 ^ 24 ≤ range.toNat ∧
        range.toNat = (if s.rc.code.toNat < mid then mid else s.rc.range.toNat - mid) * 256 ^ octets.length ∧
        code.toNat = ((if s.rc.code.toNat < mid then s.rc.code.toNat else s.rc.code.toNat - mid) *
          256 ^ octets.length + bigEndian octets) % 2 ^ 32 ∧
        (s.rc.code.toNat < s.rc.range.toNat → code.toNat < range.toNat))

/-- RC_DEC_DIRECT (43_range_coder R165, R166, R172): the gate; else the bit in RES, RANGE halved, CODE narrowed, then
0 or 1 octet shifted in, a free one (log 3) if the source is empty. -/
def Obligations.RcDecDirectResult : Prop :=
  ∀ s : State, faulted s = false →
    encode .rcDecDirect = 0x4500000000#40 ∧
    (s.mode ≠ .dec → exec .rcDecDirect s = .next (raise .badMode .rcDecDirect s)) ∧
    (s.mode = .dec → 2 ^ 24 ≤ s.rc.range.toNat →
      let half := s.rc.range.toNat / 2
      ∃ (code range : BitVec 32) (octets : List Octet) (draws : Nat), octets.length ≤ 1 ∧
        octets.take s.io.source.length = s.io.source.take octets.length ∧
        exec .rcDecDirect s = .next { s with
          res := if s.rc.code.toNat < half then 0#32 else 1#32
          rc := { s.rc with
            code := code, range := range, srcCount := s.rc.srcCount + BitVec.ofNat 32 octets.length
            srcEof := s.rc.srcEof || decide (s.io.source.length < octets.length) }
          io := { s.io with source := s.io.source.drop octets.length, draws := draws } } ∧
        2 ^ 24 ≤ range.toNat ∧ range.toNat = half * 256 ^ octets.length ∧
        code.toNat = ((if s.rc.code.toNat < half then s.rc.code.toNat else s.rc.code.toNat - half) *
          256 ^ octets.length + bigEndian octets) % 2 ^ 32)

/-- Round-trip law (43_range_coder R174, R176, R177 (c)): encode any legal steps, then decode a prefix of them from the
octets written; every bit comes back, CODE stays below RANGE, RANGE equals the encoder's after the same steps, no
read passes the end, and decoding all steps reads all octets but the last. -/
def Obligations.RangeCoderRoundTrip : Prop :=
  ∀ (pre post : List CodeStep), (∀ x ∈ pre ++ post, x.legal) →
    ∀ s : State, faulted s = false → ∃ (e t : State) (written : List Octet),
      execAll (.rcInitEnc :: pre.map encCommand) s = .next e ∧
      execAll (.rcInitEnc :: ((pre ++ post).map encCommand ++ [.rcFlush])) s = .next t ∧
      t.io.sink = s.io.sink ++ written ∧
      ∀ (d : State) (rest : List Octet), faulted d = false → d.io.source = written ++ rest →
        ∃ (rs : List Response) (u : State),
          execCollect (.rcInitDec :: pre.map decCommand) d = some (rs, u) ∧
          (rs.drop 1).map (fun r => r.res) = pre.map (fun x => if stepBit x then 1#32 else 0#32) ∧
          u.rc.range = e.rc.range ∧ u.rc.code.toNat < u.rc.range.toNat ∧ u.rc.srcEof = false ∧
          (post = [] → u.io.source = written.drop (written.length - 1) ++ rest ∧
            u.rc.srcCount = BitVec.ofNat 32 (written.length - 1))

/-! ## Predictor -/

/-- PR_INIT and PR_SHIFT (44_predictor R187, R191): only the histories named change. -/
def Obligations.PrInitShiftResult : Prop :=
  ∀ (v : BitVec 16) (s : State), faulted s = false →
    encode .prInit = 0x5000000000#40 ∧
    encode (.prShift .a v) = 0x54#8 ++ (0#15 ++ 0#1 ++ v) ∧ encode (.prShift .b v) = 0x54#8 ++ (0#15 ++ 1#1 ++ v) ∧
    exec .prInit s = .next { s with
      histA := { last1 := 0#16, last2 := 0#16, last3 := 0#16 }
      histB := { last1 := 0#16, last2 := 0#16, last3 := 0#16 } } ∧
    exec (.prShift .a v) s = .next { s with
      histA := { last1 := v, last2 := s.histA.last1, last3 := s.histA.last2 } } ∧
    exec (.prShift .b v) s = .next { s with
      histB := { last1 := v, last2 := s.histB.last1, last3 := s.histB.last2 } }

/-- PR_PREDICT, PR_RESIDUAL, PR_RECON (44_predictor R186, R188, R189, R190): exact integers, then mod 2^16; only RES
changes; and PR_RECON undoes PR_RESIDUAL. -/
def Obligations.PrPredictResidualReconResult : Prop :=
  ∀ (c : Channel) (v : BitVec 16) (s : State), faulted s = false →
    let h := match c with | .a => s.histA | .b => s.histB
    let exact : Int := 2 * (h.last1.toNat : Int) - h.last2.toNat
    let cbit : BitVec 1 := match c with | .a => 0#1 | .b => 1#1
    encode (.prPredict c) = 0x51#8 ++ (0#15 ++ cbit ++ 0#16) ∧
    encode (.prResidual c v) = 0x52#8 ++ (0#15 ++ cbit ++ v) ∧
    encode (.prRecon c v) = 0x53#8 ++ (0#15 ++ cbit ++ v) ∧
    exec (.prPredict c) s = .next { s with res := BitVec.ofInt 32 (exact % 65536) } ∧
    exec (.prResidual c v) s = .next { s with res := BitVec.ofInt 32 (((v.toNat : Int) - exact % 65536) % 65536) } ∧
    exec (.prRecon c v) s = .next { s with res := BitVec.ofInt 32 ((exact % 65536 + v.toNat) % 65536) } ∧
    exec (.prRecon c (BitVec.ofInt 16 (((v.toNat : Int) - exact % 65536) % 65536))) s =
      .next { s with res := v.setWidth 32 }

/-- A linear signal has residual 0 (44_predictor R192 (a)). -/
def Obligations.LinearSignalHasZeroResidual : Prop :=
  ∀ (c : Channel) (s : State) (α β n : Int), faulted s = false →
    (histOf s c).last2 = BitVec.ofInt 16 (α + β * (n - 2)) →
    (histOf s c).last1 = BitVec.ofInt 16 (α + β * (n - 1)) →
    exec (.prResidual c (BitVec.ofInt 16 (α + β * n))) s = .next { s with res := 0#32 }

/-! ## Residual and frame coding -/

/-- CX_ENC_RES is the walk of RC_ENC and BM_UPDATE over the context tree followed by three RC_ENC_DIRECT
(45_codec R196, R198; 70_reset R263); it raises BadMode, then ModelUninit. -/
def Obligations.CxEncResEqualsSplitCommands : Prop :=
  ∀ (c : Channel) (v : BitVec 16) (s : State), faulted s = false →
    (s.mode ≠ .enc → exec (.cxEncRes c v) s = .next (raise .badMode (.cxEncRes c v) s)) ∧
    (s.mode = .enc → s.mtValid = false → exec (.cxEncRes c v) s = .next (raise .modelUninit (.cxEncRes c v) s)) ∧
    (s.mode = .enc → s.mtValid = true → Inv s →
      ∃ t, exec (.cxEncRes c v) s = .next t ∧ splitEncResidual c v s = some t ∧
        t = { s with rc := t.rc, mt := t.mt, io := { s.io with sink := t.io.sink } })

/-- CX_DEC_RES is the walk of RC_DEC and BM_UPDATE followed by three RC_DEC_DIRECT, with the residual in RES
(45_codec R197, R199; 70_reset R263); it raises BadMode, then ModelUninit. -/
def Obligations.CxDecResEqualsSplitCommands : Prop :=
  ∀ (c : Channel) (s : State), faulted s = false →
    (s.mode ≠ .dec → exec (.cxDecRes c) s = .next (raise .badMode (.cxDecRes c) s)) ∧
    (s.mode = .dec → s.mtValid = false → exec (.cxDecRes c) s = .next (raise .modelUninit (.cxDecRes c) s)) ∧
    (s.mode = .dec → s.mtValid = true → Inv s →
      ∃ (r : Nat) (u t : State), exec (.cxDecRes c) s = .next t ∧ splitDecResidual c s = some (r, u) ∧
        r < 65536 ∧ t = { u with res := BitVec.ofNat 32 r } ∧
        t = { s with
          res := t.res, rc := t.rc, mt := t.mt, io := { s.io with source := t.io.source, draws := t.io.draws } })

/-- CX_ENC_FRAME is CX_ENC_RES of both residuals and then PR_SHIFT of both samples, with the residual pair in RES
(45_codec R200); it raises BadMode, then ModelUninit. -/
def Obligations.CxEncFrameEqualsParts : Prop :=
  ∀ (a b : BitVec 16) (s : State), faulted s = false →
    encode (.cxEncFrame a b) = 0x62#8 ++ (b ++ a) ∧
    (s.mode ≠ .enc → exec (.cxEncFrame a b) s = .next (raise .badMode (.cxEncFrame a b) s)) ∧
    (s.mode = .enc → s.mtValid = false →
      exec (.cxEncFrame a b) s = .next (raise .modelUninit (.cxEncFrame a b) s)) ∧
    (s.mode = .enc → s.mtValid = true →
      let ra := a - (2#16 * s.histA.last1 - s.histA.last2)
      let rb := b - (2#16 * s.histB.last1 - s.histB.last2)
      ∃ u, execAll [.cxEncRes .a ra, .cxEncRes .b rb, .prShift .a a, .prShift .b b] s = .next u ∧
        exec (.cxEncFrame a b) s = .next { u with res := rb ++ ra } ∧
        u.histA = { last1 := a, last2 := s.histA.last1, last3 := s.histA.last2 } ∧
        u.histB = { last1 := b, last2 := s.histB.last1, last3 := s.histB.last2 })

/-- CX_DEC_FRAME is CX_DEC_RES of both channels, reconstruction from the predictions taken before, and PR_SHIFT of
the reconstructed samples, with the sample pair in RES (45_codec R201); it raises BadMode, then ModelUninit. -/
def Obligations.CxDecFrameEqualsParts : Prop :=
  ∀ s : State, faulted s = false →
    encode .cxDecFrame = 0x6300000000#40 ∧
    (s.mode ≠ .dec → exec .cxDecFrame s = .next (raise .badMode .cxDecFrame s)) ∧
    (s.mode = .dec → s.mtValid = false → exec .cxDecFrame s = .next (raise .modelUninit .cxDecFrame s)) ∧
    (s.mode = .dec → s.mtValid = true →
      ∃ (u v w : State) (a b : BitVec 16),
        exec (.cxDecRes .a) s = .next u ∧ exec (.cxDecRes .b) u = .next v ∧
        a = 2#16 * s.histA.last1 - s.histA.last2 + u.res.setWidth 16 ∧
        b = 2#16 * s.histB.last1 - s.histB.last2 + v.res.setWidth 16 ∧
        execAll [.prShift .a a, .prShift .b b] v = .next w ∧
        exec .cxDecFrame s = .next { w with res := b ++ a })

/-- Where the context walk goes (20_memory R70, 45_codec R203): a CX_ command on channel 0 changes only entries 1 to
8191, on channel 1 only 8193 to 16383; a frame command neither 0 nor 8192 nor any entry from 16384 on. -/
def Obligations.CxTouchesOnlyItsTree : Prop :=
  ∀ (i : Instr) (s t : State) (j : Nat), exec i s = .next t → mtRead t j ≠ mtRead s j →
    ((∃ v, i = .cxEncRes .a v) ∨ i = .cxDecRes .a → 1 ≤ j ∧ j ≤ 8191) ∧
    ((∃ v, i = .cxEncRes .b v) ∨ i = .cxDecRes .b → 8193 ≤ j ∧ j ≤ 16383) ∧
    ((∃ a b, i = .cxEncFrame a b) ∨ i = .cxDecFrame → 1 ≤ j ∧ j ≤ 16383 ∧ j ≠ 8192)

/-- Codec round-trip and model parity (45_codec R202, R205, R206, R207, R208): COMPRESS of whole frames completes;
DECOMPRESS of the octets it wrote returns the input, leaves the encoder's model table and history, and reads all
octets but the last. -/
def Obligations.CodecRoundTrip : Prop :=
  ∀ (octets : List Octet), 4 ∣ octets.length → ∀ s : State, faulted s = false →
    ∃ (t : State) (written : List Octet), execAll (compress octets) s = .next t ∧
      t.io.sink = s.io.sink ++ written ∧
      ∀ (d : State) (rest : List Octet), faulted d = false → d.io.source = written ++ rest →
        ∃ (rs : List Response) (u : State),
          execCollect (decompress octets.length) d = some (rs, u) ∧
          decompressOutput octets.length rs = octets ∧
          u.mt = t.mt ∧ u.histA = t.histA ∧ u.histB = t.histB ∧ u.rc.range = t.rc.range ∧
          u.rc.srcEof = false ∧ u.io.source = written.drop (written.length - 1) ++ rest

/-- Deterministic encode (45_codec R209 (a)): what COMPRESS writes does not depend on the state it starts from. -/
def Obligations.CompressIsDeterministic : Prop :=
  ∀ (octets : List Octet) (s₁ s₂ : State), faulted s₁ = false → faulted s₂ = false →
    ∃ (t₁ t₂ : State) (written : List Octet),
      execAll (compress octets) s₁ = .next t₁ ∧ execAll (compress octets) s₂ = .next t₂ ∧
      t₁.io.sink = s₁.io.sink ++ written ∧ t₂.io.sink = s₂.io.sink ++ written

/-! ## System commands and whole-machine rules -/

/-- RD_REG (46_system R215, 10_state R39, R40, R41): each listed number returns its register, in every state and with
no other effect; any other raises BadOperand in a block that is not faulted. -/
def Obligations.RdRegResult : Prop :=
  ∀ s : State,
    let reads (n : BitVec 8) (v : BitVec 32) : Prop := exec (.rdReg n) s = .next { s with res := v }
    (∀ n : BitVec 8, encode (.rdReg n) = 0x70#8 ++ (0#24 ++ n)) ∧
    reads 0x00#8 (BitVec.ofNat 32
      ((if faulted s then 1 else 0) + (if s.mtValid then 2 else 0) + (if s.ring.alloc then 4 else 0) +
        (if s.rc.srcEof then 8 else 0) + (if s.rc.heldValid then 16 else 0) + (if s.rc.carry then 32 else 0) +
        256 * (match s.mode with | .idle => 0 | .enc => 1 | .dec => 2 | .flushed => 3) +
        (if s.ring.alloc = true ∧ s.ring.dqSize = s.ring.n then 1024 else 0) +
        (if s.ring.dqSize = 0#17 then 2048 else 0))) ∧
    reads 0x01#8 (s.latch.fault.setWidth 32) ∧ reads 0x02#8 (s.latch.faultOp.setWidth 32) ∧
    reads 0x03#8 s.latch.faultArg ∧ reads 0x04#8 s.res ∧ reads 0x05#8 s.optVar ∧ reads 0x06#8 0x02030D0C#32 ∧
    reads 0x08#8 s.rc.low ∧ reads 0x09#8 s.rc.range ∧ reads 0x0A#8 s.rc.code ∧
    reads 0x0B#8 (BitVec.ofNat 32
      (s.rc.held.toNat + (if s.rc.heldValid then 256 else 0) + (if s.rc.carry then 512 else 0))) ∧
    reads 0x0C#8 (BitVec.ofNat 32 s.rc.ffRun) ∧ reads 0x0D#8 s.rc.srcCount ∧ reads 0x0E#8 s.rc.snkCount ∧
    reads 0x10#8 (BitVec.ofNat 32 (s.histA.last1.toNat + 65536 * s.histA.last2.toNat)) ∧
    reads 0x11#8 (s.histA.last3.setWidth 32) ∧
    reads 0x12#8 (BitVec.ofNat 32 (s.histB.last1.toNat + 65536 * s.histB.last2.toNat)) ∧
    reads 0x13#8 (s.histB.last3.setWidth 32) ∧
    reads 0x18#8 (s.ring.n.setWidth 32) ∧ reads 0x19#8 (s.ring.pad.setWidth 32) ∧
    reads 0x1A#8 s.ring.mask ∧ reads 0x1B#8 s.ring.pos ∧ reads 0x1C#8 s.ring.frontPos ∧
    reads 0x1D#8 (s.ring.dqSize.setWidth 32) ∧
    (∀ n : BitVec 8, n ∉ listedRegisters → faulted s = false →
      exec (.rdReg n) s = .next (raise .badOperand (.rdReg n) s)) ∧
    (∀ n : BitVec 8, n ∉ listedRegisters → faulted s = true → exec (.rdReg n) s = .next s)

/-- SET_OPT (46_system R216): OPT_VAR takes the value and nothing else changes. -/
def Obligations.SetOptResult : Prop :=
  ∀ (val : BitVec 32) (s : State), faulted s = false →
    encode (.setOpt val) = 0x71#8 ++ val ∧ exec (.setOpt val) s = .next { s with optVar := val }

/-- OPT_VAR alters nothing (10_state R24, 46_system R216): but for RD_REG 0x05, SET_OPT and RESET, a command does the
same whatever OPT_VAR holds, and keeps it. -/
def Obligations.OptVarAltersNothing : Prop :=
  ∀ (i : Instr) (x : BitVec 32) (s : State), i ≠ .rdReg 0x05#8 → i ≠ .reset → (∀ v, i ≠ .setOpt v) →
    exec i { s with optVar := x } =
      match exec i s with
      | .next t => .next { t with optVar := x }
      | .fault f => .fault f
      | .refused r => .refused r

/-- The buffer and the coder are separate (20_memory R60, 40_cyclic_buffer R123): CB_ and DQ_ commands change only
the buffer, RES and the fault latch; model, coder, predictor and codec commands never change the buffer; and only
CB_RESIZE, CB_RELEASE and RESET change CB_N or CB_PAD. -/
def Obligations.BufferAndCoderAreSeparate : Prop :=
  ∀ (i : Instr) (s t : State), exec i s = .next t →
    ((opcode i).toNat < 0x30 → t = { s with ring := t.ring, res := t.res, latch := t.latch }) ∧
    (0x30 ≤ (opcode i).toNat → (opcode i).toNat < 0x70 → t.ring = s.ring) ∧
    ((t.ring.n ≠ s.ring.n ∨ t.ring.pad ≠ s.ring.pad) →
      (∃ n pad, i = .cbResize n pad) ∨ i = .cbRelease ∨ i = .reset)

/-- Written octets are final and read octets are gone (43_range_coder R178, 20_memory R66, R67, 10_state R45): over any
step the sink only grows at its end and the source only loses octets at its front; responses are never withdrawn. -/
def Obligations.PortsOnlyMoveForward : Prop :=
  ∀ s t : State, step s = .next t →
    s.io.sink <+: t.io.sink ∧ t.io.source <:+ s.io.source ∧ s.io.responses <+: t.io.responses
end

