-- ==== Sys2Proof/Laws/Memory.lean ====
section
/-! SUPPORT. The laws of memory: reading what was written, leaving the rest alone, and the canonical form that
every operation keeps. -/
namespace Sys2Proof.Machine

variable {w : Nat}

/-! ### Reading after each operation -/

theorem Memory.read_erase (d : BitVec w) (m : Memory w) (a b : Nat) :
    Memory.read d (Memory.erase m a) b = if b = a then d else Memory.read d m b := by
  induction m with
  | nil => simp [Memory.read, Memory.erase]
  | cons c m ih =>
    by_cases hca : c.1 = a
    · rw [Memory.erase, if_pos hca, ih, Memory.read]
      by_cases hb : b = a
      · simp [hb]
      · rw [if_neg hb, if_neg hb, if_neg (fun h => hb (h.symm.trans hca))]
    · rw [Memory.erase, if_neg hca, Memory.read, Memory.read, ih]
      by_cases hb : b = a
      · subst hb; simp [hca]
      · simp [hb]

theorem Memory.read_insert (d : BitVec w) (m : Memory w) (a b : Nat) (v : BitVec w)
    (hfree : ∀ c ∈ m, c.1 ≠ a) :
    Memory.read d (Memory.insert m a v) b = if b = a then v else Memory.read d m b := by
  induction m with
  | nil => simp only [Memory.insert, Memory.read, eq_comm]
  | cons c m ih =>
    have hc : c.1 ≠ a := hfree c (by simp)
    unfold Memory.insert
    by_cases hlt : a < c.1
    · simp only [if_pos hlt, Memory.read, eq_comm]
    · simp only [if_neg hlt, Memory.read, ih (fun x hx => hfree x (by simp [hx]))]
      by_cases hb : b = a
      · subst hb; simp [hc]
      · simp [hb]

theorem Memory.erase_free (m : Memory w) (a : Nat) : ∀ c ∈ Memory.erase m a, c.1 ≠ a := by
  induction m with
  | nil => simp [Memory.erase]
  | cons c m ih =>
    by_cases hca : c.1 = a
    · simpa [Memory.erase, hca] using ih
    · simpa [Memory.erase, hca] using ih

/-- Everything a write does to what is read: the written index reads the value, every other index as before. -/
theorem Memory.read_write (d : BitVec w) (m : Memory w) (a b : Nat) (v : BitVec w) :
    Memory.read d (Memory.write d m a v) b = if b = a then v else Memory.read d m b := by
  unfold Memory.write
  by_cases hv : v = d
  · subst hv; simp [Memory.read_erase]
  · simp only [if_neg hv]
    rw [Memory.read_insert d _ a b v (Memory.erase_free m a), Memory.read_erase]
    by_cases hb : b = a <;> simp [hb]

@[simp] theorem Memory.read_write_same (d : BitVec w) (m : Memory w) (a : Nat) (v : BitVec w) :
    Memory.read d (Memory.write d m a v) a = v := by simp [Memory.read_write]

theorem Memory.read_write_other (d : BitVec w) (m : Memory w) (a b : Nat) (v : BitVec w) (h : b ≠ a) :
    Memory.read d (Memory.write d m a v) b = Memory.read d m b := by simp [Memory.read_write, h]

@[simp] theorem Memory.read_nil (d : BitVec w) (a : Nat) : Memory.read d [] a = d := rfl

theorem Memory.read_map_range (d v : BitVec w) (start len a : Nat) :
    Memory.read d ((List.range' start len).map (fun i => (i, v))) a =
      if start ≤ a ∧ a < start + len then v else d := by
  induction len generalizing start with
  | zero => rw [if_neg (by omega)]; rfl
  | succ len ih =>
    simp only [List.range'_succ, List.map_cons, Memory.read, ih]
    by_cases h : start = a
    · rw [if_pos h, if_pos (by omega)]
    · rw [if_neg h]
      exact if_congr (by omega) rfl rfl

/-- Everything a fill does: the first `len` cells read `v`, the others as unlisted. -/
theorem Memory.read_fill (d v : BitVec w) (len a : Nat) :
    Memory.read d (Memory.fill d len v) a = if a < len then v else d := by
  unfold Memory.fill
  by_cases hv : v = d
  · simp [hv]
  · simp only [if_neg hv, List.range_eq_range', Memory.read_map_range]
    simp

/-- Cells outside the destination of a copy keep their values. -/
theorem Memory.read_copyUp_outside (d : BitVec w) (m : Memory w) (dst src len a : Nat)
    (h : a < dst ∨ dst + len ≤ a) :
    Memory.read d (Memory.copyUp d m dst src len) a = Memory.read d m a := by
  induction len with
  | zero => rfl
  | succ len ih =>
    simp only [Memory.copyUp]
    rw [Memory.read_write_other _ _ _ _ _ (by omega), ih (by omega)]

/-- One more cell of a copy: the last destination cell reads what the source cell holds by then. -/
theorem Memory.read_copyUp_last (d : BitVec w) (m : Memory w) (dst src len : Nat) :
    Memory.read d (Memory.copyUp d m dst src (len + 1)) (dst + len) =
      Memory.read d (Memory.copyUp d m dst src len) (src + len) := by
  simp [Memory.copyUp]

/-! ### The canonical form -/

theorem Memory.wfFrom_cons (d : BitVec w) (bound lo : Nat) (c : Nat × BitVec w) (m : Memory w) :
    Memory.wfFrom d bound lo (c :: m) = true ↔
      lo ≤ c.1 ∧ c.1 < bound ∧ c.2 ≠ d ∧ Memory.wfFrom d bound (c.1 + 1) m = true := by
  simp [Memory.wfFrom, and_assoc]

theorem Memory.wfFrom_mono (d : BitVec w) (bound lo lo' : Nat) (m : Memory w) (h : lo' ≤ lo)
    (hm : Memory.wfFrom d bound lo m = true) : Memory.wfFrom d bound lo' m = true := by
  cases m with
  | nil => rfl
  | cons c m =>
    rw [Memory.wfFrom_cons] at hm ⊢
    exact ⟨h.trans hm.1, hm.2⟩

theorem Memory.wfFrom_erase (d : BitVec w) (bound lo : Nat) (m : Memory w) (a : Nat)
    (hm : Memory.wfFrom d bound lo m = true) : Memory.wfFrom d bound lo (Memory.erase m a) = true := by
  induction m generalizing lo with
  | nil => rfl
  | cons c m ih =>
    rw [Memory.wfFrom_cons] at hm
    by_cases hca : c.1 = a
    · simpa [Memory.erase, hca] using
        ih lo (Memory.wfFrom_mono d bound (c.1 + 1) lo m (by omega) hm.2.2.2)
    · rw [Memory.erase, if_neg hca, Memory.wfFrom_cons]
      exact ⟨hm.1, hm.2.1, hm.2.2.1, ih (c.1 + 1) hm.2.2.2⟩

theorem Memory.wfFrom_insert (d : BitVec w) (bound lo : Nat) (m : Memory w) (a : Nat) (v : BitVec w)
    (hm : Memory.wfFrom d bound lo m = true) (hfree : ∀ c ∈ m, c.1 ≠ a) (hlo : lo ≤ a) (ha : a < bound)
    (hv : v ≠ d) : Memory.wfFrom d bound lo (Memory.insert m a v) = true := by
  induction m generalizing lo with
  | nil => simp [Memory.insert, Memory.wfFrom, hlo, ha, hv]
  | cons c m ih =>
    have hc : c.1 ≠ a := hfree c (by simp)
    rw [Memory.wfFrom_cons] at hm
    unfold Memory.insert
    by_cases hlt : a < c.1
    · rw [if_pos hlt, Memory.wfFrom_cons, Memory.wfFrom_cons]
      exact ⟨hlo, ha, hv, hlt, hm.2⟩
    · rw [if_neg hlt, Memory.wfFrom_cons]
      exact ⟨hm.1, hm.2.1, hm.2.2.1, ih (c.1 + 1) hm.2.2.2 (fun x hx => hfree x (by simp [hx])) (by omega)⟩

/-- A write inside the bound keeps the canonical form. -/
theorem Memory.wf_write (d : BitVec w) (bound : Nat) (m : Memory w) (a : Nat) (v : BitVec w)
    (hm : Memory.wf d bound m = true) (ha : a < bound) : Memory.wf d bound (Memory.write d m a v) = true := by
  unfold Memory.write Memory.wf at *
  by_cases hv : v = d
  · simpa [hv] using Memory.wfFrom_erase d bound 0 m a hm
  · simpa [hv] using Memory.wfFrom_insert d bound 0 _ a v (Memory.wfFrom_erase d bound 0 m a hm)
      (Memory.erase_free m a) (by omega) ha hv

theorem Memory.wfFrom_map_range (d v : BitVec w) (hv : v ≠ d) (bound start len : Nat)
    (h : start + len ≤ bound) :
    Memory.wfFrom d bound start ((List.range' start len).map (fun i => (i, v))) = true := by
  induction len generalizing start with
  | zero => rfl
  | succ len ih =>
    rw [List.range'_succ, List.map_cons, Memory.wfFrom_cons]
    exact ⟨le_refl _, by simp only; omega, hv, ih (start + 1) (by omega)⟩

/-- A fill has the canonical form. -/
theorem Memory.wf_fill (d v : BitVec w) (bound len : Nat) (h : len ≤ bound) :
    Memory.wf d bound (Memory.fill d len v) = true := by
  unfold Memory.wf Memory.fill
  by_cases hv : v = d
  · simp [hv, Memory.wfFrom]
  · simpa [hv, List.range_eq_range'] using Memory.wfFrom_map_range d v hv bound 0 len (by omega)

/-- A copy inside the bound keeps the canonical form. -/
theorem Memory.wf_copyUp (d : BitVec w) (bound : Nat) (m : Memory w) (dst src len : Nat)
    (hm : Memory.wf d bound m = true) (h : dst + len ≤ bound) :
    Memory.wf d bound (Memory.copyUp d m dst src len) = true := by
  induction len with
  | zero => exact hm
  | succ len ih => exact Memory.wf_write d bound _ _ _ (ih (by omega)) (by omega)

@[simp] theorem Memory.wf_nil (d : BitVec w) (bound : Nat) : Memory.wf d bound [] = true := rfl

/-- The memories of the reset state have the canonical form. -/
theorem reset_memories_wf :
    Memory.wf mtDefault Config.tableSize State.reset.mt = true ∧
      Memory.wf stDefault State.reset.ring.cells State.reset.ring.st = true := ⟨rfl, rfl⟩

theorem Memory.read_below (d : BitVec w) (bound lo a : Nat) (m : Memory w)
    (hm : Memory.wfFrom d bound lo m = true) (h : a < lo) : Memory.read d m a = d := by
  induction m generalizing lo with
  | nil => rfl
  | cons c m ih =>
    rw [Memory.wfFrom_cons] at hm
    rw [Memory.read, if_neg (by omega), ih (c.1 + 1) hm.2.2.2 (by omega)]

/-- Two canonical memories that read alike are the same list: equal memories are equal data. -/
theorem Memory.ext_of_wfFrom (d : BitVec w) (bound lo : Nat) (m n : Memory w)
    (hm : Memory.wfFrom d bound lo m = true) (hn : Memory.wfFrom d bound lo n = true)
    (h : ∀ a, Memory.read d m a = Memory.read d n a) : m = n := by
  induction m generalizing lo n with
  | nil =>
    cases n with
    | nil => rfl
    | cons c n =>
      rw [Memory.wfFrom_cons] at hn
      exact absurd (by simpa [Memory.read] using (h c.1).symm) hn.2.2.1
  | cons c m ih =>
    cases n with
    | nil =>
      rw [Memory.wfFrom_cons] at hm
      exact absurd (by simpa [Memory.read] using h c.1) hm.2.2.1
    | cons e n =>
      rw [Memory.wfFrom_cons] at hm hn
      have hce : c.1 = e.1 := by
        by_contra hne
        rcases Nat.lt_or_gt_of_ne hne with hlt | hlt
        · have := h c.1
          rw [Memory.read, if_pos rfl, Memory.read, if_neg (by omega),
            Memory.read_below d bound (e.1 + 1) c.1 n hn.2.2.2 (by omega)] at this
          exact hm.2.2.1 this
        · have := h e.1
          rw [Memory.read, if_neg hne, Memory.read_below d bound (c.1 + 1) e.1 m hm.2.2.2 (by omega),
            Memory.read, if_pos rfl] at this
          exact hn.2.2.1 this.symm
      have hval : c.2 = e.2 := by simpa [Memory.read, hce] using h e.1
      have htail : m = n := by
        refine ih (c.1 + 1) n hm.2.2.2 (hce ▸ hn.2.2.2) (fun a => ?_)
        by_cases ha : a ≤ c.1
        · rw [Memory.read_below d bound (c.1 + 1) a m hm.2.2.2 (by omega),
            Memory.read_below d bound (e.1 + 1) a n hn.2.2.2 (by omega)]
        · have := h a
          rwa [Memory.read, if_neg (by omega), Memory.read, if_neg (by omega)] at this
      rw [htail, Prod.ext hce hval]

end Sys2Proof.Machine
end

