-- ==== Sys2Proof/Laws/State.lean ====
section
/-! SUPPORT. One lemma per field per update of State: what an update writes, and that it leaves the rest. -/
namespace Sys2Proof.Machine

/-! ### setRes -/

@[simp] theorem setRes_latch (s : State) (v : BitVec 32) :
    (setRes s v).latch = s.latch := rfl
@[simp] theorem setRes_res (s : State) (v : BitVec 32) :
    (setRes s v).res = v := rfl
@[simp] theorem setRes_optVar (s : State) (v : BitVec 32) :
    (setRes s v).optVar = s.optVar := rfl
@[simp] theorem setRes_mtValid (s : State) (v : BitVec 32) :
    (setRes s v).mtValid = s.mtValid := rfl
@[simp] theorem setRes_mode (s : State) (v : BitVec 32) :
    (setRes s v).mode = s.mode := rfl
@[simp] theorem setRes_rc (s : State) (v : BitVec 32) :
    (setRes s v).rc = s.rc := rfl
@[simp] theorem setRes_mt (s : State) (v : BitVec 32) :
    (setRes s v).mt = s.mt := rfl
@[simp] theorem setRes_histA (s : State) (v : BitVec 32) :
    (setRes s v).histA = s.histA := rfl
@[simp] theorem setRes_histB (s : State) (v : BitVec 32) :
    (setRes s v).histB = s.histB := rfl
@[simp] theorem setRes_ring (s : State) (v : BitVec 32) :
    (setRes s v).ring = s.ring := rfl
@[simp] theorem setRes_io (s : State) (v : BitVec 32) :
    (setRes s v).io = s.io := rfl

/-! ### mtWrite -/

@[simp] theorem mtWrite_latch (s : State) (i : Nat) (p : Prob) :
    (mtWrite s i p).latch = s.latch := rfl
@[simp] theorem mtWrite_res (s : State) (i : Nat) (p : Prob) :
    (mtWrite s i p).res = s.res := rfl
@[simp] theorem mtWrite_optVar (s : State) (i : Nat) (p : Prob) :
    (mtWrite s i p).optVar = s.optVar := rfl
@[simp] theorem mtWrite_mtValid (s : State) (i : Nat) (p : Prob) :
    (mtWrite s i p).mtValid = s.mtValid := rfl
@[simp] theorem mtWrite_mode (s : State) (i : Nat) (p : Prob) :
    (mtWrite s i p).mode = s.mode := rfl
@[simp] theorem mtWrite_rc (s : State) (i : Nat) (p : Prob) :
    (mtWrite s i p).rc = s.rc := rfl
@[simp] theorem mtWrite_mt (s : State) (i : Nat) (p : Prob) :
    (mtWrite s i p).mt = Memory.write mtDefault s.mt i p := rfl
@[simp] theorem mtWrite_histA (s : State) (i : Nat) (p : Prob) :
    (mtWrite s i p).histA = s.histA := rfl
@[simp] theorem mtWrite_histB (s : State) (i : Nat) (p : Prob) :
    (mtWrite s i p).histB = s.histB := rfl
@[simp] theorem mtWrite_ring (s : State) (i : Nat) (p : Prob) :
    (mtWrite s i p).ring = s.ring := rfl
@[simp] theorem mtWrite_io (s : State) (i : Nat) (p : Prob) :
    (mtWrite s i p).io = s.io := rfl

/-! ### raiseWord -/

@[simp] theorem raiseWord_latch (f : FaultCode) (w : CmdWord) (s : State) :
    (raiseWord f w s).latch = ⟨faultNumber f, opcodeOf w, argOf w⟩ := rfl
@[simp] theorem raiseWord_res (f : FaultCode) (w : CmdWord) (s : State) :
    (raiseWord f w s).res = s.res := rfl
@[simp] theorem raiseWord_optVar (f : FaultCode) (w : CmdWord) (s : State) :
    (raiseWord f w s).optVar = s.optVar := rfl
@[simp] theorem raiseWord_mtValid (f : FaultCode) (w : CmdWord) (s : State) :
    (raiseWord f w s).mtValid = s.mtValid := rfl
@[simp] theorem raiseWord_mode (f : FaultCode) (w : CmdWord) (s : State) :
    (raiseWord f w s).mode = s.mode := rfl
@[simp] theorem raiseWord_rc (f : FaultCode) (w : CmdWord) (s : State) :
    (raiseWord f w s).rc = s.rc := rfl
@[simp] theorem raiseWord_mt (f : FaultCode) (w : CmdWord) (s : State) :
    (raiseWord f w s).mt = s.mt := rfl
@[simp] theorem raiseWord_histA (f : FaultCode) (w : CmdWord) (s : State) :
    (raiseWord f w s).histA = s.histA := rfl
@[simp] theorem raiseWord_histB (f : FaultCode) (w : CmdWord) (s : State) :
    (raiseWord f w s).histB = s.histB := rfl
@[simp] theorem raiseWord_ring (f : FaultCode) (w : CmdWord) (s : State) :
    (raiseWord f w s).ring = s.ring := rfl
@[simp] theorem raiseWord_io (f : FaultCode) (w : CmdWord) (s : State) :
    (raiseWord f w s).io = s.io := rfl

/-! ### raise -/

@[simp] theorem raise_latch (f : FaultCode) (i : Instr) (s : State) :
    (raise f i s).latch = ⟨faultNumber f, opcodeOf (encode i), argOf (encode i)⟩ := rfl
@[simp] theorem raise_res (f : FaultCode) (i : Instr) (s : State) :
    (raise f i s).res = s.res := rfl
@[simp] theorem raise_optVar (f : FaultCode) (i : Instr) (s : State) :
    (raise f i s).optVar = s.optVar := rfl
@[simp] theorem raise_mtValid (f : FaultCode) (i : Instr) (s : State) :
    (raise f i s).mtValid = s.mtValid := rfl
@[simp] theorem raise_mode (f : FaultCode) (i : Instr) (s : State) :
    (raise f i s).mode = s.mode := rfl
@[simp] theorem raise_rc (f : FaultCode) (i : Instr) (s : State) :
    (raise f i s).rc = s.rc := rfl
@[simp] theorem raise_mt (f : FaultCode) (i : Instr) (s : State) :
    (raise f i s).mt = s.mt := rfl
@[simp] theorem raise_histA (f : FaultCode) (i : Instr) (s : State) :
    (raise f i s).histA = s.histA := rfl
@[simp] theorem raise_histB (f : FaultCode) (i : Instr) (s : State) :
    (raise f i s).histB = s.histB := rfl
@[simp] theorem raise_ring (f : FaultCode) (i : Instr) (s : State) :
    (raise f i s).ring = s.ring := rfl
@[simp] theorem raise_io (f : FaultCode) (i : Instr) (s : State) :
    (raise f i s).io = s.io := rfl

/-! ### resetBlock -/

@[simp] theorem resetBlock_latch (s : State) :
    (resetBlock s).latch = State.reset.latch := rfl
@[simp] theorem resetBlock_res (s : State) :
    (resetBlock s).res = State.reset.res := rfl
@[simp] theorem resetBlock_optVar (s : State) :
    (resetBlock s).optVar = State.reset.optVar := rfl
@[simp] theorem resetBlock_mtValid (s : State) :
    (resetBlock s).mtValid = State.reset.mtValid := rfl
@[simp] theorem resetBlock_mode (s : State) :
    (resetBlock s).mode = State.reset.mode := rfl
@[simp] theorem resetBlock_rc (s : State) :
    (resetBlock s).rc = State.reset.rc := rfl
@[simp] theorem resetBlock_mt (s : State) :
    (resetBlock s).mt = State.reset.mt := rfl
@[simp] theorem resetBlock_histA (s : State) :
    (resetBlock s).histA = State.reset.histA := rfl
@[simp] theorem resetBlock_histB (s : State) :
    (resetBlock s).histB = State.reset.histB := rfl
@[simp] theorem resetBlock_ring (s : State) :
    (resetBlock s).ring = State.reset.ring := rfl
@[simp] theorem resetBlock_io (s : State) :
    (resetBlock s).io = s.io := rfl

/-! ### takeInput -/

@[simp] theorem takeInput_latch (s : State) :
    (takeInput s).latch = s.latch := rfl
@[simp] theorem takeInput_res (s : State) :
    (takeInput s).res = s.res := rfl
@[simp] theorem takeInput_optVar (s : State) :
    (takeInput s).optVar = s.optVar := rfl
@[simp] theorem takeInput_mtValid (s : State) :
    (takeInput s).mtValid = s.mtValid := rfl
@[simp] theorem takeInput_mode (s : State) :
    (takeInput s).mode = s.mode := rfl
@[simp] theorem takeInput_rc (s : State) :
    (takeInput s).rc = s.rc := rfl
@[simp] theorem takeInput_mt (s : State) :
    (takeInput s).mt = s.mt := rfl
@[simp] theorem takeInput_histA (s : State) :
    (takeInput s).histA = s.histA := rfl
@[simp] theorem takeInput_histB (s : State) :
    (takeInput s).histB = s.histB := rfl
@[simp] theorem takeInput_ring (s : State) :
    (takeInput s).ring = s.ring := rfl
@[simp] theorem takeInput_io (s : State) :
    (takeInput s).io = { s.io with inputs := s.io.inputs.tail } := rfl

/-! ### presentFirst -/

@[simp] theorem presentFirst_latch (x : HostInput) (s : State) :
    (presentFirst x s).latch = s.latch := rfl
@[simp] theorem presentFirst_res (x : HostInput) (s : State) :
    (presentFirst x s).res = s.res := rfl
@[simp] theorem presentFirst_optVar (x : HostInput) (s : State) :
    (presentFirst x s).optVar = s.optVar := rfl
@[simp] theorem presentFirst_mtValid (x : HostInput) (s : State) :
    (presentFirst x s).mtValid = s.mtValid := rfl
@[simp] theorem presentFirst_mode (x : HostInput) (s : State) :
    (presentFirst x s).mode = s.mode := rfl
@[simp] theorem presentFirst_rc (x : HostInput) (s : State) :
    (presentFirst x s).rc = s.rc := rfl
@[simp] theorem presentFirst_mt (x : HostInput) (s : State) :
    (presentFirst x s).mt = s.mt := rfl
@[simp] theorem presentFirst_histA (x : HostInput) (s : State) :
    (presentFirst x s).histA = s.histA := rfl
@[simp] theorem presentFirst_histB (x : HostInput) (s : State) :
    (presentFirst x s).histB = s.histB := rfl
@[simp] theorem presentFirst_ring (x : HostInput) (s : State) :
    (presentFirst x s).ring = s.ring := rfl
@[simp] theorem presentFirst_io (x : HostInput) (s : State) :
    (presentFirst x s).io = { s.io with inputs := x :: s.io.inputs } := rfl

/-! ### respond -/

@[simp] theorem respond_latch (s : State) :
    (respond s).latch = s.latch := rfl
@[simp] theorem respond_res (s : State) :
    (respond s).res = s.res := rfl
@[simp] theorem respond_optVar (s : State) :
    (respond s).optVar = s.optVar := rfl
@[simp] theorem respond_mtValid (s : State) :
    (respond s).mtValid = s.mtValid := rfl
@[simp] theorem respond_mode (s : State) :
    (respond s).mode = s.mode := rfl
@[simp] theorem respond_rc (s : State) :
    (respond s).rc = s.rc := rfl
@[simp] theorem respond_mt (s : State) :
    (respond s).mt = s.mt := rfl
@[simp] theorem respond_histA (s : State) :
    (respond s).histA = s.histA := rfl
@[simp] theorem respond_histB (s : State) :
    (respond s).histB = s.histB := rfl
@[simp] theorem respond_ring (s : State) :
    (respond s).ring = s.ring := rfl
@[simp] theorem respond_io (s : State) :
    (respond s).io = { s.io with responses := s.io.responses ++ [responseOf s] } := rfl

/-! ### snkWrite -/

@[simp] theorem snkWrite_latch (o : Octet) (s : State) :
    (snkWrite o s).latch = s.latch := rfl
@[simp] theorem snkWrite_res (o : Octet) (s : State) :
    (snkWrite o s).res = s.res := rfl
@[simp] theorem snkWrite_optVar (o : Octet) (s : State) :
    (snkWrite o s).optVar = s.optVar := rfl
@[simp] theorem snkWrite_mtValid (o : Octet) (s : State) :
    (snkWrite o s).mtValid = s.mtValid := rfl
@[simp] theorem snkWrite_mode (o : Octet) (s : State) :
    (snkWrite o s).mode = s.mode := rfl
@[simp] theorem snkWrite_rc (o : Octet) (s : State) :
    (snkWrite o s).rc = { s.rc with snkCount := s.rc.snkCount + 1#32 } := rfl
@[simp] theorem snkWrite_mt (o : Octet) (s : State) :
    (snkWrite o s).mt = s.mt := rfl
@[simp] theorem snkWrite_histA (o : Octet) (s : State) :
    (snkWrite o s).histA = s.histA := rfl
@[simp] theorem snkWrite_histB (o : Octet) (s : State) :
    (snkWrite o s).histB = s.histB := rfl
@[simp] theorem snkWrite_ring (o : Octet) (s : State) :
    (snkWrite o s).ring = s.ring := rfl
@[simp] theorem snkWrite_io (o : Octet) (s : State) :
    (snkWrite o s).io = { s.io with sink := s.io.sink ++ [o] } := rfl

/-! ### shiftRange -/

@[simp] theorem shiftRange_latch (s : State) :
    (shiftRange s).latch = s.latch := rfl
@[simp] theorem shiftRange_res (s : State) :
    (shiftRange s).res = s.res := rfl
@[simp] theorem shiftRange_optVar (s : State) :
    (shiftRange s).optVar = s.optVar := rfl
@[simp] theorem shiftRange_mtValid (s : State) :
    (shiftRange s).mtValid = s.mtValid := rfl
@[simp] theorem shiftRange_mode (s : State) :
    (shiftRange s).mode = s.mode := rfl
@[simp] theorem shiftRange_rc (s : State) :
    (shiftRange s).rc = { s.rc with range := s.rc.range <<< 8 } := rfl
@[simp] theorem shiftRange_mt (s : State) :
    (shiftRange s).mt = s.mt := rfl
@[simp] theorem shiftRange_histA (s : State) :
    (shiftRange s).histA = s.histA := rfl
@[simp] theorem shiftRange_histB (s : State) :
    (shiftRange s).histB = s.histB := rfl
@[simp] theorem shiftRange_ring (s : State) :
    (shiftRange s).ring = s.ring := rfl
@[simp] theorem shiftRange_io (s : State) :
    (shiftRange s).io = s.io := rfl

/-! ### setRange -/

@[simp] theorem setRange_latch (x : Nat) (s : State) :
    (setRange x s).latch = s.latch := rfl
@[simp] theorem setRange_res (x : Nat) (s : State) :
    (setRange x s).res = s.res := rfl
@[simp] theorem setRange_optVar (x : Nat) (s : State) :
    (setRange x s).optVar = s.optVar := rfl
@[simp] theorem setRange_mtValid (x : Nat) (s : State) :
    (setRange x s).mtValid = s.mtValid := rfl
@[simp] theorem setRange_mode (x : Nat) (s : State) :
    (setRange x s).mode = s.mode := rfl
@[simp] theorem setRange_rc (x : Nat) (s : State) :
    (setRange x s).rc = { s.rc with range := BitVec.ofNat 32 x } := rfl
@[simp] theorem setRange_mt (x : Nat) (s : State) :
    (setRange x s).mt = s.mt := rfl
@[simp] theorem setRange_histA (x : Nat) (s : State) :
    (setRange x s).histA = s.histA := rfl
@[simp] theorem setRange_histB (x : Nat) (s : State) :
    (setRange x s).histB = s.histB := rfl
@[simp] theorem setRange_ring (x : Nat) (s : State) :
    (setRange x s).ring = s.ring := rfl
@[simp] theorem setRange_io (x : Nat) (s : State) :
    (setRange x s).io = s.io := rfl

/-! ### addToLow -/

@[simp] theorem addToLow_latch (x : Nat) (s : State) :
    (addToLow x s).latch = s.latch := rfl
@[simp] theorem addToLow_res (x : Nat) (s : State) :
    (addToLow x s).res = s.res := rfl
@[simp] theorem addToLow_optVar (x : Nat) (s : State) :
    (addToLow x s).optVar = s.optVar := rfl
@[simp] theorem addToLow_mtValid (x : Nat) (s : State) :
    (addToLow x s).mtValid = s.mtValid := rfl
@[simp] theorem addToLow_mode (x : Nat) (s : State) :
    (addToLow x s).mode = s.mode := rfl
@[simp] theorem addToLow_rc (x : Nat) (s : State) :
    (addToLow x s).rc = { s.rc with carry := s.rc.carry || decide (2 ^ 32 ≤ s.rc.low.toNat + x), low := BitVec.ofNat 32 (s.rc.low.toNat + x) } := rfl
@[simp] theorem addToLow_mt (x : Nat) (s : State) :
    (addToLow x s).mt = s.mt := rfl
@[simp] theorem addToLow_histA (x : Nat) (s : State) :
    (addToLow x s).histA = s.histA := rfl
@[simp] theorem addToLow_histB (x : Nat) (s : State) :
    (addToLow x s).histB = s.histB := rfl
@[simp] theorem addToLow_ring (x : Nat) (s : State) :
    (addToLow x s).ring = s.ring := rfl
@[simp] theorem addToLow_io (x : Nat) (s : State) :
    (addToLow x s).io = s.io := rfl

/-! ### shiftBoth -/

@[simp] theorem shiftBoth_latch (a b : Sample) (s : State) :
    (shiftBoth a b s).latch = s.latch := rfl
@[simp] theorem shiftBoth_res (a b : Sample) (s : State) :
    (shiftBoth a b s).res = s.res := rfl
@[simp] theorem shiftBoth_optVar (a b : Sample) (s : State) :
    (shiftBoth a b s).optVar = s.optVar := rfl
@[simp] theorem shiftBoth_mtValid (a b : Sample) (s : State) :
    (shiftBoth a b s).mtValid = s.mtValid := rfl
@[simp] theorem shiftBoth_mode (a b : Sample) (s : State) :
    (shiftBoth a b s).mode = s.mode := rfl
@[simp] theorem shiftBoth_rc (a b : Sample) (s : State) :
    (shiftBoth a b s).rc = s.rc := rfl
@[simp] theorem shiftBoth_mt (a b : Sample) (s : State) :
    (shiftBoth a b s).mt = s.mt := rfl
@[simp] theorem shiftBoth_histA (a b : Sample) (s : State) :
    (shiftBoth a b s).histA = shiftHistory s.histA a := rfl
@[simp] theorem shiftBoth_histB (a b : Sample) (s : State) :
    (shiftBoth a b s).histB = shiftHistory s.histB b := rfl
@[simp] theorem shiftBoth_ring (a b : Sample) (s : State) :
    (shiftBoth a b s).ring = s.ring := rfl
@[simp] theorem shiftBoth_io (a b : Sample) (s : State) :
    (shiftBoth a b s).io = s.io := rfl

/-! ### setHist -/

@[simp] theorem setHist_latch (s : State) (c : Channel) (h : History) :
    (setHist s c h).latch = s.latch := by cases c <;> rfl
@[simp] theorem setHist_res (s : State) (c : Channel) (h : History) :
    (setHist s c h).res = s.res := by cases c <;> rfl
@[simp] theorem setHist_optVar (s : State) (c : Channel) (h : History) :
    (setHist s c h).optVar = s.optVar := by cases c <;> rfl
@[simp] theorem setHist_mtValid (s : State) (c : Channel) (h : History) :
    (setHist s c h).mtValid = s.mtValid := by cases c <;> rfl
@[simp] theorem setHist_mode (s : State) (c : Channel) (h : History) :
    (setHist s c h).mode = s.mode := by cases c <;> rfl
@[simp] theorem setHist_rc (s : State) (c : Channel) (h : History) :
    (setHist s c h).rc = s.rc := by cases c <;> rfl
@[simp] theorem setHist_mt (s : State) (c : Channel) (h : History) :
    (setHist s c h).mt = s.mt := by cases c <;> rfl
@[simp] theorem setHist_ring (s : State) (c : Channel) (h : History) :
    (setHist s c h).ring = s.ring := by cases c <;> rfl
@[simp] theorem setHist_io (s : State) (c : Channel) (h : History) :
    (setHist s c h).io = s.io := by cases c <;> rfl
@[simp] theorem histOf_setHist_same (s : State) (c : Channel) (h : History) :
    histOf (setHist s c h) c = h := by cases c <;> rfl
theorem histOf_setHist_other (s : State) (c d : Channel) (h : History) (hd : d ≠ c) :
    histOf (setHist s c h) d = histOf s d := by cases c <;> cases d <;> first | rfl | exact absurd rfl hd

/-! ### Views of an updated state -/

@[simp] theorem faulted_raise (f : FaultCode) (i : Instr) (s : State) : faulted (raise f i s) = true := by
  cases f <;> rfl
@[simp] theorem faulted_raiseWord (f : FaultCode) (w : CmdWord) (s : State) :
    faulted (raiseWord f w s) = true := by cases f <;> rfl
@[simp] theorem faulted_resetBlock (s : State) : faulted (resetBlock s) = false := rfl
@[simp] theorem mtRead_setRes (s : State) (v : BitVec 32) (i : Nat) : mtRead (setRes s v) i = mtRead s i := rfl
@[simp] theorem responseOf_respond (s : State) : responseOf (respond s) = responseOf s := rfl

end Sys2Proof.Machine
end

