-- ==== Sys2Proof/Laws/Ops.lean ====
section
/-! SUPPORT. For each shared operation of Machine/Ops.lean and Machine/Operands.lean, one lemma that says everything
it can do; proofs cite these instead of unfolding the operation. -/
namespace Sys2Proof.Machine

/-! ### Gates -/

/-- A next state behind the faulted gate: the block was faulted and nothing changed, or it was not. -/
theorem unlessFaulted_next {s t : State} {k : Result} (h : unlessFaulted s k = .next t) :
    (faulted s = true ∧ t = s) ∨ (faulted s = false ∧ k = .next t) := by
  unfold unlessFaulted at h
  cases hf : faulted s
  · exact .inr ⟨rfl, by simpa [hf] using h⟩
  · exact .inl ⟨rfl, by simpa [hf, eq_comm] using h⟩

@[simp] theorem unlessFaulted_of_clear {s : State} (h : faulted s = false) (k : Result) :
    unlessFaulted s k = k := by simp [unlessFaulted, h]

@[simp] theorem unlessFaulted_of_faulted {s : State} (h : faulted s = true) (k : Result) :
    unlessFaulted s k = .next s := by simp [unlessFaulted, h]

/-- A next state behind a check: the check held, or the fault was taken. -/
theorem require_next {ok : Bool} {f : FaultCode} {i : Instr} {s t : State} {k : Result}
    (h : require ok f i s k = .next t) :
    (ok = true ∧ k = .next t) ∨ (ok = false ∧ t = raise f i s) := by
  unfold require at h
  cases ok
  · exact .inr ⟨rfl, by simpa [eq_comm] using h⟩
  · exact .inl ⟨rfl, by simpa using h⟩

@[simp] theorem require_true (f : FaultCode) (i : Instr) (s : State) (k : Result) :
    require true f i s k = k := rfl

@[simp] theorem require_false (f : FaultCode) (i : Instr) (s : State) (k : Result) :
    require false f i s k = .next (raise f i s) := rfl

/-- A next state behind an element access: the index is inside the allocation. -/
theorem withElement_next {r : Ring} {j : Nat} {t : State} {k : Result}
    (h : withElement r j k = .next t) : j < r.cells ∧ k = .next t := by
  unfold withElement at h
  by_cases hj : j < r.cells
  · exact ⟨hj, by simpa [hj] using h⟩
  · simp [hj] at h

@[simp] theorem withElement_of_lt {r : Ring} {j : Nat} (h : j < r.cells) (k : Result) :
    withElement r j k = k := by simp [withElement, h]

/-! ### Reading after the memory updates of State -/

/-- Everything a model-table write does to the table. -/
theorem mtRead_mtWrite (s : State) (i j : Nat) (p : Prob) :
    mtRead (mtWrite s i p) j = if j = i then p else mtRead s j :=
  Memory.read_write mtDefault s.mt i j p

/-- Everything a storage write does to the storage. -/
theorem stRead_stWrite (r : Ring) (i j : Nat) (v : Sample) :
    stRead (stWrite r i v) j = if j = i then v else stRead r j :=
  Memory.read_write stDefault r.st i j v

/-! ### Ports -/

/-- Everything a source read does: an octet of the source, or a free draw after its end. -/
theorem srcRead_cases (s : State) :
    (∃ o rest, s.io.source = o :: rest ∧ srcRead s = (o, { s with
      rc := { s.rc with srcCount := s.rc.srcCount + 1#32 }, io := { s.io with source := rest } })) ∨
    (s.io.source = [] ∧ srcRead s = (Config.eofOctet s.io.draws, { s with
      rc := { s.rc with srcCount := s.rc.srcCount + 1#32, srcEof := true }
      io := { s.io with draws := s.io.draws + 1 } })) := by
  unfold srcRead
  cases h : s.io.source with
  | nil => exact .inr ⟨rfl, rfl⟩
  | cons o rest => exact .inl ⟨o, rest, rfl, rfl⟩

/-- Everything a run of sink writes does. -/
theorem snkWriteRun_eq (o : Octet) (n : Nat) (s : State) :
    snkWriteRun o n s = { s with
      rc := { s.rc with snkCount := s.rc.snkCount + BitVec.ofNat 32 n }
      io := { s.io with sink := s.io.sink ++ List.replicate n o } } := by
  induction n generalizing s with
  | zero => simp [snkWriteRun]
  | succ n ih =>
    have hcount : s.rc.snkCount + 1#32 + BitVec.ofNat 32 n = s.rc.snkCount + BitVec.ofNat 32 (n + 1) := by
      apply BitVec.eq_of_toNat_eq
      simp [BitVec.toNat_add]
      omega
    simp [snkWriteRun, ih, snkWrite, hcount, List.replicate_succ]

/-- Everything returning a response can do. -/
theorem respondTo_next {r : Result} {t : State} (h : respondTo r = .next t) :
    ∃ u, r = .next u ∧ t = respond u := by
  cases r with
  | next u => exact ⟨u, rfl, by simpa [respondTo, eq_comm] using h⟩
  | fault f => simp [respondTo] at h
  | refused f => simp [respondTo] at h

/-- Everything abandoning a command can do. -/
theorem abandonTo_next {s t : State} {r : Result} (h : abandonTo s r = .next t) :
    ∃ u, r = .next u ∧ t = abandon s u := by
  cases r with
  | next u => exact ⟨u, rfl, by simpa [abandonTo, eq_comm] using h⟩
  | fault f => simp [abandonTo] at h
  | refused f => simp [abandonTo] at h

/-- An IllegalCommand entry, or the refusal by a faulted block. -/
theorem illegalCommand_next {w : CmdWord} {s t : State} (h : illegalCommand w s = .next t) :
    (faulted s = true ∧ t = s) ∨ (faulted s = false ∧ t = raiseWord .illegalCommand w s) := by
  rcases unlessFaulted_next h with h | ⟨hf, h⟩
  · exact .inl h
  · exact .inr ⟨hf, by simpa [eq_comm] using h⟩

/-- Everything one step can do: wait, execute a command word and respond, reset, or abandon a command. -/
theorem step_next {s t : State} (h : step s = .next t) :
    (s.io.inputs = [] ∧ t = s) ∨
    (∃ w rest u, s.io.inputs = .command w :: rest ∧ runWord w (takeInput s) = .next u ∧ t = respond u) ∨
    (∃ rest, s.io.inputs = .resetInput :: rest ∧ t = resetBlock (takeInput s)) ∨
    (∃ w rest u, s.io.inputs = .resetDuring w :: rest ∧ runWord w (takeInput s) = .next u ∧
      t = abandon (takeInput s) u) := by
  unfold step at h
  split at h
  · rename_i hi; exact .inl ⟨hi, by simpa [eq_comm] using h⟩
  · rename_i w rest hi
    obtain ⟨u, hu, ht⟩ := respondTo_next h
    exact .inr (.inl ⟨w, rest, u, hi, hu, ht⟩)
  · rename_i rest hi
    exact .inr (.inr (.inl ⟨rest, hi, by simpa [eq_comm] using h⟩))
  · rename_i w rest hi
    obtain ⟨u, hu, ht⟩ := abandonTo_next h
    exact .inr (.inr (.inr ⟨w, rest, u, hi, hu, ht⟩))

end Sys2Proof.Machine
end

