-- ==== Sys2Proof/Laws/Coder.lean ====
section
/-! SUPPORT. What the range coder's procedures can do: each changes the coder registers and the octet ports and
nothing else, and what the carry pipeline writes. -/
namespace Sys2Proof.Machine

/-- `t` differs from `s` at most in the coder registers and the octet ports. -/
def SameOutsideCoder (s t : State) : Prop :=
  t = { s with
    rc := t.rc
    io := { s.io with source := t.io.source, sink := t.io.sink, draws := t.io.draws } }

theorem SameOutsideCoder.refl (s : State) : SameOutsideCoder s s := rfl

theorem SameOutsideCoder.trans {s t u : State} (h : SameOutsideCoder s t) (k : SameOutsideCoder t u) :
    SameOutsideCoder s u := by
  unfold SameOutsideCoder at *
  rw [k, h]

theorem sameOutsideCoder_setRange (x : Nat) (s : State) : SameOutsideCoder s (setRange x s) := rfl
theorem sameOutsideCoder_shiftRange (s : State) : SameOutsideCoder s (shiftRange s) := rfl
theorem sameOutsideCoder_addToLow (x : Nat) (s : State) : SameOutsideCoder s (addToLow x s) := rfl
theorem sameOutsideCoder_snkWrite (o : Octet) (s : State) : SameOutsideCoder s (snkWrite o s) := rfl

theorem sameOutsideCoder_snkWriteRun (o : Octet) (n : Nat) (s : State) :
    SameOutsideCoder s (snkWriteRun o n s) := by rw [snkWriteRun_eq]; rfl

theorem sameOutsideCoder_srcRead (s : State) : SameOutsideCoder s (srcRead s).2 := by
  rcases srcRead_cases s with ⟨o, rest, -, h⟩ | ⟨-, h⟩ <;> rw [h] <;> rfl

/-- The octets the pipeline releases when the carry is known (R162). -/
def releasedOctets (c : Coder) : List Octet :=
  (if c.heldValid then [c.held + (BitVec.ofBool c.carry).setWidth 8] else []) ++
    List.replicate c.ffRun (0xFF#8 + (BitVec.ofBool c.carry).setWidth 8)

/-- Everything releasing the kept octets does. -/
theorem writePending_eq (s : State) :
    writePending s = { s with
      rc := { s.rc with snkCount := s.rc.snkCount + BitVec.ofNat 32 (releasedOctets s.rc).length }
      io := { s.io with sink := s.io.sink ++ releasedOctets s.rc } } := by
  unfold writePending
  rw [snkWriteRun_eq]
  cases h : s.rc.heldValid
  · simp [releasedOctets, h]
  · have hcount : s.rc.snkCount + 1#32 + BitVec.ofNat 32 s.rc.ffRun =
        s.rc.snkCount + BitVec.ofNat 32 (s.rc.ffRun + 1) := by
      apply BitVec.eq_of_toNat_eq
      simp [BitVec.toNat_add]
      omega
    simp [releasedOctets, h, snkWrite, hcount]

/-- Everything `ShiftOut` does: the pipeline is released and refilled, or the 0xFF octet is counted. -/
theorem shiftOut_cases (s : State) :
    ((s.rc.low.toNat < 0xFF000000 ∨ s.rc.carry = true) ∧ shiftOut s = { s with
      rc := { s.rc with
        snkCount := s.rc.snkCount + BitVec.ofNat 32 (releasedOctets s.rc).length
        ffRun := 0, held := s.rc.low.extractLsb' 24 8, heldValid := true, carry := false
        low := s.rc.low <<< 8 }
      io := { s.io with sink := s.io.sink ++ releasedOctets s.rc } }) ∨
    (¬ (s.rc.low.toNat < 0xFF000000 ∨ s.rc.carry = true) ∧ shiftOut s = { s with
      rc := { s.rc with ffRun := s.rc.ffRun + 1, carry := false, low := s.rc.low <<< 8 } }) := by
  by_cases h : s.rc.low.toNat < 0xFF000000 ∨ s.rc.carry = true
  · exact .inl ⟨h, by simp only [shiftOut, if_pos h, writePending_eq]⟩
  · exact .inr ⟨h, by simp only [shiftOut, if_neg h]⟩

theorem sameOutsideCoder_shiftOut (s : State) : SameOutsideCoder s (shiftOut s) := by
  rcases shiftOut_cases s with ⟨-, h⟩ | ⟨-, h⟩ <;> rw [h] <;> rfl

theorem sameOutsideCoder_shiftOutRun (n : Nat) (s : State) : SameOutsideCoder s (shiftOutRun n s) := by
  induction n generalizing s with
  | zero => exact .refl s
  | succ n ih => exact (sameOutsideCoder_shiftOut s).trans (ih _)

/-- Everything `Drain` does. -/
theorem drain_eq (s : State) :
    drain s = { s with
      rc := { s.rc with
        snkCount := s.rc.snkCount + BitVec.ofNat 32 (s.rc.heldValid.toNat + s.rc.ffRun)
        heldValid := false, held := 0#8, ffRun := 0 }
      io := { s.io with sink := s.io.sink ++
        ((if s.rc.heldValid then [s.rc.held] else []) ++ List.replicate s.rc.ffRun 0xFF#8) } } := by
  simp only [drain, snkWriteRun_eq]
  cases h : s.rc.heldValid
  · simp
  · have hcount : s.rc.snkCount + 1#32 + BitVec.ofNat 32 s.rc.ffRun =
        s.rc.snkCount + BitVec.ofNat 32 (1 + s.rc.ffRun) := by
      apply BitVec.eq_of_toNat_eq
      simp [BitVec.toNat_add]
      omega
    simp [snkWrite, hcount]

theorem sameOutsideCoder_drain (s : State) : SameOutsideCoder s (drain s) := by rw [drain_eq]; rfl

theorem sameOutsideCoder_encNormalizeLoop (n : Nat) (s : State) :
    SameOutsideCoder s (encNormalizeLoop n s) := by
  induction n generalizing s with
  | zero => exact .refl s
  | succ n ih =>
    unfold encNormalizeLoop
    split
    · exact ((sameOutsideCoder_shiftOut s).trans (sameOutsideCoder_shiftRange _)).trans (ih _)
    · exact .refl s

theorem sameOutsideCoder_encNormalize (s : State) : SameOutsideCoder s (encNormalize s) :=
  sameOutsideCoder_encNormalizeLoop _ s

theorem sameOutsideCoder_encInterval (p : Nat) (bit : Bool) (s : State) :
    SameOutsideCoder s (encInterval p bit s) := by cases bit <;> rfl

theorem sameOutsideCoder_encBit (p : Nat) (bit : Bool) (s : State) : SameOutsideCoder s (encBit p bit s) :=
  (sameOutsideCoder_encInterval p bit s).trans (sameOutsideCoder_encNormalize _)

theorem sameOutsideCoder_encDirectInterval (bit : Bool) (s : State) :
    SameOutsideCoder s (encDirectInterval bit s) := by cases bit <;> rfl

theorem sameOutsideCoder_encDirectBit (bit : Bool) (s : State) : SameOutsideCoder s (encDirectBit bit s) :=
  (sameOutsideCoder_encDirectInterval bit s).trans (sameOutsideCoder_encNormalize _)

theorem sameOutsideCoder_readIntoCode (s : State) : SameOutsideCoder s (readIntoCode s) := by
  unfold readIntoCode
  rcases srcRead_cases s with ⟨o, rest, -, h⟩ | ⟨-, h⟩ <;> rw [h] <;> rfl

theorem sameOutsideCoder_readIntoCodeRun (n : Nat) (s : State) : SameOutsideCoder s (readIntoCodeRun n s) := by
  induction n generalizing s with
  | zero => exact .refl s
  | succ n ih => exact (sameOutsideCoder_readIntoCode s).trans (ih _)

theorem sameOutsideCoder_decNormalizeLoop (n : Nat) (s : State) :
    SameOutsideCoder s (decNormalizeLoop n s) := by
  induction n generalizing s with
  | zero => exact .refl s
  | succ n ih =>
    unfold decNormalizeLoop
    split
    · exact ((sameOutsideCoder_readIntoCode s).trans (sameOutsideCoder_shiftRange _)).trans (ih _)
    · exact .refl s

theorem sameOutsideCoder_decNormalize (s : State) : SameOutsideCoder s (decNormalize s) :=
  sameOutsideCoder_decNormalizeLoop _ s

/-- Everything the interval test of a modelled bit does. -/
theorem decInterval_cases (p : Nat) (s : State) :
    (s.rc.code.toNat < partition s.rc.range p ∧
      decInterval p s = (false, setRange (partition s.rc.range p) s)) ∨
    (partition s.rc.range p ≤ s.rc.code.toNat ∧ decInterval p s = (true, { s with rc := { s.rc with
      code := BitVec.ofNat 32 (s.rc.code.toNat - partition s.rc.range p)
      range := BitVec.ofNat 32 (s.rc.range.toNat - partition s.rc.range p) } })) := by
  by_cases h : s.rc.code.toNat < partition s.rc.range p
  · exact .inl ⟨h, by simp only [decInterval, if_pos h]⟩
  · exact .inr ⟨by omega, by simp only [decInterval, if_neg h]⟩

theorem sameOutsideCoder_decInterval (p : Nat) (s : State) : SameOutsideCoder s (decInterval p s).2 := by
  rcases decInterval_cases p s with ⟨-, h⟩ | ⟨-, h⟩ <;> rw [h] <;> rfl

theorem sameOutsideCoder_decBit (p : Nat) (s : State) : SameOutsideCoder s (decBit p s).2 :=
  (sameOutsideCoder_decInterval p s).trans (sameOutsideCoder_decNormalize _)

/-- Everything the interval test of a direct bit does. -/
theorem decDirectInterval_cases (s : State) :
    (s.rc.code.toNat < s.rc.range.toNat / 2 ∧
      decDirectInterval s = (false, setRange (s.rc.range.toNat / 2) s)) ∨
    (s.rc.range.toNat / 2 ≤ s.rc.code.toNat ∧ decDirectInterval s = (true, { s with rc := { s.rc with
      code := BitVec.ofNat 32 (s.rc.code.toNat - s.rc.range.toNat / 2)
      range := BitVec.ofNat 32 (s.rc.range.toNat / 2) } })) := by
  by_cases h : s.rc.code.toNat < s.rc.range.toNat / 2
  · exact .inl ⟨h, by simp only [decDirectInterval, if_pos h]⟩
  · exact .inr ⟨by omega, by simp only [decDirectInterval, if_neg h]⟩

theorem sameOutsideCoder_decDirectInterval (s : State) : SameOutsideCoder s (decDirectInterval s).2 := by
  rcases decDirectInterval_cases s with ⟨-, h⟩ | ⟨-, h⟩ <;> rw [h] <;> rfl

theorem sameOutsideCoder_decDirectBit (s : State) : SameOutsideCoder s (decDirectBit s).2 :=
  (sameOutsideCoder_decDirectInterval s).trans (sameOutsideCoder_decNormalize _)

end Sys2Proof.Machine
end

