-- ==== Sys2Proof/Laws/Codec.lean ====
section
/-! SUPPORT. What the residual coder can do: it changes the coder registers, the octet ports and the model table,
and nothing else. -/
namespace Sys2Proof.Machine

/-- `t` differs from `s` at most in the coder registers, the octet ports and the model table. -/
def SameOutsideCodec (s t : State) : Prop :=
  t = { s with
    rc := t.rc
    mt := t.mt
    io := { s.io with source := t.io.source, sink := t.io.sink, draws := t.io.draws } }

theorem SameOutsideCodec.refl (s : State) : SameOutsideCodec s s := rfl

theorem SameOutsideCodec.trans {s t u : State} (h : SameOutsideCodec s t) (k : SameOutsideCodec t u) :
    SameOutsideCodec s u := by
  unfold SameOutsideCodec at *
  rw [k, h]

theorem SameOutsideCoder.toCodec {s t : State} (h : SameOutsideCoder s t) : SameOutsideCodec s t := by
  unfold SameOutsideCoder at h
  unfold SameOutsideCodec
  rw [h]

theorem sameOutsideCodec_mtWrite (s : State) (i : Nat) (p : Prob) : SameOutsideCodec s (mtWrite s i p) := rfl

theorem sameOutsideCodec_mtUpdate (s : State) (i : Nat) (bit : Bool) : SameOutsideCodec s (mtUpdate s i bit) := rfl

/-- Everything updating an entry does to the table. -/
theorem mtRead_mtUpdate (s : State) (i j : Nat) (bit : Bool) :
    mtRead (mtUpdate s i bit) j =
      if j = i then BitVec.ofNat 13 (update (mtRead s i).toNat bit) else mtRead s j :=
  mtRead_mtWrite s i j _

theorem sameOutsideCodec_encModelStep (c : Channel) (ctx : Nat) (bit : Bool) (s : State) :
    SameOutsideCodec s (encModelStep c ctx bit s) :=
  (sameOutsideCoder_encBit _ bit s).toCodec.trans (sameOutsideCodec_mtUpdate _ _ bit)

theorem sameOutsideCodec_encWalk (c : Channel) (bits : List Bool) (ctx : Nat) (s : State) :
    SameOutsideCodec s (encWalk c bits ctx s) := by
  induction bits generalizing ctx s with
  | nil => exact .refl s
  | cons bit bits ih => exact (sameOutsideCodec_encModelStep c ctx bit s).trans (ih _ _)

theorem sameOutsideCoder_encDirectBits (bits : List Bool) (s : State) :
    SameOutsideCoder s (encDirectBits bits s) := by
  induction bits generalizing s with
  | nil => exact .refl s
  | cons bit bits ih => exact (sameOutsideCoder_encDirectBit bit s).trans (ih _)

theorem sameOutsideCodec_encResidual (c : Channel) (r : Sample) (s : State) :
    SameOutsideCodec s (encResidual c r s) :=
  (sameOutsideCodec_encWalk c _ 1 s).trans (sameOutsideCoder_encDirectBits _ _).toCodec

theorem sameOutsideCodec_decModelStep (c : Channel) (ctx : Nat) (s : State) :
    SameOutsideCodec s (decModelStep c ctx s).2 :=
  ((sameOutsideCoder_decInterval _ s).toCodec.trans (sameOutsideCodec_mtUpdate _ _ _)).trans
    (sameOutsideCoder_decNormalize _).toCodec

theorem sameOutsideCodec_decWalk (c : Channel) (n ctx : Nat) (s : State) :
    SameOutsideCodec s (decWalk c n ctx s).2 := by
  induction n generalizing ctx s with
  | zero => exact .refl s
  | succ n ih => exact (sameOutsideCodec_decModelStep c ctx s).trans (ih _ _)

theorem sameOutsideCoder_decDirectBits (n ctx : Nat) (s : State) :
    SameOutsideCoder s (decDirectBits n ctx s).2 := by
  induction n generalizing ctx s with
  | zero => exact .refl s
  | succ n ih => exact (sameOutsideCoder_decDirectBit s).trans (ih _ _)

theorem sameOutsideCodec_decResidual (c : Channel) (s : State) : SameOutsideCodec s (decResidual c s).2 :=
  (sameOutsideCodec_decWalk c _ 1 s).trans (sameOutsideCoder_decDirectBits _ _ _).toCodec

end Sys2Proof.Machine
end

