-- ==== Sys2Proof/Laws/Decode.lean ====
section
/-! SUPPORT. The two fields of an assembled word, and what accepting a layout can answer. -/
namespace Sys2Proof

theorem opcodeOf_commandWord (op : BitVec 8) (arg : BitVec 32) : opcodeOf (commandWord op arg) = op :=
  BitVec.extractLsb'_append_eq_left (a := op) (b := arg)

theorem argOf_commandWord (op : BitVec 8) (arg : BitVec 32) : argOf (commandWord op arg) = arg :=
  BitVec.extractLsb'_append_eq_right (a := op) (b := arg)

/-- A word is its opcode followed by its operand field. -/
theorem commandWord_fields (w : CmdWord) : commandWord (opcodeOf w) (argOf w) = w := by
  apply BitVec.eq_of_getLsbD_eq
  intro i hi
  change ((w.extractLsb' 32 8) ++ (w.extractLsb' 0 32)).getLsbD i = w.getLsbD i
  rw [BitVec.getLsbD_append]
  by_cases h : i < 32
  · simp [h]
  · have : 32 + (i - 32) = i := by omega
    simp [h, this, show i - 32 < 8 by omega]

/-- What accepting can answer: the command when the zero bits are 0, else the error. -/
theorem accept_ok {zero arg : BitVec 32} {i j : Instr} :
    accept zero arg i = .ok j ↔ arg &&& zero = 0#32 ∧ i = j := by
  unfold accept
  by_cases h : arg &&& zero = 0#32 <;> simp [h]

@[simp] theorem channelOf_channelBit (c : Channel) : channelOf (channelBit c) = c := by cases c <;> rfl
@[simp] theorem channelBit_channelOf (b : Bool) : channelBit (channelOf b) = b := by cases b <;> rfl

end Sys2Proof
end

