-- ==== Sys2Proof/Laws/PerInstr.lean ====
section
/-! SUPPORT. The per-instruction family EncodeOpcode: a command's word carries its opcode in bits 39:32 and its
operand field in bits 31:0 (spec/30_encoding.md R90). -/
namespace Sys2Proof.Laws

/-- The word of the command has the command's opcode and operand field. -/
def EncodeOpcode.Statement (i : Instr) : Prop :=
  opcodeOf (encode i) = opcode i ∧ argOf (encode i) = operandField i

theorem EncodeOpcode.general (i : Instr) : EncodeOpcode.Statement i :=
  ⟨opcodeOf_commandWord _ _, argOf_commandWord _ _⟩

theorem EncodeOpcode.cbResize (n : BitVec 24) (pad : BitVec 8) : EncodeOpcode.Statement (Instr.cbResize n pad) :=
  EncodeOpcode.general _
theorem EncodeOpcode.cbPush (v : BitVec 16) : EncodeOpcode.Statement (Instr.cbPush v) :=
  EncodeOpcode.general _
theorem EncodeOpcode.cbGet (off : BitVec 32) : EncodeOpcode.Statement (Instr.cbGet off) :=
  EncodeOpcode.general _
theorem EncodeOpcode.cbGetu (off : BitVec 32) : EncodeOpcode.Statement (Instr.cbGetu off) :=
  EncodeOpcode.general _
theorem EncodeOpcode.cbFill (v : BitVec 16) : EncodeOpcode.Statement (Instr.cbFill v) :=
  EncodeOpcode.general _
theorem EncodeOpcode.cbRelease : EncodeOpcode.Statement (Instr.cbRelease) :=
  EncodeOpcode.general _
theorem EncodeOpcode.cbPrev (p : BitVec 16) (k : BitVec 16) : EncodeOpcode.Statement (Instr.cbPrev p k) :=
  EncodeOpcode.general _
theorem EncodeOpcode.cbNext (p : BitVec 16) (k : BitVec 16) : EncodeOpcode.Statement (Instr.cbNext p k) :=
  EncodeOpcode.general _
theorem EncodeOpcode.cbCopyS2e (k : BitVec 24) : EncodeOpcode.Statement (Instr.cbCopyS2e k) :=
  EncodeOpcode.general _
theorem EncodeOpcode.cbCopyE2s (k : BitVec 24) : EncodeOpcode.Statement (Instr.cbCopyE2s k) :=
  EncodeOpcode.general _
theorem EncodeOpcode.dqPushBack (v : BitVec 16) : EncodeOpcode.Statement (Instr.dqPushBack v) :=
  EncodeOpcode.general _
theorem EncodeOpcode.dqPopFront (k : BitVec 24) : EncodeOpcode.Statement (Instr.dqPopFront k) :=
  EncodeOpcode.general _
theorem EncodeOpcode.dqFront : EncodeOpcode.Statement (Instr.dqFront) :=
  EncodeOpcode.general _
theorem EncodeOpcode.dqGet (off : BitVec 32) : EncodeOpcode.Statement (Instr.dqGet off) :=
  EncodeOpcode.general _
theorem EncodeOpcode.dqCapacity : EncodeOpcode.Statement (Instr.dqCapacity) :=
  EncodeOpcode.general _
theorem EncodeOpcode.dqSize : EncodeOpcode.Statement (Instr.dqSize) :=
  EncodeOpcode.general _
theorem EncodeOpcode.dqFull : EncodeOpcode.Statement (Instr.dqFull) :=
  EncodeOpcode.general _
theorem EncodeOpcode.mtInit : EncodeOpcode.Statement (Instr.mtInit) :=
  EncodeOpcode.general _
theorem EncodeOpcode.bmInit (idx : BitVec 16) : EncodeOpcode.Statement (Instr.bmInit idx) :=
  EncodeOpcode.general _
theorem EncodeOpcode.bmGetp (idx : BitVec 16) : EncodeOpcode.Statement (Instr.bmGetp idx) :=
  EncodeOpcode.general _
theorem EncodeOpcode.bmUpdate (idx : BitVec 16) (bit : Bool) : EncodeOpcode.Statement (Instr.bmUpdate idx bit) :=
  EncodeOpcode.general _
theorem EncodeOpcode.rcInitEnc : EncodeOpcode.Statement (Instr.rcInitEnc) :=
  EncodeOpcode.general _
theorem EncodeOpcode.rcInitDec : EncodeOpcode.Statement (Instr.rcInitDec) :=
  EncodeOpcode.general _
theorem EncodeOpcode.rcEnc (p : BitVec 13) (bit : Bool) : EncodeOpcode.Statement (Instr.rcEnc p bit) :=
  EncodeOpcode.general _
theorem EncodeOpcode.rcEncDirect (bit : Bool) : EncodeOpcode.Statement (Instr.rcEncDirect bit) :=
  EncodeOpcode.general _
theorem EncodeOpcode.rcDec (p : BitVec 13) : EncodeOpcode.Statement (Instr.rcDec p) :=
  EncodeOpcode.general _
theorem EncodeOpcode.rcDecDirect : EncodeOpcode.Statement (Instr.rcDecDirect) :=
  EncodeOpcode.general _
theorem EncodeOpcode.rcFlush : EncodeOpcode.Statement (Instr.rcFlush) :=
  EncodeOpcode.general _
theorem EncodeOpcode.prInit : EncodeOpcode.Statement (Instr.prInit) :=
  EncodeOpcode.general _
theorem EncodeOpcode.prPredict (c : Channel) : EncodeOpcode.Statement (Instr.prPredict c) :=
  EncodeOpcode.general _
theorem EncodeOpcode.prResidual (c : Channel) (v : BitVec 16) : EncodeOpcode.Statement (Instr.prResidual c v) :=
  EncodeOpcode.general _
theorem EncodeOpcode.prRecon (c : Channel) (v : BitVec 16) : EncodeOpcode.Statement (Instr.prRecon c v) :=
  EncodeOpcode.general _
theorem EncodeOpcode.prShift (c : Channel) (v : BitVec 16) : EncodeOpcode.Statement (Instr.prShift c v) :=
  EncodeOpcode.general _
theorem EncodeOpcode.cxEncRes (c : Channel) (v : BitVec 16) : EncodeOpcode.Statement (Instr.cxEncRes c v) :=
  EncodeOpcode.general _
theorem EncodeOpcode.cxDecRes (c : Channel) : EncodeOpcode.Statement (Instr.cxDecRes c) :=
  EncodeOpcode.general _
theorem EncodeOpcode.cxEncFrame (a : BitVec 16) (b : BitVec 16) : EncodeOpcode.Statement (Instr.cxEncFrame a b) :=
  EncodeOpcode.general _
theorem EncodeOpcode.cxDecFrame : EncodeOpcode.Statement (Instr.cxDecFrame) :=
  EncodeOpcode.general _
theorem EncodeOpcode.rdReg (n : BitVec 8) : EncodeOpcode.Statement (Instr.rdReg n) :=
  EncodeOpcode.general _
theorem EncodeOpcode.setOpt (val : BitVec 32) : EncodeOpcode.Statement (Instr.setOpt val) :=
  EncodeOpcode.general _
theorem EncodeOpcode.reset : EncodeOpcode.Statement (Instr.reset) :=
  EncodeOpcode.general _

end Sys2Proof.Laws
end

