-- ==== Sys2Proof/Machine/Assembler.lean ====
section
/-! DEFINITION. The assembler syntax (spec/30_encoding.md R96) and the pseudo-instructions written in it (R97).
COMPRESS and DECOMPRESS have no source notation here, only their expansions in Machine/Procedures.lean.
A host tool: no step of the machine uses it (log 16). -/
namespace Sys2Proof.Machine

/-- A decimal digit, or a hexadecimal one when `hex` is set. -/
def digitOf (hex : Bool) (c : Char) : Option Nat :=
  if '0' ≤ c ∧ c ≤ '9' then some (c.toNat - '0'.toNat)
  else if hex = true ∧ 'A' ≤ c ∧ c ≤ 'F' then some (c.toNat - 'A'.toNat + 10)
  else if hex = true ∧ 'a' ≤ c ∧ c ≤ 'f' then some (c.toNat - 'a'.toNat + 10)
  else none

/-- Digits after a value read so far. -/
def digitsFrom (hex : Bool) : List Char → Nat → Option Nat
  | [], acc => some acc
  | c :: cs, acc =>
    match digitOf hex c with
    | some d => digitsFrom hex cs ((if hex then 16 else 10) * acc + d)
    | none => none

/-- A number: decimal or `0x` hexadecimal (R96). -/
def naturalOf : List Char → Option Nat
  | '0' :: 'x' :: c :: cs => digitsFrom true (c :: cs) 0
  | c :: cs => digitsFrom false (c :: cs) 0
  | [] => none

/-- A number with an optional minus sign (R96). -/
def integerOf : List Char → Option Int
  | '-' :: cs => (naturalOf cs).map (fun n => -(n : Int))
  | cs => (naturalOf cs).map (fun n => (n : Int))

/-- A blank between words. -/
def isBlank (c : Char) : Bool := c == ' ' || c == '\t'

/-- Drop blanks at both ends. -/
def trim (cs : List Char) : List Char :=
  ((cs.dropWhile isBlank).reverse.dropWhile isBlank).reverse

/-- The text before a comment (R96). -/
def beforeComment (cs : List Char) : List Char := cs.takeWhile (fun c => c != ';')

/-- The operands, separated by commas (R96). -/
def operandsFrom : List Char → List Char → List (List Char)
  | [], cur => [trim cur.reverse]
  | c :: cs, cur => if c == ',' then trim cur.reverse :: operandsFrom cs [] else operandsFrom cs (c :: cur)

/-- Every operand's number; none when one of them is no number. -/
def integersOf : List (List Char) → Option (List Int)
  | [] => some []
  | t :: ts =>
    match integerOf t, integersOf ts with
    | some x, some xs => some (x :: xs)
    | _, _ => none

/-- An operand that fits its field (R92). -/
def field (w : Nat) (x : Int) : Option (BitVec w) :=
  if 0 ≤ x ∧ x < 2 ^ w then some (BitVec.ofInt w x) else none

/-- The signed operand of CB_GETU, assembled as 32-bit two's complement (R96). -/
def signedField (x : Int) : Option (BitVec 32) :=
  if -(2 ^ 31) ≤ x ∧ x < 2 ^ 32 then some (BitVec.ofInt 32 x) else none

/-- A one-bit operand. -/
def bitField (x : Int) : Option Bool := if x = 0 then some false else if x = 1 then some true else none

/-- A channel operand. -/
def channelField (x : Int) : Option Channel := (bitField x).map channelOf

/-! One shape per operand list. -/

def shape0 (i : Instr) : List Int → Option Instr
  | [] => some i
  | _ => none

def shape1 {α : Type} (f : Int → Option α) (i : α → Instr) : List Int → Option Instr
  | [x] => (f x).map i
  | _ => none

def shape2 {α β : Type} (f : Int → Option α) (g : Int → Option β) (i : α → β → Instr) :
    List Int → Option Instr
  | [x, y] => (f x).bind (fun a => (g y).map (fun b => i a b))
  | _ => none

/-- `CB_RESIZE n` takes the source's default `pad = 4` (R96). -/
def shapeResize : List Int → Option Instr
  | [n] => (field 24 n).map (fun v => .cbResize v 4#8)
  | xs => shape2 (field 24) (field 8) .cbResize xs

/-- `DQ_POP_FRONT` takes the source's default `k = 1` (R96). -/
def shapePop : List Int → Option Instr
  | [] => some (.dqPopFront 1#24)
  | xs => shape1 (field 24) .dqPopFront xs

/-- The operands of each mnemonic, in the order R93 lists them. -/
def operandShape (name : List Char) (xs : List Int) : Option Instr :=
  if name = "CB_RESIZE".toList then shapeResize xs
  else if name = "CB_PUSH".toList then shape1 (field 16) .cbPush xs
  else if name = "CB_GET".toList then shape1 (field 32) .cbGet xs
  else if name = "CB_GETU".toList then shape1 signedField .cbGetu xs
  else if name = "CB_FILL".toList then shape1 (field 16) .cbFill xs
  else if name = "CB_RELEASE".toList then shape0 .cbRelease xs
  else if name = "CB_PREV".toList then shape2 (field 16) (field 16) .cbPrev xs
  else if name = "CB_NEXT".toList then shape2 (field 16) (field 16) .cbNext xs
  else if name = "CB_COPY_S2E".toList then shape1 (field 24) .cbCopyS2e xs
  else if name = "CB_COPY_E2S".toList then shape1 (field 24) .cbCopyE2s xs
  else if name = "DQ_PUSH_BACK".toList then shape1 (field 16) .dqPushBack xs
  else if name = "DQ_POP_FRONT".toList then shapePop xs
  else if name = "DQ_FRONT".toList then shape0 .dqFront xs
  else if name = "DQ_GET".toList then shape1 (field 32) .dqGet xs
  else if name = "DQ_CAPACITY".toList then shape0 .dqCapacity xs
  else if name = "DQ_SIZE".toList then shape0 .dqSize xs
  else if name = "DQ_FULL".toList then shape0 .dqFull xs
  else if name = "MT_INIT".toList then shape0 .mtInit xs
  else if name = "BM_INIT".toList then shape1 (field 16) .bmInit xs
  else if name = "BM_GETP".toList then shape1 (field 16) .bmGetp xs
  else if name = "BM_UPDATE".toList then shape2 (field 16) bitField .bmUpdate xs
  else if name = "RC_INIT_ENC".toList then shape0 .rcInitEnc xs
  else if name = "RC_INIT_DEC".toList then shape0 .rcInitDec xs
  else if name = "RC_ENC".toList then shape2 (field 13) bitField .rcEnc xs
  else if name = "RC_ENC_DIRECT".toList then shape1 bitField .rcEncDirect xs
  else if name = "RC_DEC".toList then shape1 (field 13) .rcDec xs
  else if name = "RC_DEC_DIRECT".toList then shape0 .rcDecDirect xs
  else if name = "RC_FLUSH".toList then shape0 .rcFlush xs
  else if name = "PR_INIT".toList then shape0 .prInit xs
  else if name = "PR_PREDICT".toList then shape1 channelField .prPredict xs
  else if name = "PR_RESIDUAL".toList then shape2 channelField (field 16) .prResidual xs
  else if name = "PR_RECON".toList then shape2 channelField (field 16) .prRecon xs
  else if name = "PR_SHIFT".toList then shape2 channelField (field 16) .prShift xs
  else if name = "CX_ENC_RES".toList then shape2 channelField (field 16) .cxEncRes xs
  else if name = "CX_DEC_RES".toList then shape1 channelField .cxDecRes xs
  else if name = "CX_ENC_FRAME".toList then shape2 (field 16) (field 16) .cxEncFrame xs
  else if name = "CX_DEC_FRAME".toList then shape0 .cxDecFrame xs
  else if name = "RD_REG".toList then shape1 (field 8) .rdReg xs
  else if name = "SET_OPT".toList then shape1 (field 32) .setOpt xs
  else if name = "RESET".toList then shape0 .reset xs
  else none

/-- Every value of PUSHN as an element. -/
def elementsOf : List Int → Option (List Sample)
  | [] => some []
  | x :: xs =>
    match field 16 x, elementsOf xs with
    | some v, some vs => some (v :: vs)
    | _, _ => none

/-- A mnemonic with its operands: a command, or the expansion of a pseudo-instruction; `ringSize` is the
`n` of the governing CB_RESIZE (R97). DESIGN CHOICE (log 16): R97 does not say how the octet sequence of
COMPRESS S stands in source text, so lines with COMPRESS and DECOMPRESS are not assembled and answer `none`;
their expansions are the functions `compress` and `decompress`. -/
def assembleCommand (ringSize : Nat) (name : List Char) (xs : List Int) : Option (List Instr) :=
  if name = "PUSHN".toList then (elementsOf xs).bind (pushN ringSize)
  else if name = "CODEC_INIT_ENC".toList then (if xs = [] then some codecInitEnc else none)
  else if name = "CODEC_INIT_DEC".toList then (if xs = [] then some codecInitDec else none)
  else (operandShape name xs).map (fun i => [i])

/-- One source line (R96): at most one command and a comment; `some []` for a line without a command. -/
def assembleLine (ringSize : Nat) (line : String) : Option (List Instr) :=
  let body := trim (beforeComment line.toList)
  let name := body.takeWhile (fun c => !isBlank c)
  let rest := trim (body.dropWhile (fun c => !isBlank c))
  if body = [] then some []
  else if rest = [] then assembleCommand ringSize name []
  else (integersOf (operandsFrom rest [])).bind (assembleCommand ringSize name)

/-- The hexadecimal digit of a nibble. -/
def hexDigit (v : BitVec 4) : Char :=
  if v.toNat < 10 then Char.ofNat ('0'.toNat + v.toNat) else Char.ofNat ('A'.toNat + (v.toNat - 10))

/-- A command word as ten hexadecimal digits (R96). -/
def wordDigits (w : CmdWord) : List Char :=
  (List.range 10).map (fun k => hexDigit (w.extractLsb' (36 - 4 * k) 4))

end Sys2Proof.Machine
end

