-- ==== Sys2Proof/Tests/Slice0.lean ====
section
/-! SUPPORT. The model's own tests. Expected values are the ones printed in spec/95_test_vectors.md (the part is
named with each group) or computed by hand from the rule named; none is the model's own answer pasted back. The last
part holds one witness for every statement that has hypotheses, with its clauses at boundary values. -/
namespace Sys2Proof.Tests
open Sys2Proof Sys2Proof.Machine

/-! ## Well-formedness: an ill-formed word for each check (30_encoding R91, R94; 95 part 2.9) -/

theorem test_wf_accepts : wellFormed 0x1100000063#40 = true ∧ wellFormed 0x7F00000000#40 = true := by decide

theorem test_wf_undefined_opcode :
    opcodeDefined 0x0000000000#40 = false ∧ opcodeDefined 0xFF00000000#40 = false ∧
    opcodeDefined 0x2700000000#40 = false ∧ opcodeDefined 0x1A00000000#40 = false ∧
    opcodeDefined 0x4700000000#40 = false := by decide

/-- One word with a 1 in a zero bit for each layout that has zero bits: N, V, K, I, IB, PB (two gaps), B, P, C, VC, R. -/
theorem test_wf_zero_bits :
    zeroBitsClear 0x1500000001#40 = false ∧ zeroBitsClear 0x1100010000#40 = false ∧
    zeroBitsClear 0x2101000000#40 = false ∧ zeroBitsClear 0x3200010000#40 = false ∧
    zeroBitsClear 0x3300020005#40 = false ∧ zeroBitsClear 0x4200002800#40 = false ∧
    zeroBitsClear 0x4200020800#40 = false ∧ zeroBitsClear 0x4300000001#40 = false ∧
    zeroBitsClear 0x4400002000#40 = false ∧ zeroBitsClear 0x5100000001#40 = false ∧
    zeroBitsClear 0x5200020000#40 = false ∧ zeroBitsClear 0x7000000100#40 = false := by decide

theorem test_wf_refuses : wellFormed 0x2700000000#40 = false ∧ wellFormed 0x7F00000001#40 = false := by decide

/-! ## Decoding: every word of 95 part 2.1 -/

theorem test_decode_cb :
    decode 0x1004000008#40 = .ok (.cbResize 8#24 4#8) ∧ decode 0x10FF000002#40 = .ok (.cbResize 2#24 255#8) ∧
    decode 0x1100000063#40 = .ok (.cbPush 0x63#16) ∧ decode 0x12FFFFFFFF#40 = .ok (.cbGet 0xFFFFFFFF#32) ∧
    decode 0x13FFFFFFFC#40 = .ok (.cbGetu (BitVec.ofInt 32 (-4))) ∧
    decode 0x140000ABCD#40 = .ok (.cbFill 0xABCD#16) ∧ decode 0x1500000000#40 = .ok .cbRelease ∧
    decode 0x1600030002#40 = .ok (.cbPrev 2#16 3#16) ∧ decode 0x170001FFFF#40 = .ok (.cbNext 0xFFFF#16 1#16) ∧
    decode 0x1800000002#40 = .ok (.cbCopyS2e 2#24) ∧ decode 0x1900000004#40 = .ok (.cbCopyE2s 4#24) :=
  ⟨rfl, rfl, rfl, rfl, rfl, rfl, rfl, rfl, rfl, rfl, rfl⟩

theorem test_decode_dq :
    decode 0x2000000011#40 = .ok (.dqPushBack 0x11#16) ∧ decode 0x2100000001#40 = .ok (.dqPopFront 1#24) ∧
    decode 0x2200000000#40 = .ok .dqFront ∧ decode 0x2300000003#40 = .ok (.dqGet 3#32) ∧
    decode 0x2400000000#40 = .ok .dqCapacity ∧ decode 0x2500000000#40 = .ok .dqSize ∧
    decode 0x2600000000#40 = .ok .dqFull :=
  ⟨rfl, rfl, rfl, rfl, rfl, rfl, rfl⟩

theorem test_decode_bm :
    decode 0x3000000000#40 = .ok .mtInit ∧ decode 0x3100000005#40 = .ok (.bmInit 5#16) ∧
    decode 0x320000FFFF#40 = .ok (.bmGetp 0xFFFF#16) ∧ decode 0x3300010005#40 = .ok (.bmUpdate 5#16 true) :=
  ⟨rfl, rfl, rfl, rfl⟩

theorem test_decode_rc :
    decode 0x4000000000#40 = .ok .rcInitEnc ∧ decode 0x4100000000#40 = .ok .rcInitDec ∧
    decode 0x4200010800#40 = .ok (.rcEnc 2048#13 true) ∧ decode 0x4300010000#40 = .ok (.rcEncDirect true) ∧
    decode 0x4400000FFF#40 = .ok (.rcDec 4095#13) ∧ decode 0x4500000000#40 = .ok .rcDecDirect ∧
    decode 0x4600000000#40 = .ok .rcFlush :=
  ⟨rfl, rfl, rfl, rfl, rfl, rfl, rfl⟩

theorem test_decode_pr :
    decode 0x5000000000#40 = .ok .prInit ∧ decode 0x5100010000#40 = .ok (.prPredict .b) ∧
    decode 0x520001FFFF#40 = .ok (.prResidual .b 0xFFFF#16) ∧ decode 0x5300000004#40 = .ok (.prRecon .a 4#16) ∧
    decode 0x5400008000#40 = .ok (.prShift .a 0x8000#16) :=
  ⟨rfl, rfl, rfl, rfl, rfl⟩

theorem test_decode_cx :
    decode 0x6000011235#40 = .ok (.cxEncRes .b 0x1235#16) ∧ decode 0x6100010000#40 = .ok (.cxDecRes .b) ∧
    decode 0x627FFF0001#40 = .ok (.cxEncFrame 0x0001#16 0x7FFF#16) ∧ decode 0x6300000000#40 = .ok .cxDecFrame :=
  ⟨rfl, rfl, rfl, rfl⟩

theorem test_decode_sys :
    decode 0x700000001B#40 = .ok (.rdReg 0x1B#8) ∧ decode 0x71DEADBEEF#40 = .ok (.setOpt 0xDEADBEEF#32) ∧
    decode 0x7F00000000#40 = .ok .reset :=
  ⟨rfl, rfl, rfl⟩

theorem test_decode_refuses :
    decode 0xFF00000000#40 = .error .undefinedOpcode ∧ decode 0x1A00000001#40 = .error .undefinedOpcode ∧
    decode 0x7F00000001#40 = .error .zeroBitSet ∧ decode 0x4200002800#40 = .error .zeroBitSet :=
  ⟨rfl, rfl, rfl, rfl⟩

/-- The same table words as the host numbers them (30_encoding R95: one 40-bit word). -/
theorem test_decode_table_word :
    decodeTableWord 40 0x4300010000 = some (.rcEncDirect true) ∧ decodeTableWord 40 0x4700000000 = none := by decide

theorem test_encode :
    encode (.cbGetu (BitVec.ofInt 32 (-4))) = 0x13FFFFFFFC#40 ∧ encode (.rcEnc 64#13 true) = 0x4200010040#40 ∧
    encode (.cxEncFrame 0x0001#16 0x7FFF#16) = 0x627FFF0001#40 ∧ encode (.prRecon .b 0xFFFD#16) = 0x530001FFFD#40 := by
  decide

/-! ## Assembler text (30_encoding R96, R97; words of 95) -/

theorem test_asm_defaults :
    assembleLine 0 "CB_RESIZE 8" = some [.cbResize 8#24 4#8] ∧
    assembleLine 0 "  DQ_POP_FRONT ; pop one" = some [.dqPopFront 1#24] := by decide

theorem test_asm_numbers :
    assembleLine 0 "CB_GETU -4" = some [.cbGetu 0xFFFFFFFC#32] ∧
    assembleLine 0 "CX_ENC_FRAME 0x0001, 0x7FFF" = some [.cxEncFrame 1#16 0x7FFF#16] ∧
    assembleLine 0 "CB_PUSH 65536" = none ∧ assembleLine 0 "; only a comment" = some [] := by decide

theorem test_asm_pseudo :
    assembleLine 4 "PUSHN 1, 2, 3" = some [.cbPush 1#16, .cbPush 2#16, .cbPush 3#16] ∧
    assembleLine 2 "PUSHN 1, 2, 3" = none ∧
    assembleLine 0 "CODEC_INIT_ENC" = some [.mtInit, .prInit, .rcInitEnc] ∧
    assembleLine 0 "CODEC_INIT_DEC" = some [.mtInit, .prInit, .rcInitDec] := by decide

theorem test_word_digits : wordDigits 0x62000A7FFF#40 = "62000A7FFF".toList := by decide

theorem test_frames : framesOf [0x01#8, 0x00#8, 0xFF#8, 0x7F#8, 0x05#8] = [(0x0001#16, 0x7FFF#16)] := by decide

/-! ## States for the one-step tests -/

/-- The state a result goes on with, and the reset state when it stops. -/
def after (r : Result) : State := (nextOf r).getD State.reset

/-- 95 part 2.2 after the eight pushes: N = 8, pad = 4, data[0..7] = 10 .. 17, CB_POS = 8. -/
def ring8 : State :=
  { State.reset with ring :=
    { alloc := true, n := 8#17, pad := 4#8, mask := 7#32, pos := 8#32,
      st := [(4, 10#16), (5, 11#16), (6, 12#16), (7, 13#16), (8, 14#16), (9, 15#16), (10, 16#16), (11, 17#16)],
      frontPos := 0#32, dqSize := 0#17 } }

/-- 95 part 2.3 after the four pushes: N = 4, pad = 4, a full deque 0x11 .. 0x44. -/
def deque4 : State :=
  { State.reset with ring :=
    { alloc := true, n := 4#17, pad := 4#8, mask := 3#32, pos := 4#32,
      st := [(4, 0x11#16), (5, 0x22#16), (6, 0x33#16), (7, 0x44#16)], frontPos := 0#32, dqSize := 4#17 } }

/-- The same after `DQ_POP_FRONT 2`. -/
def deque2 : State := { deque4 with ring := { deque4.ring with frontPos := 2#32, dqSize := 2#17 } }

/-- 95 part 2.2, corner case: N = 2, pad = 3, fill 9, data = 1, 2. -/
def ring2 : State :=
  { State.reset with ring :=
    { alloc := true, n := 2#17, pad := 3#8, mask := 1#32, pos := 2#32,
      st := [(0, 9#16), (1, 9#16), (2, 9#16), (3, 1#16), (4, 2#16), (5, 9#16), (6, 9#16), (7, 9#16)],
      frontPos := 0#32, dqSize := 0#17 } }

/-- After MT_INIT, with MT[5] = 2055. -/
def model5 : State := { State.reset with mtValid := true, mt := [(5, 2055#13)] }

/-- After CODEC_INIT_ENC. -/
def encStart : State := { State.reset with mtValid := true, mode := .enc }

/-- Trace T4 (95 part 2.5) before `RC_ENC 64, 1`. -/
def encT4 : State :=
  { State.reset with
    mode := .enc
    rc := { State.reset.rc with low := 0xFF000000#32, range := 0x7DFF0000#32, held := 0x7F#8, heldValid := true, ffRun := 2 } }

/-- Trace T4 after `RC_ENC 64, 1`: a carry is pending. -/
def encT4Carry : State :=
  { encT4 with rc := { encT4.rc with low := 0x00F7FC00#32, range := 0x7C070400#32, carry := true } }

/-- Trace T3 before its third step: two pending 0xFF octets and nothing held. -/
def encT3 : State :=
  { State.reset with
    mode := .enc
    rc := { State.reset.rc with low := 0xFEF00100#32, range := 0x010EFF00#32, ffRun := 2 } }

/-- Trace T3's decoder before its third step; the stream's octets from the seventh on. -/
def decT3 : State :=
  { State.reset with
    mode := .dec
    rc := { State.reset.rc with range := 0x010EFF00#32, srcCount := 6#32 }
    io := { State.reset.io with source := [0x87#8, 0x78#8, 0x00#8, 0x00#8, 0x00#8] } }

/-- Trace T4's decoder after RC_INIT_DEC. -/
def decT4 : State :=
  { State.reset with
    mode := .dec
    rc := { State.reset.rc with code := 0x80000000#32, srcCount := 4#32 }
    io := { State.reset.io with source := [0xF7#8, 0xFC#8, 0x00#8, 0x00#8] } }

/-- Program P2 (95 part 3) after CODEC_INIT_DEC: the decoder at the start of one frame. -/
def decP2 : State :=
  { State.reset with
    mtValid := true
    mode := .dec
    rc := { State.reset.rc with code := 0x00017FF3#32, srcCount := 4#32 }
    io := { State.reset.io with source := [0x00#8, 0x08#8, 0x00#8, 0x00#8, 0x00#8] } }

/-- 95 part 2.6 after the first two PR_SHIFT. -/
def histWrap : State :=
  { State.reset with histA := { last1 := 0xFFFE#16, last2 := 0#16, last3 := 0#16 }
                     histB := { last1 := 1#16, last2 := 0#16, last3 := 0#16 } }

/-- Program P5 (95 part 3) after its fault: BadConfiguration latched, a buffer allocated. -/
def faultedP5 : State :=
  { ring8 with latch := { fault := 2#8, faultOp := 0x10#8, faultArg := 0x0400000C#32 }, optVar := 0xDEADBEEF#32 }

/-! ## One-step tests -/

theorem test_cbResize :
    (after (exec (.cbResize 4#24 4#8) ring8)).ring =
      { alloc := true, n := 4#17, pad := 4#8, mask := 3#32, pos := 0#32, st := [], frontPos := 0#32, dqSize := 0#17 } := by
  decide

theorem test_cbResize_limit :
    (after (exec (.cbResize 0x10000#24 4#8) State.reset)).ring.mask = 0xFFFF#32 ∧
    after (exec (.cbResize 0x20000#24 4#8) State.reset) =
      { State.reset with latch := { fault := 2#8, faultOp := 0x10#8, faultArg := 0x04020000#32 } } := by decide

theorem test_cbPush :
    (after (exec (.cbPush 0x63#16) ring8)).ring.pos = 9#32 ∧
    stRead (after (exec (.cbPush 0x63#16) ring8)).ring 4 = 0x63#16 ∧
    stRead (after (exec (.cbPush 0x63#16) ring8)).ring 5 = 11#16 := by decide

theorem test_cbPush_unallocated :
    after (exec (.cbPush 1#16) State.reset) =
      { State.reset with latch := { fault := 6#8, faultOp := 0x11#8, faultArg := 1#32 } } := by decide

theorem test_cbGet :
    (after (exec (.cbGet 8#32) ring8)).res = 10#32 ∧ (after (exec (.cbGet 0xFFFFFFFF#32) ring8)).res = 17#32 := by decide

theorem test_cbGetu :
    (after (exec (.cbGetu 7#32) ring8)).res = 17#32 ∧ (after (exec (.cbGetu 0xFFFFFFFC#32) ring2)).latch.fault = 7#8 ∧
    (after (exec (.cbGetu 0xFFFFFFFD#32) ring2)).res = 9#32 := by decide

theorem test_cbGetu_bounds :
    (after (exec (.cbGetu 0xFFFFFFFB#32) ring8)).latch = { fault := 7#8, faultOp := 0x13#8, faultArg := 0xFFFFFFFB#32 } ∧
    (after (exec (.cbGetu 11#32) ring8)).latch.fault = 0#8 ∧ (after (exec (.cbGetu 12#32) ring8)).latch.fault = 7#8 ∧
    (after (exec (.cbGetu 0x80000000#32) ring8)).latch.fault = 7#8 := by decide

theorem test_cbFill :
    (after (exec (.cbFill 0xABCD#16) ring8)).ring.pos = 8#32 ∧
    stRead (after (exec (.cbFill 0xABCD#16) ring8)).ring 0 = 0xABCD#16 ∧
    stRead (after (exec (.cbFill 0xABCD#16) ring8)).ring 15 = 0xABCD#16 := by decide

theorem test_cbRelease :
    (after (exec .cbRelease deque2)).ring =
      { alloc := false, n := 0#17, pad := 0#8, mask := 0xFFFFFFFF#32, pos := 4#32, st := [], frontPos := 2#32,
        dqSize := 0#17 } := by decide

theorem test_cbPrev :
    (after (exec (.cbPrev 2#16 3#16) ring8)).res = 7#32 ∧
    (after (exec (.cbPrev 2#16 3#16) State.reset)).res = 0xFFFFFFFF#32 := by decide

theorem test_cbNext :
    (after (exec (.cbNext 6#16 3#16) ring8)).res = 1#32 ∧
    (after (exec (.cbNext 0xFFFF#16 1#16) State.reset)).res = 0x00010000#32 := by decide

theorem test_cbCopyS2e :
    (after (exec (.cbCopyS2e 3#24) ring2)).ring.st =
      [(0, 9#16), (1, 9#16), (2, 9#16), (3, 1#16), (4, 2#16), (5, 1#16), (6, 2#16), (7, 1#16)] := by decide

theorem test_cbCopyS2e_bounds :
    (after (exec (.cbCopyS2e 4#24) ring8)).latch.fault = 0#8 ∧ (after (exec (.cbCopyS2e 5#24) ring8)).latch.fault = 7#8 := by
  decide

theorem test_cbCopyE2s :
    (after (exec (.cbCopyE2s 6#24) (after (exec (.cbCopyS2e 3#24) ring2)))).ring.st =
      [(0, 9#16), (1, 1#16), (2, 2#16), (3, 1#16), (4, 2#16), (5, 1#16), (6, 2#16), (7, 1#16)] := by decide

theorem test_cbCopyE2s_bounds :
    (after (exec (.cbCopyE2s 8#24) ring8)).latch.fault = 0#8 ∧ (after (exec (.cbCopyE2s 9#24) ring8)).latch.fault = 7#8 := by
  decide

theorem test_dqPushBack :
    (after (exec (.dqPushBack 0x55#16) deque2)).ring =
      { deque2.ring with
        pos := 5#32, dqSize := 3#17, st := [(4, 0x55#16), (5, 0x22#16), (6, 0x33#16), (7, 0x44#16)] } := by decide

theorem test_dqPushBack_overflow :
    after (exec (.dqPushBack 8#16) deque4) =
      { deque4 with latch := { fault := 8#8, faultOp := 0x20#8, faultArg := 8#32 } } := by decide

theorem test_dqPopFront :
    after (exec (.dqPopFront 2#24) deque4) = deque2 ∧ after (exec (.dqPopFront 0#24) State.reset) = State.reset := by decide

theorem test_dqPopFront_underflow :
    after (exec (.dqPopFront 3#24) deque2) =
      { deque2 with latch := { fault := 9#8, faultOp := 0x21#8, faultArg := 3#32 } } := by decide

theorem test_dqFront : (after (exec .dqFront deque2)).res = 0x33#32 := by decide

theorem test_dqGet :
    (after (exec (.dqGet 1#32) deque2)).res = 0x44#32 ∧ (after (exec (.dqGet 4#32) deque4)).res = 0x11#32 := by decide

theorem test_dqCapacity :
    (after (exec .dqCapacity deque4)).res = 4#32 ∧ (after (exec .dqCapacity State.reset)).res = 0#32 := by decide

theorem test_dqSize : (after (exec .dqSize deque2)).res = 2#32 := by decide

theorem test_dqFull :
    (after (exec .dqFull deque4)).res = 1#32 ∧ (after (exec .dqFull deque2)).res = 0#32 ∧
    (after (exec .dqFull State.reset)).res = 0#32 := by decide

theorem test_mtInit : after (exec .mtInit model5) = { State.reset with mtValid := true } := by decide

theorem test_bmInit : (after (exec (.bmInit 5#16) model5)).mt = [] := by decide

theorem test_bmInit_uninit :
    (after (exec (.bmInit 0#16) State.reset)).latch = { fault := 4#8, faultOp := 0x31#8, faultArg := 0#32 } := by decide

theorem test_bmGetp :
    (after (exec (.bmGetp 5#16) model5)).res = 0x807#32 ∧ (after (exec (.bmGetp 0xFFFF#16) model5)).res = 0x800#32 := by
  decide

theorem test_bmUpdate :
    mtRead (after (exec (.bmUpdate 5#16 true) model5)) 5 = 2051#13 ∧
    mtRead (after (exec (.bmUpdate 4#16 false) model5)) 4 = 2052#13 ∧
    mtRead (after (exec (.bmUpdate 4#16 false) model5)) 5 = 2055#13 := by decide

/-- The table of `Update` in 95 part 2.4. -/
theorem test_update :
    update 2048 false = 2052 ∧ update 2048 true = 2044 ∧ update 1000 false = 1006 ∧ update 1000 true = 999 ∧
    update 3000 false = 3002 ∧ update 3000 true = 2995 ∧ update 3584 false = 3585 ∧ update 3585 true = 3578 ∧
    update 511 false = 518 ∧ update 4096 false = 4095 ∧ update 4096 true = 4088 ∧ update 0 false = 8 := by decide

theorem test_rcInitEnc :
    (after (exec .rcInitEnc { decP2 with rc := { decP2.rc with snkCount := 9#32, srcEof := true } })).rc =
      { State.reset.rc with srcCount := 4#32, srcEof := true } := by decide

theorem test_rcInitDec :
    (after (exec .rcInitDec { encT4 with io := { encT4.io with source := [0x40#8, 0x03#8, 0xF7#8, 0xE0#8, 0x01#8] } })) =
      { State.reset with
        mode := .dec
        rc := { State.reset.rc with code := 0x4003F7E0#32, srcCount := 4#32 }
        io := { State.reset.io with source := [0x01#8] } } := by decide

/-- A short source (95 part 2.5, "Re-initialisation and a short source"): SRC_EOF is set and the octets it has come
first; the others are free draws, on which nothing here depends. -/
theorem test_rcInitDec_short :
    (after (exec .rcInitDec { State.reset with io := { State.reset.io with source := [0xAB#8, 0xCD#8] } })).rc.srcEof = true ∧
    (after (exec .rcInitDec { State.reset with io := { State.reset.io with source := [0xAB#8, 0xCD#8] } })).rc.srcCount
      = 4#32 := ⟨rfl, rfl⟩

theorem test_rcEnc : after (exec (.rcEnc 64#13 true) encT4) = encT4Carry := by decide

theorem test_rcEnc_pending :
    after (exec (.rcEnc 1#13 false) encT3) =
      { encT3 with
        rc := { encT3.rc with
          low := 0x01000000#32, range := 0x10EF0000#32, held := 0xF0#8, heldValid := true, ffRun := 0, snkCount := 3#32 }
        io := { encT3.io with sink := [0xFF#8, 0xFF#8, 0xFE#8] } } := by decide

theorem test_rcEncDirect :
    (after (exec (.rcEncDirect true) encStart)).rc =
      { State.reset.rc with low := 0x7FFFFFFF#32, range := 0x7FFFFFFF#32 } := by decide

theorem test_rcEncDirect_badMode :
    (after (exec (.rcEncDirect true) decP2)).latch = { fault := 3#8, faultOp := 0x43#8, faultArg := 0x00010000#32 } := by
  decide

theorem test_rcDec :
    after (exec (.rcDec 1#13) decT3) =
      { decT3 with
        res := 0#32
        rc := { decT3.rc with code := 0x00008778#32, range := 0x10EF0000#32, srcCount := 8#32 }
        io := { decT3.io with source := [0x00#8, 0x00#8, 0x00#8] } } := by decide

theorem test_rcDec_badOperand :
    (after (exec (.rcDec 4096#13) decT3)).latch = { fault := 5#8, faultOp := 0x44#8, faultArg := 0x00001000#32 } ∧
    (after (exec (.rcDec 0#13) decT3)).latch.fault = 5#8 := by decide

theorem test_rcDecDirect :
    after (exec .rcDecDirect decT4) =
      { decT4 with res := 1#32, rc := { decT4.rc with code := 1#32, range := 0x7FFFFFFF#32 } } := by decide

theorem test_rcFlush :
    after (exec .rcFlush encT4Carry) =
      { State.reset with
        mode := .flushed
        rc := { State.reset.rc with range := 0x7C070400#32, snkCount := 8#32 }
        io := { State.reset.io with sink := [0x80#8, 0x00#8, 0x00#8, 0x00#8, 0xF7#8, 0xFC#8, 0x00#8, 0x00#8] } } := by
  decide

theorem test_rcFlush_empty :
    (after (exec .rcFlush encStart)).io.sink = [0#8, 0#8, 0#8, 0#8, 0#8] := by decide

theorem test_prInit : after (exec .prInit histWrap) = State.reset := by decide

theorem test_prPredict :
    (after (exec (.prPredict .a) histWrap)).res = 0xFFFC#32 ∧ (after (exec (.prPredict .b) histWrap)).res = 2#32 := by decide

theorem test_prResidual :
    (after (exec (.prResidual .a 0#16) histWrap)).res = 4#32 ∧
    (after (exec (.prResidual .b 0xFFFF#16) histWrap)).res = 0xFFFD#32 := by decide

theorem test_prRecon :
    (after (exec (.prRecon .a 4#16) histWrap)).res = 0#32 ∧
    (after (exec (.prRecon .b 0xFFFD#16) histWrap)).res = 0xFFFF#32 := by decide

theorem test_prShift :
    (after (exec (.prShift .a 0#16) histWrap)).histA = { last1 := 0#16, last2 := 0xFFFE#16, last3 := 0#16 } ∧
    (after (exec (.prShift .a 0#16) histWrap)).histB = histWrap.histB := by decide

/-- 95 part 2.7, row 5. -/
theorem test_cxEncRes :
    (after (exec (.cxEncRes .b 0x1235#16) encStart)).rc =
      { State.reset.rc with low := 0x34F80000#32, range := 0x01000000#32, held := 0x11#8, heldValid := true, carry := true } ∧
    (after (exec (.cxEncRes .b 0x1235#16) encStart)).mt.map (fun c => c.1) =
      [8193, 8194, 8196, 8200, 8209, 8226, 8260, 8329, 8466, 8740, 9288, 10385, 12579] := by decide +kernel

/-- 95 part 2.7, row 2. -/
theorem test_cxEncRes_ones :
    (after (exec (.cxEncRes .a 0xFFFF#16) encStart)).rc =
      { State.reset.rc with low := 0xFEFFEE20#32, range := 0x010010E0#32, ffRun := 1 } ∧
    (after (exec (.cxEncRes .a 0xFFFF#16) encStart)).mt.all (fun c => c.2 == 2044#13) = true := by decide +kernel

/-- 95 part 3, P2: channel 0 of the frame. -/
theorem test_cxDecRes :
    (after (exec (.cxDecRes .a) decP2)).res = 1#32 ∧
    (after (exec (.cxDecRes .a) decP2)).rc =
      { State.reset.rc with code := 0x7FFB0008#32, range := 0xFFF80000#32, srcCount := 6#32 } := by decide +kernel

/-- 95 part 3, P1. -/
theorem test_cxEncFrame :
    (after (exec (.cxEncFrame 0x0001#16 0x7FFF#16) encStart)).res = 0x7FFF0001#32 ∧
    (after (exec (.cxEncFrame 0x0001#16 0x7FFF#16) encStart)).io.sink = [0x00#8, 0x01#8, 0x7F#8] ∧
    (after (exec (.cxEncFrame 0x0001#16 0x7FFF#16) encStart)).histB.last1 = 0x7FFF#16 := by decide +kernel

theorem test_cxEncFrame_uninit :
    (after (exec (.cxEncFrame 1#16 2#16) encT4)).latch = { fault := 4#8, faultOp := 0x62#8, faultArg := 0x00020001#32 } := by
  decide

/-- 95 part 3, P2. -/
theorem test_cxDecFrame :
    (after (exec .cxDecFrame decP2)).res = 0x7FFF0001#32 ∧
    (after (exec .cxDecFrame decP2)).rc = { State.reset.rc with range := 0xFFF80000#32, srcCount := 8#32 } ∧
    (after (exec .cxDecFrame decP2)).io.source = [0x00#8] := by decide +kernel

theorem test_rdReg :
    (after (exec (.rdReg 0x00#8) State.reset)).res = 0x00000800#32 ∧
    (after (exec (.rdReg 0x06#8) State.reset)).res = 0x02030D0C#32 ∧
    (after (exec (.rdReg 0x0B#8) encT4Carry)).res = 0x37F#32 ∧
    (after (exec (.rdReg 0x10#8) histWrap)).res = 0x0000FFFE#32 ∧
    (after (exec (.rdReg 0x03#8) faultedP5)).res = 0x0400000C#32 := by decide

theorem test_rdReg_unlisted :
    (after (exec (.rdReg 0x07#8) State.reset)).latch = { fault := 5#8, faultOp := 0x70#8, faultArg := 7#32 } ∧
    after (exec (.rdReg 0x07#8) faultedP5) = faultedP5 := by decide

theorem test_setOpt :
    after (exec (.setOpt 0xDEADBEEF#32) ring8) = { ring8 with optVar := 0xDEADBEEF#32 } ∧
    after (exec (.setOpt 0#32) faultedP5) = faultedP5 := by decide

theorem test_reset :
    after (exec .reset { faultedP5 with io := { State.reset.io with sink := [1#8] } }) =
      { State.reset with io := { State.reset.io with sink := [1#8] } } := by decide

/-! ## Steps -/

theorem test_step_command :
    step (State.withFetchWord State.reset 40 0x71DEADBEEF) =
      .next { State.reset with
        optVar := 0xDEADBEEF#32, io := { State.reset.io with responses := [{ fault := 0#8, res := 0#32 }] } } := rfl

theorem test_step_illegal :
    (after (step (State.withFetchWord State.reset 40 0x2700000000))).latch =
      { fault := 1#8, faultOp := 0x27#8, faultArg := 0#32 } := by decide

theorem test_step_reset_input :
    after (step { faultedP5 with io := { State.reset.io with inputs := [.resetInput] } }) = State.reset := by decide

theorem test_step_waits : step ring8 = .next ring8 := rfl

/-! ## Witnesses: for every statement with hypotheses, a state and operands that meet all of them -/

/-- A result that goes on goes on with `after`. -/
theorem next_after {r : Result} (h : (nextOf r).isSome = true) : r = .next (after r) := by
  cases r <;> simp_all [nextOf, after]

/-- `ring8` with a word on the command port. -/
def presented (w : CmdWord) (s : State) : State := { s with io := { s.io with inputs := [.command w] } }

theorem witness_EncodeDecodeRoundTrip : decode 0x6000011235#40 = .ok (.cxEncRes .b 0x1235#16) := rfl

theorem witness_DecoderAcceptsExactlyTableRows :
    (∃ r ∈ opcodeRows, r.owns 0x4200010800#40 = true) ∧ decode 0x4200010800#40 = .ok (.rcEnc 2048#13 true) ∧
    (∀ r ∈ opcodeRows, r.owns 0x4200002800#40 = false) ∧ opcodeDefined 0x4200002800#40 = true ∧
    opcodeDefined 0x2700000000#40 = false := ⟨by decide, rfl, by decide, by decide, by decide⟩

theorem witness_StepRunsDecodedCommand :
    (presented 0x1200000008#40 ring8).io.inputs = .command 0x1200000008#40 :: [] ∧
    decode 0x1200000008#40 = .ok (.cbGet 8#32) := ⟨rfl, rfl⟩

theorem witness_StepOnIllegalWord :
    (presented 0x2700000000#40 ring8).io.inputs = .command 0x2700000000#40 :: [] ∧
    wellFormed 0x2700000000#40 = false ∧ wellFormed 0x7F00000001#40 = false ∧
    faulted (presented 0x2700000000#40 ring8) = false ∧ faulted (presented 0x7F00000001#40 faultedP5) = true := by decide

theorem witness_StepWaitsAndHardwareReset :
    ring8.io.inputs = [] ∧
    ({ faultedP5 with io := { faultedP5.io with inputs := [.resetInput] } } : State).io.inputs = .resetInput :: [] := by decide

/-- RC_FLUSH abandoned in the middle of its eight octets. -/
def flushAbandoned : State := { encT4Carry with io := { encT4Carry.io with inputs := [.resetDuring 0x4600000000#40] } }

theorem witness_HardwareResetAbandonsCommand :
    flushAbandoned.io.inputs = .resetDuring 0x4600000000#40 :: [] ∧
    runWord 0x4600000000#40 { flushAbandoned with io := { flushAbandoned.io with inputs := [] } } =
      .next (after (exec .rcFlush encT4Carry)) ∧
    (after (exec .rcFlush encT4Carry)).io.sink.length = 8 := ⟨rfl, rfl, by decide⟩

theorem witness_ResetCommandResult : (1#32 : BitVec 32) ≠ 0#32 ∧ decode 0x7F00000001#40 = .error .zeroBitSet := ⟨by decide, rfl⟩

theorem witness_Inv_ring8 : Inv ring8 := ⟨by decide, by decide, by decide, by decide +kernel⟩
theorem witness_Inv_deque2 : Inv deque2 := ⟨by decide, by decide, by decide, by decide +kernel⟩
theorem witness_Inv_encT4Carry : Inv encT4Carry := ⟨by decide, by decide, by decide, by decide +kernel⟩
theorem witness_Inv_encT4 : Inv encT4 := ⟨by decide, by decide, by decide, by decide +kernel⟩
theorem witness_Inv_encStart : Inv encStart := ⟨by decide, by decide, by decide, by decide +kernel⟩
theorem witness_Inv_decP2 : Inv decP2 := ⟨by decide, by decide, by decide, by decide +kernel⟩

theorem witness_StepKeepsInv :
    Inv (presented 0x4600000000#40 encT4Carry) ∧
    step (presented 0x4600000000#40 encT4Carry) = .next (after (step (presented 0x4600000000#40 encT4Carry))) :=
  ⟨witness_Inv_encT4Carry, next_after (by decide +kernel)⟩

theorem witness_StepNeverStopsUnderInv : Inv (presented 0x1200000008#40 ring8) := witness_Inv_ring8

theorem witness_FaultsArePrecise :
    faulted deque4 = false ∧ runWord 0x2000000008#40 deque4 = .next (after (runWord 0x2000000008#40 deque4)) ∧
    faulted (after (runWord 0x2000000008#40 deque4)) = true :=
  ⟨by decide, next_after (by decide), by decide⟩

theorem witness_FaultedBlockRefusesWork :
    faulted faultedP5 = true ∧
    (decode 0x1200000000#40 ≠ .ok .reset ∧ ∀ n ∈ listedRegisters, decode 0x1200000000#40 ≠ .ok (.rdReg n)) ∧
    (0x1D#8 ∈ listedRegisters ∧ decode 0x700000001D#40 = .ok (.rdReg 0x1D#8)) ∧
    decode 0x7F00000000#40 = .ok .reset := by
  refine ⟨by decide, ⟨?_, ?_⟩, ⟨by decide, rfl⟩, rfl⟩
  · rw [show decode 0x1200000000#40 = .ok (.cbGet 0#32) from rfl]
    simp
  · rw [show decode 0x1200000000#40 = .ok (.cbGet 0#32) from rfl]
    simp

theorem witness_OnlyResetLeavesFaultedState :
    faulted (presented 0x7F00000000#40 faultedP5) = true ∧
    step (presented 0x7F00000000#40 faultedP5) = .next (after (step (presented 0x7F00000000#40 faultedP5))) ∧
    faulted (after (step (presented 0x7F00000000#40 faultedP5))) = false :=
  ⟨by decide, next_after (by decide), by decide⟩

/-- Each item of the priority list is the first fault somewhere, and none is. -/
theorem witness_FirstApplicableFaultIsTaken :
    faulted State.reset = false ∧ RingInv State.reset.ring ∧ RingInv ring8.ring ∧
    firstFault (.rcEnc 0#13 true) State.reset = some .badMode ∧
    firstFault (.cxEncFrame 1#16 2#16) encT4 = some .modelUninit ∧
    firstFault (.cbGetu 0xFFFFFF9C#32) State.reset = some .cbUnallocated ∧
    firstFault (.rcEnc 4096#13 true) encT4 = some .badOperand ∧ firstFault (.rcEnc 4095#13 true) encT4 = none ∧
    firstFault (.dqPushBack 8#16) deque4 = some .dqOverflow ∧ firstFault (.dqPopFront 3#24) deque2 = some .dqUnderflow ∧
    firstFault (.cbResize 0x20000#24 4#8) ring8 = some .badConfiguration ∧
    firstFault (.cbResize 0x10000#24 4#8) ring8 = none ∧ firstFault (.cbGetu 12#32) ring8 = some .cbBounds ∧
    firstFault (.cbGetu 11#32) ring8 = none := by decide +kernel

/-- Legal sizes 1 and 65536; not legal 0, 3, 65535, 131072. -/
theorem witness_CbResizeResult :
    faulted ring8 = false ∧ (∃ k, k < 17 ∧ (1#24).toNat = 2 ^ k) ∧ (∃ k, k < 17 ∧ (0x10000#24).toNat = 2 ^ k) ∧
    (¬ ∃ k, k < 17 ∧ (0#24).toNat = 2 ^ k) ∧ (¬ ∃ k, k < 17 ∧ (3#24).toNat = 2 ^ k) ∧
    (¬ ∃ k, k < 17 ∧ (0xFFFF#24).toNat = 2 ^ k) ∧ (¬ ∃ k, k < 17 ∧ (0x20000#24).toNat = 2 ^ k) := by decide +kernel

/-- Hypotheses shared by CbPushResult, CbGetResult, CbFillResult, CbPrevNextResult, DqFrontGetResult,
DqCapacitySizeFullResult: an allocated and a released buffer. -/
theorem witness_ring_allocated_and_released :
    faulted ring8 = false ∧ RingInv ring8.ring ∧ ring8.ring.alloc = true ∧
    faulted State.reset = false ∧ RingInv State.reset.ring ∧ State.reset.ring.alloc = false := by decide +kernel

theorem witness_CbPushResult :
    faulted ring8 = false ∧ RingInv ring8.ring ∧ ring8.ring.alloc = true ∧ RingInv State.reset.ring := by decide +kernel

/-- The largest offset of 32 bits. -/
theorem witness_CbGetResult :
    faulted ring8 = false ∧ RingInv ring8.ring ∧ ring8.ring.alloc = true ∧
    exec (.cbGet 0xFFFFFFFF#32) ring8 = .next { ring8 with res := 17#32 } := ⟨by decide, by decide +kernel, rfl, rfl⟩

/-- Both sides of both bounds: -5 and 12 fault, -4 and 11 do not. -/
theorem witness_CbGetuResult :
    faulted ring8 = false ∧ ring8.ring.alloc = true ∧
    (0xFFFFFFFB#32).toInt < -(ring8.ring.pad.toNat : Int) ∧ ¬ (0xFFFFFFFC#32).toInt < -(ring8.ring.pad.toNat : Int) ∧
    (ring8.ring.n.toNat : Int) + ring8.ring.pad.toNat ≤ (12#32).toInt ∧
    ¬ (ring8.ring.n.toNat : Int) + ring8.ring.pad.toNat ≤ (11#32).toInt := by decide

theorem witness_CbFillResult : faulted ring8 = false ∧ ring8.ring.alloc = true ∧ State.reset.ring.alloc = false ∧
    15 < ring8.ring.n.toNat + 2 * ring8.ring.pad.toNat := by decide

theorem witness_CbReleaseResult : faulted deque2 = false ∧ faulted State.reset = false := by decide

theorem witness_CbPrevNextResult :
    faulted ring8 = false ∧ RingInv ring8.ring ∧ RingInv State.reset.ring ∧
    exec (.cbPrev 0#16 0xFFFF#16) ring8 = .next { ring8 with res := 1#32 } ∧
    exec (.cbNext 0xFFFF#16 0xFFFF#16) State.reset = .next { State.reset with res := 0x1FFFE#32 } :=
  ⟨by decide, by decide +kernel, by decide +kernel, rfl, rfl⟩

/-- k = pad is legal, k = pad + 1 is not; k may exceed N. -/
theorem witness_CbCopyS2eResult :
    faulted ring8 = false ∧ RingInv ring8.ring ∧ ring8.ring.alloc = true ∧ (4#24).toNat ≤ ring8.ring.pad.toNat ∧
    ring8.ring.pad.toNat < (5#24).toNat ∧ RingInv ring2.ring ∧ ring2.ring.alloc = true ∧
    (3#24).toNat ≤ ring2.ring.pad.toNat ∧ ring2.ring.n.toNat < (3#24).toNat ∧ RingInv State.reset.ring :=
  ⟨by decide, witness_Inv_ring8.2.2.2, by decide, by decide, by decide, by decide +kernel, by decide, by decide, by decide,
    by decide +kernel⟩

/-- k = 2 pad is legal, k = 2 pad + 1 is not. -/
theorem witness_CbCopyE2sResult :
    faulted ring8 = false ∧ RingInv ring8.ring ∧ ring8.ring.alloc = true ∧ (8#24).toNat ≤ 2 * ring8.ring.pad.toNat ∧
    2 * ring8.ring.pad.toNat < (9#24).toNat ∧ RingInv State.reset.ring := by decide +kernel

theorem witness_CbMaskingLaw :
    faulted ring8 = false ∧ RingInv ring8.ring ∧ ring8.ring.alloc = true ∧
    (7#32 : BitVec 32) + BitVec.ofInt 32 (-1 * ring8.ring.n.toNat) = 0xFFFFFFFF#32 := by decide +kernel

/-- A full deque, one with room, and no buffer. -/
theorem witness_DqPushBackResult :
    faulted deque4 = false ∧ RingInv deque4.ring ∧ deque4.ring.alloc = true ∧ deque4.ring.dqSize = deque4.ring.n ∧
    faulted deque2 = false ∧ RingInv deque2.ring ∧ deque2.ring.alloc = true ∧ deque2.ring.dqSize ≠ deque2.ring.n ∧
    RingInv State.reset.ring ∧ State.reset.ring.alloc = false :=
  ⟨by decide, by decide +kernel, by decide, by decide, by decide, witness_Inv_deque2.2.2.2, by decide, by decide,
    by decide +kernel, by decide⟩

/-- k = DQ_SIZE is legal, k = DQ_SIZE + 1 is not. -/
theorem witness_DqPopFrontResult :
    faulted deque2 = false ∧ (2#24).toNat ≤ deque2.ring.dqSize.toNat ∧ deque2.ring.dqSize.toNat < (3#24).toNat := by decide

theorem witness_DqFrontGetResult :
    faulted deque2 = false ∧ RingInv deque2.ring ∧ deque2.ring.alloc = true ∧ RingInv State.reset.ring := by decide +kernel

theorem witness_DqCapacitySizeFullResult :
    faulted deque4 = false ∧ RingInv deque4.ring ∧ RingInv State.reset.ring := by decide +kernel

/-- Pushes, pops and reads of 95 part 2.3, past the end of the storage. -/
def dequeWalk : List Instr :=
  [.dqPushBack 0x11#16, .dqPushBack 0x22#16, .dqPopFront 2#24, .dqPushBack 0x33#16, .dqFront, .dqPushBack 0x44#16, .dqFull]

theorem witness_DequeIsFifo :
    faulted State.reset = false ∧ (∃ k, k < 17 ∧ (2#24).toNat = 2 ^ k) ∧ (∀ i ∈ dequeWalk, isDequeCommand i = true) ∧
    execAll (.cbResize 2#24 4#8 :: dequeWalk) State.reset =
      .next (after (execAll (.cbResize 2#24 4#8 :: dequeWalk) State.reset)) ∧
    faulted (after (execAll (.cbResize 2#24 4#8 :: dequeWalk) State.reset)) = false :=
  ⟨by decide, by decide, by decide, next_after (by decide +kernel), by decide +kernel⟩

theorem witness_MtInitBmInitResult : faulted model5 = false ∧ model5.mtValid = true ∧ State.reset.mtValid = false := by decide

theorem witness_BmGetpUpdateResult : faulted model5 = false ∧ model5.mtValid = true ∧ State.reset.mtValid = false := by decide

/-- Both ends of the range. -/
theorem witness_UpdateStaysInBounds :
    (511 ≤ 511 ∧ 511 ≤ 3585) ∧ (511 ≤ 3585 ∧ 3585 ≤ 3585) ∧ update 512 true = 511 ∧ update 3584 false = 3585 := by decide

theorem witness_ClampUnobservable :
    (3585 ≤ 3585 ∧ 3585 ≤ 4096) ∧ (3585 ≤ 4096 ∧ 4096 ≤ 4096) ∧ (511 ≤ 3585 ∧ 3585 ≤ 3585) ∧ 3584 < 3585 ∧
    updateClamped 3584 3585 false ≠ 3585 := by decide

theorem witness_RcInitEncResult : faulted decP2 = false := by decide

theorem witness_RcInitDecResult : faulted encT4Carry = false ∧ decP2.io.source.length = 5 := by decide

/-- RANGE and p at both ends of their ranges. -/
theorem witness_PartitionBounds :
    (2 ^ 24 ≤ (0x01000000#32).toNat ∧ 1 ≤ 1 ∧ 1 ≤ 4095) ∧ (2 ^ 24 ≤ (0xFFFFFFFF#32).toNat ∧ 1 ≤ 4095 ∧ 4095 ≤ 4095) ∧
    partition 0x01000000#32 1 = 4096 ∧ partition 0xFFFFFFFF#32 4095 = 0xFFEFF001 := by decide

/-- p = 0 and 4096 fault, 1 and 4095 do not; another MODE. -/
theorem witness_RcEncResult :
    faulted encT4 = false ∧ encT4.mode = .enc ∧ decP2.mode ≠ .enc ∧ (0#13).toNat = 0 ∧ 4095 < (4096#13).toNat ∧
    1 ≤ (1#13).toNat ∧ (4095#13).toNat ≤ 4095 := by decide

theorem witness_EncodingTracksExactLow :
    faulted encT4Carry = false ∧ Inv encT4Carry ∧ encT4Carry.mode = .enc ∧ 1 ≤ (4095#13).toNat ∧ (4095#13).toNat ≤ 4095 :=
  ⟨by decide, witness_Inv_encT4Carry, rfl, by decide, by decide⟩

theorem witness_CarryInvariantsHold :
    Inv encT4 ∧ exec (.rcEnc 64#13 true) encT4 = .next encT4Carry ∧ encT4Carry.mode = .enc ∧
    encT4Carry.rc.carry = true := ⟨witness_Inv_encT4, rfl, rfl, rfl⟩

theorem witness_RcFlushResult :
    faulted encT4Carry = false ∧ encT4Carry.mode = .enc ∧ Inv encT4Carry ∧ decP2.mode ≠ .enc :=
  ⟨by decide, rfl, witness_Inv_encT4Carry, by decide⟩

/-- A source with enough octets, and one without. -/
theorem witness_RcDecResult :
    faulted decT3 = false ∧ decT3.mode = .dec ∧ 1 ≤ (1#13).toNat ∧ (4095#13).toNat ≤ 4095 ∧
    2 ^ 24 ≤ decT3.rc.range.toNat ∧ decT3.io.source.length = 5 ∧ encT4.mode ≠ .dec ∧ (0#13).toNat = 0 ∧
    4095 < (4096#13).toNat := by decide

theorem witness_RcDecDirectResult :
    faulted decT4 = false ∧ decT4.mode = .dec ∧ 2 ^ 24 ≤ decT4.rc.range.toNat ∧ encT4.mode ≠ .dec := by decide

/-- The steps of trace T4, the last one not decoded. -/
def stepsT4 : List CodeStep := [.direct true, .modelled 4032#13 false, .modelled 1#13 false, .modelled 1#13 false]

/-- The octets of trace T4. -/
def octetsT4 : List Octet := [0x80#8, 0x00#8, 0x00#8, 0x00#8, 0xF7#8, 0xFC#8, 0x00#8, 0x00#8]

theorem witness_RangeCoderRoundTrip :
    (∀ x ∈ stepsT4 ++ [CodeStep.modelled 64#13 true], x.legal) ∧ faulted State.reset = false ∧
    (after (execAll (.rcInitEnc :: ((stepsT4 ++ [CodeStep.modelled 64#13 true]).map encCommand ++ [.rcFlush])) State.reset)).io.sink
      = State.reset.io.sink ++ octetsT4 ∧
    faulted { State.reset with io := { State.reset.io with source := octetsT4 } } = false ∧
    ({ State.reset with io := { State.reset.io with source := octetsT4 } } : State).io.source = octetsT4 ++ [] := by
  refine ⟨?_, by decide, by decide +kernel, by decide, by decide⟩
  simp [stepsT4, CodeStep.legal]

theorem witness_PrInitShiftResult : faulted histWrap = false := by decide

theorem witness_PrPredictResidualReconResult :
    faulted histWrap = false ∧ exec (.prResidual .a 0#16) histWrap = .next { histWrap with res := 4#32 } := ⟨by decide, rfl⟩

/-- A falling line through 0: 0xFFFE after 0, slope -2, n = 2. -/
theorem witness_LinearSignalHasZeroResidual :
    faulted histWrap = false ∧ (histOf histWrap .a).last2 = BitVec.ofInt 16 (0 + -2 * (2 - 2)) ∧
    (histOf histWrap .a).last1 = BitVec.ofInt 16 (0 + -2 * (2 - 1)) := by decide

theorem witness_CxEncResEqualsSplitCommands :
    faulted encStart = false ∧ encStart.mode = .enc ∧ encStart.mtValid = true ∧ Inv encStart ∧
    decP2.mode ≠ .enc ∧ encT4.mode = .enc ∧ encT4.mtValid = false :=
  ⟨by decide, rfl, rfl, witness_Inv_encStart, by decide, rfl, rfl⟩

theorem witness_CxDecResEqualsSplitCommands :
    faulted decP2 = false ∧ decP2.mode = .dec ∧ decP2.mtValid = true ∧ Inv decP2 ∧ encStart.mode ≠ .dec ∧
    decT4.mode = .dec ∧ decT4.mtValid = false :=
  ⟨by decide, rfl, rfl, witness_Inv_decP2, by decide, rfl, rfl⟩

theorem witness_CxEncFrameEqualsParts :
    faulted encStart = false ∧ encStart.mode = .enc ∧ encStart.mtValid = true ∧ decP2.mode ≠ .enc ∧
    encT4.mode = .enc ∧ encT4.mtValid = false := by decide

theorem witness_CxDecFrameEqualsParts :
    faulted decP2 = false ∧ decP2.mode = .dec ∧ decP2.mtValid = true ∧ encStart.mode ≠ .dec ∧
    decT4.mode = .dec ∧ decT4.mtValid = false := by decide

/-- The lowest and the highest entry of each channel's tree do change. -/
theorem witness_CxTouchesOnlyItsTree :
    exec (.cxEncRes .a 0xFFFF#16) encStart = .next (after (exec (.cxEncRes .a 0xFFFF#16) encStart)) ∧
    mtRead (after (exec (.cxEncRes .a 0xFFFF#16) encStart)) 1 ≠ mtRead encStart 1 ∧
    mtRead (after (exec (.cxEncRes .a 0xFFFF#16) encStart)) 8191 ≠ mtRead encStart 8191 ∧
    exec (.cxEncFrame 0xFFFF#16 0xFFFF#16) encStart = .next (after (exec (.cxEncFrame 0xFFFF#16 0xFFFF#16) encStart)) ∧
    mtRead (after (exec (.cxEncFrame 0xFFFF#16 0xFFFF#16) encStart)) 8193 ≠ mtRead encStart 8193 ∧
    mtRead (after (exec (.cxEncFrame 0xFFFF#16 0xFFFF#16) encStart)) 16383 ≠ mtRead encStart 16383 :=
  ⟨next_after (by decide +kernel), by decide +kernel, by decide +kernel, next_after (by decide +kernel),
    by decide +kernel, by decide +kernel⟩

/-- The octets of program P1. -/
def octetsP1 : List Octet := [0x00#8, 0x01#8, 0x7F#8, 0xF3#8, 0x00#8, 0x08#8, 0x00#8, 0x00#8, 0x00#8]

theorem witness_CodecRoundTrip :
    4 ∣ [0x01#8, 0x00#8, 0xFF#8, 0x7F#8].length ∧ faulted State.reset = false ∧
    (after (execAll (compress [0x01#8, 0x00#8, 0xFF#8, 0x7F#8]) State.reset)).io.sink =
      State.reset.io.sink ++ octetsP1 ∧
    faulted { State.reset with io := { State.reset.io with source := octetsP1 } } = false ∧
    ({ State.reset with io := { State.reset.io with source := octetsP1 } } : State).io.source = octetsP1 ++ [] :=
  ⟨by decide, by decide, by decide +kernel, by decide, by decide⟩

theorem witness_CompressIsDeterministic : faulted ring8 = false ∧ faulted encT4Carry = false := by decide

/-- 0x1D is the last listed number; 0x07, 0x0F, 0x14 and 0x1E are not listed. -/
theorem witness_RdRegResult :
    0x1D#8 ∈ listedRegisters ∧ 0x07#8 ∉ listedRegisters ∧ 0x0F#8 ∉ listedRegisters ∧ 0x14#8 ∉ listedRegisters ∧
    0x1E#8 ∉ listedRegisters ∧ faulted ring8 = false ∧ faulted faultedP5 = true := by decide

theorem witness_SetOptResult : faulted ring8 = false := by decide

theorem witness_OptVarAltersNothing :
    Instr.rdReg 0x04#8 ≠ .rdReg 0x05#8 ∧ Instr.rdReg 0x04#8 ≠ .reset ∧ ∀ v, Instr.rdReg 0x04#8 ≠ .setOpt v := by
  refine ⟨by decide, by decide, fun v => ?_⟩
  simp

/-- A command of each group, and one that changes CB_N. -/
theorem witness_BufferAndCoderAreSeparate :
    exec (.dqPopFront 2#24) deque4 = .next deque2 ∧ (opcode (.dqPopFront 2#24)).toNat < 0x30 ∧
    exec (.rcEnc 64#13 true) encT4 = .next encT4Carry ∧ 0x30 ≤ (opcode (.rcEnc 64#13 true)).toNat ∧
    (opcode (.rcEnc 64#13 true)).toNat < 0x70 ∧ exec .cbRelease deque2 = .next (after (exec .cbRelease deque2)) ∧
    (after (exec .cbRelease deque2)).ring.n ≠ deque2.ring.n := ⟨rfl, by decide, rfl, by decide, by decide, rfl, by decide⟩

theorem witness_PortsOnlyMoveForward :
    step (presented 0x4600000000#40 encT4Carry) = .next (after (step (presented 0x4600000000#40 encT4Carry))) :=
  next_after (by decide +kernel)

end Sys2Proof.Tests
end

section
/-! SUPPORT. How a command port input is taken, case by case, and when a result is a next state: the gates only ever
add next states, so the one stop of the model is an element access, and the buffer invariant keeps a masked index
inside the allocation. -/
namespace Sys2Proof.Machine

/-! ### One step, by the input presented -/

theorem step_of_no_input {s : State} (h : s.io.inputs = []) : step s = .next s := by
  simp [step, h]

theorem step_of_command {s : State} {w : CmdWord} {rest : List HostInput}
    (h : s.io.inputs = .command w :: rest) : step s = respondTo (runWord w (takeInput s)) := by
  simp [step, h]

theorem step_of_resetInput {s : State} {rest : List HostInput} (h : s.io.inputs = .resetInput :: rest) :
    step s = .next (resetBlock (takeInput s)) := by
  simp [step, h]

theorem step_of_resetDuring {s : State} {w : CmdWord} {rest : List HostInput}
    (h : s.io.inputs = .resetDuring w :: rest) :
    step s = abandonTo (takeInput s) (runWord w (takeInput s)) := by
  simp [step, h]

theorem takeInput_of_inputs {s : State} {x : HostInput} {rest : List HostInput} (h : s.io.inputs = x :: rest) :
    takeInput s = { s with io := { s.io with inputs := rest } } := by
  simp [takeInput, h]

theorem runWord_of_decode_ok {w : CmdWord} {i : Instr} (h : decode w = .ok i) (s : State) :
    runWord w s = exec i s := by
  simp [runWord, h]

theorem runWord_of_decode_error {w : CmdWord} {e : DecodeError} (h : decode w = .error e) (s : State) :
    runWord w s = illegalCommand w s := by
  simp [runWord, h]

/-! ### Completion through the gates and the response -/

theorem completes_next (t : State) : Completes (.next t) := ⟨t, rfl⟩

theorem completes_unlessFaulted {s : State} {k : Result} (h : faulted s = false → Completes k) :
    Completes (unlessFaulted s k) := by
  cases hf : faulted s with
  | false => rw [unlessFaulted_of_clear hf]; exact h hf
  | true => rw [unlessFaulted_of_faulted hf]; exact completes_next s

theorem completes_require {ok : Bool} {f : FaultCode} {i : Instr} {s : State} {k : Result}
    (h : ok = true → Completes k) : Completes (require ok f i s k) := by
  cases ok with
  | false => exact completes_next (raise f i s)
  | true => exact h rfl

theorem completes_withElement {r : Ring} {j : Nat} {k : Result} (hj : j < r.cells) (h : Completes k) :
    Completes (withElement r j k) := by
  rwa [withElement_of_lt hj]

theorem completes_respondTo {r : Result} (h : Completes r) : Completes (respondTo r) := by
  obtain ⟨t, rfl⟩ := h
  exact completes_next (respond t)

theorem completes_abandonTo {s : State} {r : Result} (h : Completes r) : Completes (abandonTo s r) := by
  obtain ⟨t, rfl⟩ := h
  exact completes_next (abandon s t)

theorem completes_illegalCommand (w : CmdWord) (s : State) : Completes (illegalCommand w s) :=
  completes_unlessFaulted fun _ => completes_next _

/-! ### Masked indices stay inside the allocation -/

/-- The mask is `CB_N - 1` and `CB_N` is not 0, so masking any offset lands in the ring (10_state R36, 40_cyclic_buffer
R122). -/
theorem maskedIndex_lt_cells {r : Ring} (h : AllocatedInv r) (off : BitVec 32) : maskedIndex r off < r.cells := by
  obtain ⟨⟨k, -, hn⟩, hmask, -, -⟩ := h
  have hle : (off &&& r.mask).toNat ≤ r.mask.toNat := by
    rw [BitVec.toNat_and]; exact Nat.and_le_right
  have hpos : 0 < r.n.toNat := hn ▸ Nat.two_pow_pos k
  unfold maskedIndex Ring.cells
  omega

theorem dequeIndex_lt_cells {r : Ring} (h : AllocatedInv r) (off : BitVec 32) : dequeIndex r off < r.cells :=
  maskedIndex_lt_cells h (r.frontPos + off)

/-! ### Completion of every command, every word and every step -/

/-- Only the five commands that reach an element by a masked index need the buffer invariant; the others are
grouped by how many checks stand before their effect. -/
theorem exec_completes {s : State} (h : RingInv s.ring) (i : Instr) : Completes (exec i s) := by
  obtain ⟨halloc, -⟩ := h
  cases i with
  | cbPush v =>
    exact completes_unlessFaulted fun _ => completes_require fun ha =>
      completes_withElement (maskedIndex_lt_cells (halloc ha) s.ring.pos) (completes_next _)
  | cbGet off =>
    exact completes_unlessFaulted fun _ => completes_require fun ha =>
      completes_withElement (maskedIndex_lt_cells (halloc ha) off) (completes_next _)
  | dqPushBack v =>
    exact completes_unlessFaulted fun _ => completes_require fun ha => completes_require fun _ =>
      completes_withElement (maskedIndex_lt_cells (halloc ha) s.ring.pos) (completes_next _)
  | dqFront =>
    exact completes_unlessFaulted fun _ => completes_require fun ha =>
      completes_withElement (dequeIndex_lt_cells (halloc ha) 0#32) (completes_next _)
  | dqGet off =>
    exact completes_unlessFaulted fun _ => completes_require fun ha =>
      completes_withElement (dequeIndex_lt_cells (halloc ha) off) (completes_next _)
  | cbRelease | cbPrev | cbNext | dqCapacity | dqSize | dqFull | mtInit | rcInitEnc | rcInitDec | prInit
  | prPredict | prResidual | prRecon | prShift | setOpt =>
    exact completes_unlessFaulted fun _ => completes_next _
  | cbResize | cbFill | dqPopFront | bmInit | bmGetp | bmUpdate | rcEncDirect | rcDecDirect | rcFlush =>
    exact completes_unlessFaulted fun _ => completes_require fun _ => completes_next _
  | cbGetu | cbCopyS2e | cbCopyE2s | rcEnc | rcDec | cxEncRes | cxDecRes | cxEncFrame | cxDecFrame =>
    exact completes_unlessFaulted fun _ => completes_require fun _ => completes_require fun _ => completes_next _
  | rdReg n =>
    show Completes (execRdReg n s)
    unfold execRdReg
    cases readReg s n with
    | some v => exact completes_next _
    | none => exact completes_unlessFaulted fun _ => completes_next _
  | reset => exact completes_next _

theorem runWord_completes {s : State} (h : RingInv s.ring) (w : CmdWord) : Completes (runWord w s) := by
  cases hd : decode w with
  | ok i => rw [runWord_of_decode_ok hd]; exact exec_completes h i
  | error e => rw [runWord_of_decode_error hd]; exact completes_illegalCommand w s

/-- Of the machine invariant, completion needs the buffer's part alone. -/
theorem step_completes {s : State} (h : RingInv s.ring) : Completes (step s) := by
  have hrun (w : CmdWord) : Completes (runWord w (takeInput s)) := runWord_completes (s := takeInput s) h w
  cases hin : s.io.inputs with
  | nil => rw [step_of_no_input hin]; exact completes_next s
  | cons x rest =>
    cases x with
    | command w => rw [step_of_command hin]; exact completes_respondTo (hrun w)
    | resetInput => rw [step_of_resetInput hin]; exact completes_next _
    | resetDuring w => rw [step_of_resetDuring hin]; exact completes_abandonTo (hrun w)

/-! ### The statements -/

/-- Settles O5: the equations of a step on a command word and of a word that decodes, then one case per outcome. -/
theorem stepRunsDecodedCommand : Obligations.StepRunsDecodedCommand := by
  intro s w rest i hin hdec
  rw [step_of_command hin, runWord_of_decode_ok hdec, takeInput_of_inputs hin]
  cases exec i { s with io := { s.io with inputs := rest } } with
  | next t => rfl
  | fault f => rfl
  | refused r => rfl

/-- Settles O12: the buffer's part of the invariant is all a step needs to complete. -/
theorem stepNeverStopsUnderInv : Obligations.StepNeverStopsUnderInv := by
  intro s hinv
  obtain ⟨-, -, -, hring⟩ := hinv
  exact step_completes hring

end Sys2Proof.Machine
end

section
/-! SUPPORT. What a command of any kind keeps when it completes: a property of the next state is carried through the
gates, so a proof about `exec` is left with the effect of each command. -/
namespace Sys2Proof.Machine

/-- Every next state the result answers has the property. -/
def AllNext (P : State → Prop) (r : Result) : Prop := ∀ t, r = .next t → P t

theorem allNext_next {P : State → Prop} {t : State} (h : P t) : AllNext P (.next t) := by
  intro u hu
  cases hu
  exact h

theorem allNext_unlessFaulted {P : State → Prop} {s : State} {k : Result} (hs : P s)
    (hk : faulted s = false → AllNext P k) : AllNext P (unlessFaulted s k) := by
  intro t ht
  obtain ⟨-, rfl⟩ | ⟨hf, hkt⟩ := unlessFaulted_next ht
  · exact hs
  · exact hk hf t hkt

theorem allNext_require {P : State → Prop} {ok : Bool} {f : FaultCode} {i : Instr} {s : State} {k : Result}
    (hfault : P (raise f i s)) (hk : ok = true → AllNext P k) : AllNext P (require ok f i s k) := by
  intro t ht
  obtain ⟨hok, hkt⟩ | ⟨-, rfl⟩ := require_next ht
  · exact hk hok t hkt
  · exact hfault

theorem allNext_withElement {P : State → Prop} {r : Ring} {j : Nat} {k : Result}
    (hk : j < r.cells → AllNext P k) : AllNext P (withElement r j k) := by
  intro t ht
  obtain ⟨hj, hkt⟩ := withElement_next ht
  exact hk hj t hkt

end Sys2Proof.Machine
end

section
/-! SUPPORT. The model table's part of the machine invariant: writing and updating an entry keep the canonical form
and the bounds of 42_bit_model R150. -/
namespace Sys2Proof.Machine

/-! ### The cells a write can leave -/

theorem Memory.mem_of_mem_erase {w : Nat} {m : Memory w} {a : Nat} {c : Nat × BitVec w}
    (h : c ∈ Memory.erase m a) : c ∈ m := by
  induction m with
  | nil => exact h
  | cons e m ih =>
    unfold Memory.erase at h
    split at h
    · exact List.mem_cons_of_mem e (ih h)
    · rcases List.mem_cons.1 h with rfl | h
      · exact List.mem_cons_self
      · exact List.mem_cons_of_mem e (ih h)

theorem Memory.eq_or_mem_of_mem_insert {w : Nat} {m : Memory w} {a : Nat} {v : BitVec w} {c : Nat × BitVec w}
    (h : c ∈ Memory.insert m a v) : c = (a, v) ∨ c ∈ m := by
  induction m with
  | nil => exact .inl (List.mem_singleton.1 h)
  | cons e m ih =>
    unfold Memory.insert at h
    split at h
    · exact List.mem_cons.1 h
    · rcases List.mem_cons.1 h with rfl | h
      · exact .inr List.mem_cons_self
      · exact (ih h).imp_right (List.mem_cons_of_mem e)

theorem Memory.eq_or_mem_of_mem_write {w : Nat} {d : BitVec w} {m : Memory w} {a : Nat} {v : BitVec w}
    {c : Nat × BitVec w} (h : c ∈ Memory.write d m a v) : c = (a, v) ∨ c ∈ m := by
  unfold Memory.write at h
  split at h
  · exact .inr (Memory.mem_of_mem_erase h)
  · exact (Memory.eq_or_mem_of_mem_insert h).imp_right Memory.mem_of_mem_erase

/-- A read answers the value of a listed cell, or what an unlisted index reads as. -/
theorem Memory.read_eq_default_or_mem {w : Nat} (d : BitVec w) (m : Memory w) (a : Nat) :
    Memory.read d m a = d ∨ ∃ c ∈ m, Memory.read d m a = c.2 := by
  induction m with
  | nil => exact .inl rfl
  | cons e m ih =>
    unfold Memory.read
    split
    · exact .inr ⟨e, List.mem_cons_self, rfl⟩
    · exact ih.imp_right fun ⟨c, hc, hread⟩ => ⟨c, List.mem_cons_of_mem e hc, hread⟩

/-! ### Entries and the table -/

theorem mtRead_bounded {s : State} (h : TableBounded s.mt) (i : Nat) :
    511 ≤ (mtRead s i).toNat ∧ (mtRead s i).toNat ≤ 3585 := by
  rcases Memory.read_eq_default_or_mem mtDefault s.mt i with hread | ⟨c, hc, hread⟩
  · rw [mtRead, hread]; decide
  · rw [mtRead, hread]; exact h c hc

theorem update_true (p : Nat) : update p true = p - p / 512 := rfl

theorem update_false (p : Nat) : update p false = min (p + (4096 - p) / 512) 4095 := rfl

/-- `Update` keeps [511, 3585]: at either end its step is 0 (42_bit_model R150). -/
theorem update_bounded {p : Nat} (h : 511 ≤ p ∧ p ≤ 3585) (bit : Bool) :
    511 ≤ update p bit ∧ update p bit ≤ 3585 := by
  cases bit with
  | false => rw [update_false]; omega
  | true => rw [update_true]; omega

theorem tableInv_write {m : Memory 13} (h : TableInv m) {i : Nat} (hi : i < Config.tableSize) {p : Prob}
    (hp : 511 ≤ p.toNat ∧ p.toNat ≤ 3585) : TableInv (Memory.write mtDefault m i p) := by
  obtain ⟨hwf, hbounded⟩ := h
  refine ⟨Memory.wf_write _ _ _ _ _ hwf hi, fun c hc => ?_⟩
  obtain rfl | hc := Memory.eq_or_mem_of_mem_write hc
  · exact hp
  · exact hbounded c hc

theorem tableInv_mtUpdate {s : State} (h : TableInv s.mt) {i : Nat} (hi : i < Config.tableSize) (bit : Bool) :
    TableInv (mtUpdate s i bit).mt := by
  obtain ⟨hlow, hhigh⟩ := update_bounded (mtRead_bounded h.2 i) bit
  refine tableInv_write h hi ?_
  rw [BitVec.toNat_ofNat, Nat.mod_eq_of_lt (by omega)]
  exact ⟨hlow, hhigh⟩

/-- A table all of whose entries are 2048 is canonical with nothing listed. -/
theorem fill_pInit_eq_nil (len : Nat) :
    Memory.fill mtDefault len (BitVec.ofNat 13 Config.pInit) = [] := if_pos rfl

theorem tableInv_nil : TableInv [] := ⟨rfl, by simp⟩

theorem tableInv_fill_pInit (len : Nat) : TableInv (Memory.fill mtDefault len (BitVec.ofNat 13 Config.pInit)) := by
  rw [fill_pInit_eq_nil]
  exact tableInv_nil

end Sys2Proof.Machine
end

section
/-! SUPPORT. The buffer's part of the machine invariant (10_state R36 to R38): what each CB_ and DQ_ command leaves of
the ring. -/
namespace Sys2Proof.Machine

theorem ringInv_of_allocated {r : Ring} (ha : r.alloc = true) (h : AllocatedInv r) : RingInv r :=
  ⟨fun _ => h, fun hr => by simp [ha] at hr⟩

theorem ringInv_of_released {r : Ring} (ha : r.alloc = false) (h : ReleasedInv r) : RingInv r :=
  ⟨fun hr => by simp [ha] at hr, fun _ => h⟩

/-- The sizes CB_RESIZE accepts are the powers of two up to NMAX (40_cyclic_buffer R111). -/
theorem sizeLegal_iff (n : BitVec 24) : sizeLegal n = true ↔ ∃ k, k < 17 ∧ n.toNat = 2 ^ k := by
  have hpow : sizeLegal n = true ↔ n.toNat.isPowerOfTwo ∧ n.toNat ≤ Config.nMax := by
    rw [← Nat.ne_zero_and_sub_one_eq_zero_iff_isPowerOfTwo]
    by_cases hn : n = 0#24
    · simp [sizeLegal, hn]
    · have hpos : n.toNat ≠ 0 := fun h => hn (BitVec.eq_of_toNat_eq h)
      have hsub : (n - 1#24).toNat = n.toNat - 1 := by bv_omega
      have hand : n &&& (n - 1#24) = 0#24 ↔ n.toNat &&& (n.toNat - 1) = 0 := by
        rw [BitVec.toNat_eq, BitVec.toNat_and, hsub]; rfl
      simp [sizeLegal, hn, hand, hpos]
  rw [hpow]
  constructor
  · rintro ⟨⟨k, hk⟩, hmax⟩
    have : 2 ^ k < 2 ^ 17 := by rw [← hk]; exact Nat.lt_of_le_of_lt hmax (by decide)
    exact ⟨k, (Nat.pow_lt_pow_iff_right (by decide)).1 this, hk⟩
  · rintro ⟨k, hk, hn⟩
    refine ⟨⟨k, hn⟩, ?_⟩
    rw [hn]
    exact Nat.pow_le_pow_right (n := 2) (by decide) (Nat.le_of_lt_succ hk)

theorem ringInv_freshRing {n : BitVec 24} (h : sizeLegal n = true) (pad : BitVec 8) : RingInv (freshRing n pad) := by
  obtain ⟨k, hk, hn⟩ := (sizeLegal_iff n).1 h
  have hle : 2 ^ k ≤ 2 ^ 16 := Nat.pow_le_pow_right (by decide) (Nat.le_of_lt_succ hk)
  have hpos : 0 < 2 ^ k := Nat.two_pow_pos k
  have hn17 : (n.setWidth 17).toNat = 2 ^ k := by
    rw [BitVec.toNat_setWidth, hn, Nat.mod_eq_of_lt (by omega)]
  have hmask : (n.setWidth 32 - 1#32).toNat = 2 ^ k - 1 := by bv_omega
  exact ringInv_of_allocated rfl
    ⟨⟨k, hk, hn17⟩, by simpa only [freshRing, hn17] using hmask, Nat.zero_le _, Memory.wf_nil _ _⟩

theorem ringInv_releasedRing (r : Ring) : RingInv (releasedRing r) :=
  ringInv_of_released rfl ⟨rfl, rfl, rfl, rfl, rfl⟩

/-- The storage may be replaced by any canonical one of the same size. -/
theorem allocatedInv_setStorage {r : Ring} (h : AllocatedInv r) {m : Memory 16}
    (hm : Memory.wf stDefault r.cells m = true) : AllocatedInv { r with st := m } := by
  obtain ⟨hn, hmask, hsize, -⟩ := h
  exact ⟨hn, hmask, hsize, hm⟩

theorem storage_wf_of_allocated {r : Ring} (h : AllocatedInv r) : Memory.wf stDefault r.cells r.st = true := by
  obtain ⟨-, -, -, hwf⟩ := h
  exact hwf

theorem allocatedInv_pushElement {r : Ring} (h : AllocatedInv r) (v : Sample) : AllocatedInv (pushElement r v) :=
  allocatedInv_setStorage h (Memory.wf_write _ _ _ _ _ (storage_wf_of_allocated h) (maskedIndex_lt_cells h r.pos))

/-- One more live element, when the deque is not full. -/
theorem allocatedInv_incSize {r : Ring} (h : AllocatedInv r) (hroom : r.dqSize ≠ r.n) :
    AllocatedInv { r with dqSize := r.dqSize + 1#17 } := by
  obtain ⟨⟨k, hk, hn⟩, hmask, hsize, hwf⟩ := h
  have hle : 2 ^ k ≤ 2 ^ 16 := Nat.pow_le_pow_right (by decide) (Nat.le_of_lt_succ hk)
  refine ⟨⟨k, hk, hn⟩, hmask, ?_, hwf⟩
  change (r.dqSize + 1#17).toNat ≤ r.n.toNat
  bv_omega

/-- Taking at most the live elements off the front keeps the buffer consistent, allocated or released. -/
theorem ringInv_popFront {r : Ring} (h : RingInv r) {k : BitVec 24} (hk : k.toNat ≤ r.dqSize.toNat) :
    RingInv { r with frontPos := r.frontPos + k.setWidth 32, dqSize := r.dqSize - k.setWidth 17 } := by
  obtain ⟨halloc, hrel⟩ := h
  have hsub : (r.dqSize - k.setWidth 17).toNat = r.dqSize.toNat - k.toNat := by bv_omega
  constructor
  · intro ha
    obtain ⟨hn, hmask, hsize, hwf⟩ := halloc ha
    exact ⟨hn, hmask, hsub ▸ (Nat.sub_le _ _).trans hsize, hwf⟩
  · intro ha
    obtain ⟨hn, hpad, hmask, hsize, hst⟩ := hrel ha
    exact ⟨hn, hpad, hmask, BitVec.eq_of_toNat_eq (by rw [hsub, hsize]; simp), hst⟩

end Sys2Proof.Machine
end

section
/-! SUPPORT. The range coder's part of the machine invariant (43_range_coder R166, R175): the interval updates, one
turn of each normalisation loop, the loops, the flush and the preload. -/
namespace Sys2Proof.Machine

/-! ### The invariant of the coder registers in each MODE -/

theorem coderInv_enc_iff (c : Coder) : CoderInv .enc c ↔ RangeNormal c ∧ CarryInv c ∧ c.code = 0#32 := by
  simp [CoderInv]

theorem coderInv_dec_iff (c : Coder) : CoderInv .dec c ↔ RangeNormal c ∧ PipelineEmpty c := by
  simp [CoderInv]

theorem coderInv_flushed_iff (c : Coder) :
    CoderInv .flushed c ↔ RangeNormal c ∧ PipelineEmpty c ∧ c.code = 0#32 := by
  simp [CoderInv]

/-! ### Interval updates -/

/-- A RANGE of at least 2^24 is cut by a legal probability into two parts of at least 2^12 each (R161, R166). -/
theorem partition_bounds {range : BitVec 32} (hr : Config.normThreshold ≤ range.toNat) {p : Nat}
    (hp : 1 ≤ p ∧ p ≤ 4095) : 4096 ≤ partition range p ∧ partition range p + 4096 ≤ range.toNat := by
  have hpart : partition range p = range.toNat / 4096 * p := rfl
  have hlow : range.toNat / 4096 * 1 ≤ range.toNat / 4096 * p := Nat.mul_le_mul_left _ hp.1
  have hhigh : range.toNat / 4096 * p ≤ range.toNat / 4096 * 4095 := Nat.mul_le_mul_left _ hp.2
  have hthreshold : 16777216 ≤ range.toNat := hr
  omega

/-- A part of the interval fits the 32 bits of RANGE. -/
theorem toNat_ofNat_of_le_toNat {range : BitVec 32} {y : Nat} (h : y ≤ range.toNat) :
    (BitVec.ofNat 32 y).toNat = y := by
  rw [BitVec.toNat_ofNat, Nat.mod_eq_of_lt (Nat.lt_of_le_of_lt h range.isLt)]

/-- Keeping the lower part of the interval keeps the carry invariants. -/
theorem carryInv_narrow {c : Coder} (h : CarryInv c) {y : Nat} (hy : y ≤ c.range.toNat) :
    CarryInv { c with range := BitVec.ofNat 32 y } := by
  obtain ⟨hsum, hcarry, hheld, hroom⟩ := h
  simp only [CarryInv, toNat_ofNat_of_le_toNat hy]
  refine ⟨by omega, fun hc => ?_, hheld, fun hv => ?_⟩
  · have := hcarry hc
    omega
  · have := hroom hv
    omega

/-- Moving to an upper part of the interval keeps the carry invariants: with a carry pending the addition cannot
overflow again, and where it overflows the held octet can take the carry in (R175). -/
theorem carryInv_raise {c : Coder} (h : CarryInv c) {x y : Nat} (hy : 0 < y) (hxy : x + y ≤ c.range.toNat) :
    CarryInv { c with
      carry := c.carry || decide (2 ^ 32 ≤ c.low.toNat + x)
      low := BitVec.ofNat 32 (c.low.toNat + x)
      range := BitVec.ofNat 32 y } := by
  obtain ⟨hsum, hcarry, hheld, hroom⟩ := h
  have hlt := c.low.isLt
  have hrlt := c.range.isLt
  have hy' : (BitVec.ofNat 32 y).toNat = y := toNat_ofNat_of_le_toNat (range := c.range) (by omega)
  have hlow' : (BitVec.ofNat 32 (c.low.toNat + x)).toNat = (c.low.toNat + x) % 2 ^ 32 := BitVec.toNat_ofNat ..
  by_cases hover : 2 ^ 32 ≤ c.low.toNat + x
  · have hc : c.carry = false := Bool.eq_false_iff.2 fun hc => by
      have := hcarry hc
      omega
    have hkept : ¬ (c.heldValid = false ∨ c.held.toNat = 0xFF) := fun hv => by
      have := hroom hv
      omega
    obtain ⟨hvalid, hFF⟩ := not_or.1 hkept
    have hFE : c.held.toNat ≤ 0xFE := Nat.le_of_lt_succ (Nat.lt_of_le_of_ne (Nat.le_of_lt_succ c.held.isLt) hFF)
    rw [hc, Bool.toNat_false] at hsum
    simp only [CarryInv, hover, decide_true, Bool.or_true, Bool.toNat_true, hlow', hy']
    exact ⟨by omega, fun _ => by omega, fun _ => ⟨Bool.eq_true_of_not_eq_false hvalid, hFE⟩,
      fun hv => absurd hv hkept⟩
  · have hnowrap : (c.low.toNat + x) % 2 ^ 32 = c.low.toNat + x := Nat.mod_eq_of_lt (by omega)
    simp only [CarryInv, hover, decide_false, Bool.or_false, hlow', hnowrap, hy']
    refine ⟨by omega, fun hc => ?_, hheld, fun hv => ?_⟩
    · have := hcarry hc
      omega
    · have := hroom hv
      omega

/-- What an interval update hands to the normalisation: the carry invariants, and a RANGE of at least 2^12. -/
def EncReady (c : Coder) : Prop := CarryInv c ∧ 4096 ≤ c.range.toNat ∧ c.code = 0#32

theorem encReady_encInterval {s : State} (h : CoderInv .enc s.rc) {p : Nat} (hp : 1 ≤ p ∧ p ≤ 4095) (bit : Bool) :
    EncReady (encInterval p bit s).rc := by
  obtain ⟨hr, hcarry, hcode⟩ := (coderInv_enc_iff s.rc).1 h
  obtain ⟨hlow, hhigh⟩ := partition_bounds hr hp
  cases bit with
  | false =>
    have hmid : partition s.rc.range p ≤ s.rc.range.toNat := by omega
    exact ⟨carryInv_narrow hcarry hmid, hlow.trans_eq (toNat_ofNat_of_le_toNat hmid).symm, hcode⟩
  | true =>
    have hrest : 4096 ≤ s.rc.range.toNat - partition s.rc.range p := by omega
    exact ⟨carryInv_raise hcarry (by omega) (by omega),
      hrest.trans_eq (toNat_ofNat_of_le_toNat (Nat.sub_le _ _)).symm, hcode⟩

/-- Half of a RANGE of at least 2^24 is at least 2^12 (it is at least 2^23), as the register holds it. -/
theorem le_toNat_half_range {range : BitVec 32} (hr : Config.normThreshold ≤ range.toNat) :
    4096 ≤ (BitVec.ofNat 32 (range.toNat / 2)).toNat := by
  rw [toNat_ofNat_of_le_toNat (Nat.div_le_self _ _)]
  have hthreshold : 16777216 ≤ range.toNat := hr
  omega

theorem encReady_encDirectInterval {s : State} (h : CoderInv .enc s.rc) (bit : Bool) :
    EncReady (encDirectInterval bit s).rc := by
  obtain ⟨hr, hcarry, hcode⟩ := (coderInv_enc_iff s.rc).1 h
  have hthreshold : 16777216 ≤ s.rc.range.toNat := hr
  have hhalf := le_toNat_half_range hr
  cases bit with
  | false => exact ⟨carryInv_narrow hcarry (by omega), hhalf, hcode⟩
  | true => exact ⟨carryInv_raise hcarry (by omega) (by omega), hhalf, hcode⟩

/-! ### Normalisation in the encoder -/

/-- The registers `ShiftOut` leaves alone, and those it clears or shifts whatever it writes. -/
theorem shiftOut_registers (s : State) :
    (shiftOut s).rc.range = s.rc.range ∧ (shiftOut s).rc.code = s.rc.code ∧
      (shiftOut s).rc.carry = false ∧ (shiftOut s).rc.low = s.rc.low <<< 8 := by
  rcases shiftOut_cases s with ⟨-, h⟩ | ⟨-, h⟩ <;> rw [h] <;> exact ⟨rfl, rfl, rfl, rfl⟩

@[simp] theorem shiftOut_range (s : State) : (shiftOut s).rc.range = s.rc.range := (shiftOut_registers s).1
@[simp] theorem shiftOut_code (s : State) : (shiftOut s).rc.code = s.rc.code := (shiftOut_registers s).2.1
@[simp] theorem shiftOut_carry (s : State) : (shiftOut s).rc.carry = false := (shiftOut_registers s).2.2.1
@[simp] theorem shiftOut_low (s : State) : (shiftOut s).rc.low = s.rc.low <<< 8 := (shiftOut_registers s).2.2.2

/-- A RANGE below 2^24 loses nothing when it is shifted by an octet. -/
theorem toNat_shiftRange {s : State} (h : s.rc.range.toNat < Config.normThreshold) :
    (shiftRange s).rc.range.toNat = s.rc.range.toNat * 256 := by
  have hthreshold : s.rc.range.toNat < 16777216 := h
  rw [shiftRange_rc, BitVec.toNat_shiftLeft, Nat.shiftLeft_eq]
  omega

/-- One turn of the encoder's loop keeps the carry invariants. The octet kept back is 0xFF only where LOW + RANGE did
not pass 2^32 before, and then the shifted sum does not either. -/
theorem carryInv_shiftRange_shiftOut {s : State} (h : CarryInv s.rc)
    (hr : s.rc.range.toNat < Config.normThreshold) : CarryInv (shiftRange (shiftOut s)).rc := by
  obtain ⟨hsum, hcarry, hheld, hroom⟩ := h
  have hthreshold : s.rc.range.toNat < 16777216 := hr
  have hlt := s.rc.low.isLt
  have hshifted : s.rc.low.toNat * 256 % 2 ^ 32 + s.rc.range.toNat * 256 ≤ 2 ^ 33 - 512 := by omega
  have hfull : s.rc.low.toNat + s.rc.range.toNat ≤ 2 ^ 32 → 0xFF000000 ≤ s.rc.low.toNat →
      s.rc.low.toNat * 256 % 2 ^ 32 + s.rc.range.toNat * 256 ≤ 2 ^ 32 := fun h1 h2 => by omega
  have hrange : (shiftRange (shiftOut s)).rc.range.toNat = s.rc.range.toNat * 256 := by
    rw [toNat_shiftRange (by rwa [shiftOut_range]), shiftOut_range]
  have hlow : (shiftRange (shiftOut s)).rc.low.toNat = s.rc.low.toNat * 256 % 2 ^ 32 := by
    rw [shiftRange_rc, shiftOut_low, BitVec.toNat_shiftLeft, Nat.shiftLeft_eq]
  have hc : (shiftRange (shiftOut s)).rc.carry = false := shiftOut_carry s
  refine ⟨?_, ?_, ?_, fun hv => ?_⟩
  · rw [hc, hlow, hrange, Bool.toNat_false, Nat.zero_mul, Nat.zero_add]; exact hshifted
  · intro htrue; rw [hc] at htrue; cases htrue
  · intro htrue; rw [hc] at htrue; cases htrue
  · rw [hlow, hrange]
    rcases shiftOut_cases s with ⟨hout, heq⟩ | ⟨hcount, heq⟩
    · have hFF : (s.rc.low.extractLsb' 24 8).toNat = 0xFF := by
        simpa [heq] using hv
      rw [BitVec.extractLsb'_toNat, Nat.shiftRight_eq_div_pow] at hFF
      exact hfull (hcarry (hout.resolve_left (by omega))) (by omega)
    · have hkept : s.rc.heldValid = false ∨ s.rc.held.toNat = 0xFF := by
        simpa [heq] using hv
      exact hfull (hroom hkept) (by omega)

/-- Enough turns bring RANGE to 2^24, and every turn keeps the carry invariants and CODE. -/
theorem coderInv_encNormalizeLoop (n : Nat) {s : State} (hcarry : CarryInv s.rc) (hcode : s.rc.code = 0#32)
    (hr : Config.normThreshold ≤ s.rc.range.toNat * 256 ^ n) : CoderInv .enc (encNormalizeLoop n s).rc := by
  induction n generalizing s with
  | zero => exact (coderInv_enc_iff _).2 ⟨hr.trans_eq (Nat.mul_one _), hcarry, hcode⟩
  | succ n ih =>
    unfold encNormalizeLoop
    split
    next hlt =>
      refine ih (carryInv_shiftRange_shiftOut hcarry hlt) (by simpa using hcode) ?_
      rw [toNat_shiftRange (by rwa [shiftOut_range]), shiftOut_range, Nat.mul_assoc, ← Nat.pow_succ']
      exact hr
    next hge => exact (coderInv_enc_iff _).2 ⟨Nat.le_of_not_lt hge, hcarry, hcode⟩

theorem coderInv_encNormalize {s : State} (h : EncReady s.rc) : CoderInv .enc (encNormalize s).rc := by
  obtain ⟨hcarry, hr, hcode⟩ := h
  refine coderInv_encNormalizeLoop normBound hcarry hcode ?_
  calc Config.normThreshold ≤ 4096 * 256 ^ normBound := by decide
    _ ≤ s.rc.range.toNat * 256 ^ normBound := Nat.mul_le_mul_right _ hr

theorem coderInv_encBit {s : State} (h : CoderInv .enc s.rc) {p : Nat} (hp : 1 ≤ p ∧ p ≤ 4095) (bit : Bool) :
    CoderInv .enc (encBit p bit s).rc := coderInv_encNormalize (encReady_encInterval h hp bit)

theorem coderInv_encDirectBit {s : State} (h : CoderInv .enc s.rc) (bit : Bool) :
    CoderInv .enc (encDirectBit bit s).rc := coderInv_encNormalize (encReady_encDirectInterval h bit)

/-! ### The flush -/

@[simp] theorem shiftOutRun_range (n : Nat) (s : State) : (shiftOutRun n s).rc.range = s.rc.range := by
  induction n generalizing s with
  | zero => rfl
  | succ n ih => rw [shiftOutRun, ih, shiftOut_range]

@[simp] theorem shiftOutRun_code (n : Nat) (s : State) : (shiftOutRun n s).rc.code = s.rc.code := by
  induction n generalizing s with
  | zero => rfl
  | succ n ih => rw [shiftOutRun, ih, shiftOut_code]

@[simp] theorem shiftOutRun_low (n : Nat) (s : State) : (shiftOutRun n s).rc.low = s.rc.low <<< (8 * n) := by
  induction n generalizing s with
  | zero => simp [shiftOutRun]
  | succ n ih => rw [shiftOutRun, ih, shiftOut_low, ← BitVec.shiftLeft_add, Nat.mul_succ, Nat.add_comm]

theorem shiftOutRun_carry {n : Nat} (hn : n ≠ 0) (s : State) : (shiftOutRun n s).rc.carry = false := by
  induction n generalizing s with
  | zero => exact absurd rfl hn
  | succ n ih =>
    cases n with
    | zero => exact shiftOut_carry s
    | succ n => exact ih (Nat.succ_ne_zero n) (shiftOut s)

@[simp] theorem drain_range (s : State) : (drain s).rc.range = s.rc.range := by rw [drain_eq]

@[simp] theorem drain_code (s : State) : (drain s).rc.code = s.rc.code := by rw [drain_eq]

theorem pipelineEmpty_drain {s : State} (hlow : s.rc.low = 0#32) (hcarry : s.rc.carry = false) :
    PipelineEmpty (drain s).rc := by
  rw [drain_eq]
  exact ⟨hlow, hcarry, rfl, rfl, rfl⟩

/-- Five `ShiftOut` push all 32 bits of LOW out, and `Drain` empties the pipeline (R173). -/
theorem coderInv_flush {s : State} (h : CoderInv .enc s.rc) :
    CoderInv .flushed (drain (shiftOutRun Config.flushLength s)).rc := by
  obtain ⟨hr, -, hcode⟩ := (coderInv_enc_iff s.rc).1 h
  have hlow : (shiftOutRun Config.flushLength s).rc.low = 0#32 := by
    rw [shiftOutRun_low]; exact BitVec.shiftLeft_eq_zero (by decide)
  have hcarry : (shiftOutRun Config.flushLength s).rc.carry = false := shiftOutRun_carry (by decide) s
  refine (coderInv_flushed_iff _).2 ⟨?_, pipelineEmpty_drain hlow hcarry, ?_⟩
  · rw [RangeNormal, drain_range, shiftOutRun_range]; exact hr
  · rw [drain_code, shiftOutRun_code]; exact hcode

/-! ### The decoder -/

/-- Reading an octet into CODE leaves RANGE and the carry pipeline alone. -/
theorem readIntoCode_registers (s : State) :
    ∃ code count eof, (readIntoCode s).rc = { s.rc with code := code, srcCount := count, srcEof := eof } := by
  rcases srcRead_cases s with ⟨o, rest, -, h⟩ | ⟨-, h⟩ <;> exact ⟨_, _, _, by rw [readIntoCode, h]⟩

@[simp] theorem readIntoCode_range (s : State) : (readIntoCode s).rc.range = s.rc.range := by
  obtain ⟨code, count, eof, h⟩ := readIntoCode_registers s
  rw [h]

theorem pipelineEmpty_readIntoCode {s : State} (h : PipelineEmpty s.rc) : PipelineEmpty (readIntoCode s).rc := by
  obtain ⟨code, count, eof, hrc⟩ := readIntoCode_registers s
  rw [hrc]
  exact h

theorem coderInv_readIntoCodeRun (n : Nat) {s : State} (h : CoderInv .dec s.rc) :
    CoderInv .dec (readIntoCodeRun n s).rc := by
  induction n generalizing s with
  | zero => exact h
  | succ n ih =>
    obtain ⟨hr, hempty⟩ := (coderInv_dec_iff s.rc).1 h
    exact ih ((coderInv_dec_iff _).2 ⟨by simpa [RangeNormal] using hr, pipelineEmpty_readIntoCode hempty⟩)

theorem coderInv_decNormalizeLoop (n : Nat) {s : State} (hempty : PipelineEmpty s.rc)
    (hr : Config.normThreshold ≤ s.rc.range.toNat * 256 ^ n) : CoderInv .dec (decNormalizeLoop n s).rc := by
  induction n generalizing s with
  | zero => exact (coderInv_dec_iff _).2 ⟨hr.trans_eq (Nat.mul_one _), hempty⟩
  | succ n ih =>
    unfold decNormalizeLoop
    split
    next hlt =>
      refine ih (pipelineEmpty_readIntoCode hempty) ?_
      rw [toNat_shiftRange (by rwa [readIntoCode_range]), readIntoCode_range, Nat.mul_assoc, ← Nat.pow_succ']
      exact hr
    next hge => exact (coderInv_dec_iff _).2 ⟨Nat.le_of_not_lt hge, hempty⟩

/-- What an interval test hands to the normalisation: an empty pipeline, and a RANGE of at least 2^12. -/
def DecReady (c : Coder) : Prop := PipelineEmpty c ∧ 4096 ≤ c.range.toNat

theorem coderInv_decNormalize {s : State} (h : DecReady s.rc) : CoderInv .dec (decNormalize s).rc := by
  obtain ⟨hempty, hr⟩ := h
  refine coderInv_decNormalizeLoop normBound hempty ?_
  calc Config.normThreshold ≤ 4096 * 256 ^ normBound := by decide
    _ ≤ s.rc.range.toNat * 256 ^ normBound := Nat.mul_le_mul_right _ hr

theorem decReady_decInterval {s : State} (h : CoderInv .dec s.rc) {p : Nat} (hp : 1 ≤ p ∧ p ≤ 4095) :
    DecReady (decInterval p s).2.rc := by
  obtain ⟨hr, hempty⟩ := (coderInv_dec_iff s.rc).1 h
  obtain ⟨hlow, hhigh⟩ := partition_bounds hr hp
  rcases decInterval_cases p s with ⟨-, heq⟩ | ⟨-, heq⟩
  · have hmid : partition s.rc.range p ≤ s.rc.range.toNat := by omega
    rw [heq]
    exact ⟨hempty, hlow.trans_eq (toNat_ofNat_of_le_toNat hmid).symm⟩
  · have hrest : 4096 ≤ s.rc.range.toNat - partition s.rc.range p := by omega
    rw [heq]
    exact ⟨hempty, hrest.trans_eq (toNat_ofNat_of_le_toNat (Nat.sub_le _ _)).symm⟩

theorem decReady_decDirectInterval {s : State} (h : CoderInv .dec s.rc) : DecReady (decDirectInterval s).2.rc := by
  obtain ⟨hr, hempty⟩ := (coderInv_dec_iff s.rc).1 h
  have hhalf := le_toNat_half_range hr
  rcases decDirectInterval_cases s with ⟨-, heq⟩ | ⟨-, heq⟩ <;> rw [heq] <;> exact ⟨hempty, hhalf⟩

theorem coderInv_decBit {s : State} (h : CoderInv .dec s.rc) {p : Nat} (hp : 1 ≤ p ∧ p ≤ 4095) :
    CoderInv .dec (decBit p s).2.rc := coderInv_decNormalize (decReady_decInterval h hp)

theorem coderInv_decDirectBit {s : State} (h : CoderInv .dec s.rc) : CoderInv .dec (decDirectBit s).2.rc :=
  coderInv_decNormalize (decReady_decDirectInterval h)

/-! ### The two init commands and the operand check -/

theorem normThreshold_le_fullRange : Config.normThreshold ≤ (0xFFFFFFFF#32).toNat := by decide

theorem coderInv_freshCoder_enc (c : Coder) : CoderInv .enc { freshCoder c with snkCount := 0#32 } :=
  (coderInv_enc_iff _).2 ⟨normThreshold_le_fullRange, by simp [CarryInv, freshCoder], rfl⟩

theorem coderInv_freshCoder_dec (c : Coder) :
    CoderInv .dec { freshCoder c with srcCount := 0#32, srcEof := false } :=
  (coderInv_dec_iff _).2 ⟨normThreshold_le_fullRange, rfl, rfl, rfl, rfl, rfl⟩

/-- The probabilities RC_ENC and RC_DEC accept (60_exceptions R231). -/
theorem probLegal_iff (p : Prob) : probLegal p = true ↔ 1 ≤ p.toNat ∧ p.toNat ≤ 4095 := by
  simp only [probLegal, Bool.not_eq_true', Bool.or_eq_false_iff, beq_eq_false_iff_ne, decide_eq_false_iff_not]
  bv_omega

end Sys2Proof.Machine
end

section
/-! SUPPORT. The machine invariant through every command (10_state, 42_bit_model R150, 43_range_coder R166, R175): the
residual coder keeps the coder's and the table's part together, and every other effect touches one part. -/
namespace Sys2Proof.Machine

/-! ### Updates that touch one part of the invariant -/

theorem inv_setRes {s : State} (h : Inv s) (v : BitVec 32) : Inv (setRes s v) := h

theorem inv_setHist {s : State} (h : Inv s) (c : Channel) (hist : History) : Inv (setHist s c hist) := by
  cases c <;> exact h

theorem inv_setRing {s : State} (h : Inv s) {r : Ring} (hr : RingInv r) : Inv { s with ring := r } := by
  obtain ⟨hlatch, hcoder, htable, -⟩ := h
  exact ⟨hlatch, hcoder, htable, hr⟩

theorem inv_setCoder {s : State} (h : Inv s) {m : Mode} {c : Coder} (hc : CoderInv m c) :
    Inv { s with mode := m, rc := c } := by
  obtain ⟨hlatch, -, htable, hring⟩ := h
  exact ⟨hlatch, hc, htable, hring⟩

theorem inv_setTable {s : State} (h : Inv s) {m : Memory 13} (hm : TableInv m) (valid : Bool) :
    Inv { s with mt := m, mtValid := valid } := by
  obtain ⟨hlatch, hcoder, -, hring⟩ := h
  exact ⟨hlatch, hcoder, hm, hring⟩

theorem faultNumber_bounds (f : FaultCode) : (faultNumber f).toNat ≤ 9 ∧ faultNumber f ≠ 0#8 := by
  cases f <;> decide

theorem inv_raiseWord {s : State} (h : Inv s) (f : FaultCode) (w : CmdWord) : Inv (raiseWord f w s) := by
  obtain ⟨-, hcoder, htable, hring⟩ := h
  obtain ⟨hle, hne⟩ := faultNumber_bounds f
  exact ⟨⟨hle, fun hzero => absurd hzero hne⟩, hcoder, htable, hring⟩

theorem inv_raise {s : State} (h : Inv s) (f : FaultCode) (i : Instr) : Inv (raise f i s) :=
  inv_raiseWord h f (encode i)

theorem inv_reset : Inv State.reset :=
  ⟨by decide, by decide, tableInv_nil, ringInv_of_released rfl ⟨rfl, rfl, rfl, rfl, rfl⟩⟩

/-- The invariant says nothing of the ports. -/
theorem inv_setPorts {s : State} (h : Inv s) (io : Ports) : Inv { s with io := io } := h

/-! ### The residual coder -/

/-- The part of the invariant the residual coder works on: the coder registers in MODE `m`, and the table. -/
def CodecInv (m : Mode) (s : State) : Prop := CoderInv m s.rc ∧ TableInv s.mt

theorem sameOutsideCoder_mt {s t : State} (h : SameOutsideCoder s t) : t.mt = s.mt := by
  unfold SameOutsideCoder at h
  rw [h]

/-- A command that changes at most MODE, coder, octet ports and table keeps the invariant if it keeps that part. -/
theorem inv_setMode_of_sameOutsideCodec {s t : State} {m : Mode} (h : Inv s) (hst : SameOutsideCodec s t)
    (ht : CodecInv m t) : Inv { t with mode := m } := by
  obtain ⟨hlatch, -, -, hring⟩ := h
  obtain ⟨hcoder, htable⟩ := ht
  unfold SameOutsideCodec at hst
  rw [hst]
  exact ⟨hlatch, hcoder, htable, hring⟩

theorem inv_of_sameOutsideCodec {s t : State} {m : Mode} (h : Inv s) (hm : s.mode = m) (hst : SameOutsideCodec s t)
    (ht : CodecInv m t) : Inv t := by
  have hmode : t.mode = m := by
    unfold SameOutsideCodec at hst
    rw [hst]
    exact hm
  subst hmode
  exact inv_setMode_of_sameOutsideCodec h hst ht

/-- The same for what leaves the table alone. -/
theorem SameOutsideCoder.codecInv {s t : State} {m : Mode} (hst : SameOutsideCoder s t) (h : Inv s)
    (ht : CoderInv m t.rc) : CodecInv m t := by
  obtain ⟨-, -, htable, -⟩ := h
  exact ⟨ht, by rw [sameOutsideCoder_mt hst]; exact htable⟩

theorem inv_of_sameOutsideCoder {s t : State} {m : Mode} (h : Inv s) (hm : s.mode = m) (hst : SameOutsideCoder s t)
    (ht : CoderInv m t.rc) : Inv t :=
  inv_of_sameOutsideCodec h hm hst.toCodec (hst.codecInv h ht)

/-- An entry in range needs no patch, and it is a probability the coder accepts (45_codec R204). -/
theorem patchedProb_bounds {s : State} (h : TableBounded s.mt) (i : Nat) :
    1 ≤ patchedProb (mtRead s i) ∧ patchedProb (mtRead s i) ≤ 4095 := by
  obtain ⟨hlow, hhigh⟩ := mtRead_bounded h i
  rw [patchedProb, if_neg (by omega)]
  omega

/-- A context of the walk has at most 13 bits, so the index lies in the table (20_memory R70). -/
theorem contextIndex_lt (c : Channel) {ctx : Nat} (h : ctx < 8192) : contextIndex c ctx < Config.tableSize := by
  have hc : channelNumber c ≤ 1 := by cases c <;> decide
  change (0 * 2 + channelNumber c) * 8192 + ctx < 65536
  omega

theorem codecInv_encModelStep {s : State} (h : CodecInv .enc s) (c : Channel) {ctx : Nat} (hctx : ctx < 8192)
    (bit : Bool) : CodecInv .enc (encModelStep c ctx bit s) := by
  obtain ⟨hcoder, htable⟩ := h
  refine ⟨coderInv_encBit hcoder (patchedProb_bounds htable.2 _) bit, ?_⟩
  refine tableInv_mtUpdate ?_ (contextIndex_lt c hctx) bit
  rw [sameOutsideCoder_mt (sameOutsideCoder_encBit _ bit s)]
  exact htable

/-- A context grows by one bit per step, so 13 steps from context 1 stay below 2^13 at each step. -/
theorem codecInv_encWalk (c : Channel) (bits : List Bool) {ctx : Nat} {s : State} (h : CodecInv .enc s)
    (hctx : (ctx + 1) * 2 ^ bits.length ≤ 2 ^ 14) : CodecInv .enc (encWalk c bits ctx s) := by
  induction bits generalizing ctx s with
  | nil => exact h
  | cons bit bits ih =>
    rw [List.length_cons, Nat.pow_succ', ← Nat.mul_assoc] at hctx
    have hpos : 0 < 2 ^ bits.length := Nat.two_pow_pos _
    have hlt : ctx < 8192 := by
      have := (Nat.le_mul_of_pos_right ((ctx + 1) * 2) hpos).trans hctx
      omega
    have hbit := Bool.toNat_le bit
    exact ih (codecInv_encModelStep h c hlt bit) ((Nat.mul_le_mul_right _ (by omega)).trans hctx)

theorem coderInv_encDirectBits (bits : List Bool) {s : State} (h : CoderInv .enc s.rc) :
    CoderInv .enc (encDirectBits bits s).rc := by
  induction bits generalizing s with
  | nil => exact h
  | cons bit bits ih => exact ih (coderInv_encDirectBit h bit)

theorem codecInv_encResidual {s : State} (h : CodecInv .enc s) (c : Channel) (r : Sample) :
    CodecInv .enc (encResidual c r s) := by
  have hwalk : CodecInv .enc (encWalk c (modelledBits r) 1 s) :=
    codecInv_encWalk c (modelledBits r) h (by simp [modelledBits, Config.nonNoiseBits])
  obtain ⟨hcoder, htable⟩ := hwalk
  refine ⟨coderInv_encDirectBits (directBits r) hcoder, ?_⟩
  rw [encResidual, sameOutsideCoder_mt (sameOutsideCoder_encDirectBits (directBits r) _)]
  exact htable

theorem codecInv_decModelStep {s : State} (h : CodecInv .dec s) (c : Channel) {ctx : Nat} (hctx : ctx < 8192) :
    CodecInv .dec (decModelStep c ctx s).2 := by
  obtain ⟨hcoder, htable⟩ := h
  have hp := patchedProb_bounds htable.2 (contextIndex c ctx)
  refine ⟨coderInv_decNormalize (decReady_decInterval hcoder hp), ?_⟩
  rw [decModelStep, sameOutsideCoder_mt (sameOutsideCoder_decNormalize _)]
  refine tableInv_mtUpdate ?_ (contextIndex_lt c hctx) _
  rw [sameOutsideCoder_mt (sameOutsideCoder_decInterval _ s)]
  exact htable

theorem codecInv_decWalk (c : Channel) (n : Nat) {ctx : Nat} {s : State} (h : CodecInv .dec s)
    (hctx : (ctx + 1) * 2 ^ n ≤ 2 ^ 14) : CodecInv .dec (decWalk c n ctx s).2 := by
  induction n generalizing ctx s with
  | zero => exact h
  | succ n ih =>
    rw [Nat.pow_succ', ← Nat.mul_assoc] at hctx
    have hpos : 0 < 2 ^ n := Nat.two_pow_pos _
    have hlt : ctx < 8192 := by
      have := (Nat.le_mul_of_pos_right ((ctx + 1) * 2) hpos).trans hctx
      omega
    have hbit := Bool.toNat_le (decModelStep c ctx s).1
    exact ih (codecInv_decModelStep h c hlt) ((Nat.mul_le_mul_right _ (by omega)).trans hctx)

theorem coderInv_decDirectBits (n ctx : Nat) {s : State} (h : CoderInv .dec s.rc) :
    CoderInv .dec (decDirectBits n ctx s).2.rc := by
  induction n generalizing ctx s with
  | zero => exact h
  | succ n ih => exact ih _ (coderInv_decDirectBit h)

theorem codecInv_decResidual {s : State} (h : CodecInv .dec s) (c : Channel) : CodecInv .dec (decResidual c s).2 := by
  obtain ⟨hcoder, htable⟩ := codecInv_decWalk c Config.nonNoiseBits (ctx := 1) h (by decide)
  refine ⟨coderInv_decDirectBits _ _ hcoder, ?_⟩
  rw [decResidual, sameOutsideCoder_mt (sameOutsideCoder_decDirectBits _ _ _)]
  exact htable

/-! ### Behind the gates -/

theorem codecInv_of_inv {s : State} {m : Mode} (h : Inv s) (hm : s.mode = m) : CodecInv m s := by
  obtain ⟨-, hcoder, htable, -⟩ := h
  exact ⟨hm ▸ hcoder, htable⟩

theorem keepsInv_require {ok : Bool} {f : FaultCode} {i : Instr} {s : State} {k : Result} (h : Inv s)
    (hk : ok = true → AllNext Inv k) : AllNext Inv (require ok f i s k) :=
  allNext_require (inv_raise h f i) hk

theorem keepsInv_requireModel {i : Instr} {s : State} {k : Result} (h : Inv s) (hk : AllNext Inv k) :
    AllNext Inv (requireModel i s k) :=
  keepsInv_require h fun _ => hk

/-- Behind the MODE gate the coder and the table are those of that MODE. -/
theorem keepsInv_requireMode {m : Mode} {i : Instr} {s : State} {k : Result} (h : Inv s)
    (hk : s.mode = m → CodecInv m s → AllNext Inv k) : AllNext Inv (requireMode m i s k) :=
  keepsInv_require h fun hm => hk (eq_of_beq hm) (codecInv_of_inv h (eq_of_beq hm))

/-- Behind the allocation gate the buffer is an allocated one. -/
theorem keepsInv_requireAlloc {i : Instr} {s : State} {k : Result} (h : Inv s)
    (hk : s.ring.alloc = true → AllocatedInv s.ring → AllNext Inv k) : AllNext Inv (requireAlloc i s k) := by
  refine keepsInv_require h fun ha => hk ha ?_
  obtain ⟨-, -, -, halloc, -⟩ := h
  exact halloc ha

/-! ### Commands that change the buffer -/

/-- A command behind the allocation gate that puts a canonical storage of the same size in place. -/
theorem inv_setStorage {s : State} (h : Inv s) (ha : s.ring.alloc = true) (hring : AllocatedInv s.ring)
    {m : Memory 16} (hm : Memory.wf stDefault s.ring.cells m = true) :
    Inv { s with ring := { s.ring with st := m } } :=
  inv_setRing h (ringInv_of_allocated ha (allocatedInv_setStorage hring hm))

theorem keepsInv_execCbPush {s : State} (h : Inv s) (v : BitVec 16) : AllNext Inv (execCbPush v s) :=
  allNext_unlessFaulted h fun _ => keepsInv_requireAlloc h fun ha hring => allNext_withElement fun _ =>
    allNext_next (inv_setRing h (ringInv_of_allocated ha (allocatedInv_pushElement hring v)))

theorem keepsInv_execDqPushBack {s : State} (h : Inv s) (v : BitVec 16) : AllNext Inv (execDqPushBack v s) :=
  allNext_unlessFaulted h fun _ => keepsInv_requireAlloc h fun ha hring => keepsInv_require h fun hroom =>
    allNext_withElement fun _ => allNext_next <| inv_setRing h <| ringInv_of_allocated ha <|
      allocatedInv_incSize (allocatedInv_pushElement hring v) (by simpa [pushElement, stWrite] using hroom)

theorem keepsInv_execDqPopFront {s : State} (h : Inv s) (k : BitVec 24) : AllNext Inv (execDqPopFront k s) := by
  obtain ⟨-, -, -, hring⟩ := id h
  exact allNext_unlessFaulted h fun _ => keepsInv_require h fun hk =>
    allNext_next (inv_setRing h (ringInv_popFront hring (of_decide_eq_true hk)))

theorem keepsInv_execCbCopyS2e {s : State} (h : Inv s) (k : BitVec 24) : AllNext Inv (execCbCopyS2e k s) := by
  refine allNext_unlessFaulted h fun _ => keepsInv_requireAlloc h fun ha hring => keepsInv_require h fun hk =>
    allNext_next (inv_setStorage h ha hring (Memory.wf_copyUp _ _ _ _ _ _ (storage_wf_of_allocated hring) ?_))
  have : k.toNat ≤ s.ring.pad.toNat := of_decide_eq_true hk
  unfold Ring.cells
  omega

theorem keepsInv_execCbCopyE2s {s : State} (h : Inv s) (k : BitVec 24) : AllNext Inv (execCbCopyE2s k s) := by
  refine allNext_unlessFaulted h fun _ => keepsInv_requireAlloc h fun ha hring => keepsInv_require h fun hk =>
    allNext_next (inv_setStorage h ha hring (Memory.wf_copyUp _ _ _ _ _ _ (storage_wf_of_allocated hring) ?_))
  have : k.toNat ≤ 2 * s.ring.pad.toNat := of_decide_eq_true hk
  unfold Ring.cells
  omega

/-! ### Commands that change the coder or the table -/

/-- Where the preload of RC_INIT_DEC starts (43_range_coder R168). -/
def decStart (s : State) : State := { s with rc := { freshCoder s.rc with srcCount := 0#32, srcEof := false } }

theorem execRcInitDec_eq (s : State) : execRcInitDec s =
    unlessFaulted s (.next { readIntoCodeRun Config.preloadLength (decStart s) with mode := .dec }) := rfl

theorem sameOutsideCoder_decStart (s : State) : SameOutsideCoder s (decStart s) := rfl

theorem keepsInv_execRcInitDec {s : State} (h : Inv s) : AllNext Inv (execRcInitDec s) := by
  rw [execRcInitDec_eq]
  have hcoder : CoderInv .dec (readIntoCodeRun Config.preloadLength (decStart s)).rc :=
    coderInv_readIntoCodeRun _ (coderInv_freshCoder_dec s.rc)
  have hst := (sameOutsideCoder_decStart s).trans (sameOutsideCoder_readIntoCodeRun Config.preloadLength _)
  exact allNext_unlessFaulted h fun _ =>
    allNext_next (inv_setMode_of_sameOutsideCodec h hst.toCodec (hst.codecInv h hcoder))

theorem keepsInv_execRcFlush {s : State} (h : Inv s) : AllNext Inv (execRcFlush s) := by
  have hst := (sameOutsideCoder_shiftOutRun Config.flushLength s).trans (sameOutsideCoder_drain _)
  exact allNext_unlessFaulted h fun _ => keepsInv_requireMode h fun _ hcodec =>
    allNext_next (inv_setMode_of_sameOutsideCodec h hst.toCodec (hst.codecInv h (coderInv_flush hcodec.1)))

theorem keepsInv_execCxEncFrame {s : State} (h : Inv s) (a b : BitVec 16) : AllNext Inv (execCxEncFrame a b s) :=
  allNext_unlessFaulted h fun _ => keepsInv_requireMode h fun hm hcodec => keepsInv_requireModel h <|
    allNext_next <| inv_of_sameOutsideCodec (t := encResidual .b _ (encResidual .a _ s)) h hm
      ((sameOutsideCodec_encResidual .a _ s).trans (sameOutsideCodec_encResidual .b _ _))
      (codecInv_encResidual (codecInv_encResidual hcodec .a _) .b _)

theorem keepsInv_execCxDecFrame {s : State} (h : Inv s) : AllNext Inv (execCxDecFrame s) :=
  allNext_unlessFaulted h fun _ => keepsInv_requireMode h fun hm hcodec => keepsInv_requireModel h <|
    allNext_next <| inv_of_sameOutsideCodec (t := (decResidual .b (decResidual .a s).2).2) h hm
      ((sameOutsideCodec_decResidual .a s).trans (sameOutsideCodec_decResidual .b _))
      (codecInv_decResidual (codecInv_decResidual hcodec .a) .b)

/-! ### Every command, every word, every step -/

/-- Grouped by what the command's effect touches: RES, a history or OPT_VAR, which the invariant does not speak of;
the buffer; the table; the coder; or everything. -/
theorem exec_keepsInv {s : State} (h : Inv s) (i : Instr) : AllNext Inv (exec i s) := by
  obtain ⟨-, -, htable, -⟩ := id h
  cases i with
  | cbPrev | cbNext | dqCapacity | dqSize | dqFull | prInit | prPredict | prResidual | prRecon | setOpt =>
    exact allNext_unlessFaulted h fun _ => allNext_next h
  | cbGet | dqFront | dqGet =>
    exact allNext_unlessFaulted h fun _ => keepsInv_requireAlloc h fun _ _ => allNext_withElement fun _ =>
      allNext_next h
  | cbGetu =>
    exact allNext_unlessFaulted h fun _ => keepsInv_requireAlloc h fun _ _ => keepsInv_require h fun _ =>
      allNext_next h
  | bmGetp => exact allNext_unlessFaulted h fun _ => keepsInv_requireModel h (allNext_next h)
  | prShift c v => exact allNext_unlessFaulted h fun _ => allNext_next (inv_setHist h c _)
  | cbResize n pad =>
    exact allNext_unlessFaulted h fun _ => keepsInv_require h fun hn =>
      allNext_next (inv_setRing h (ringInv_freshRing hn pad))
  | cbRelease => exact allNext_unlessFaulted h fun _ => allNext_next (inv_setRing h (ringInv_releasedRing s.ring))
  | cbFill v =>
    exact allNext_unlessFaulted h fun _ => keepsInv_requireAlloc h fun ha hring =>
      allNext_next (inv_setStorage h ha hring (Memory.wf_fill _ _ _ _ le_rfl))
  | cbPush v => exact keepsInv_execCbPush h v
  | cbCopyS2e k => exact keepsInv_execCbCopyS2e h k
  | cbCopyE2s k => exact keepsInv_execCbCopyE2s h k
  | dqPushBack v => exact keepsInv_execDqPushBack h v
  | dqPopFront k => exact keepsInv_execDqPopFront h k
  | mtInit => exact allNext_unlessFaulted h fun _ => allNext_next (inv_setTable h (tableInv_fill_pInit _) true)
  | bmInit idx =>
    exact allNext_unlessFaulted h fun _ => keepsInv_requireModel h <|
      allNext_next (inv_setTable h (tableInv_write htable idx.isLt (by decide)) s.mtValid)
  | bmUpdate idx bit =>
    exact allNext_unlessFaulted h fun _ => keepsInv_requireModel h <|
      allNext_next (inv_setTable h (tableInv_mtUpdate htable idx.isLt bit) s.mtValid)
  | rcInitEnc => exact allNext_unlessFaulted h fun _ => allNext_next (inv_setCoder h (coderInv_freshCoder_enc s.rc))
  | rcInitDec => exact keepsInv_execRcInitDec h
  | rcEnc p bit =>
    exact allNext_unlessFaulted h fun _ => keepsInv_requireMode h fun hm hcodec => keepsInv_require h fun hp =>
      allNext_next (inv_of_sameOutsideCoder h hm (sameOutsideCoder_encBit _ bit s)
        (coderInv_encBit hcodec.1 ((probLegal_iff p).1 hp) bit))
  | rcEncDirect bit =>
    exact allNext_unlessFaulted h fun _ => keepsInv_requireMode h fun hm hcodec =>
      allNext_next (inv_of_sameOutsideCoder h hm (sameOutsideCoder_encDirectBit bit s)
        (coderInv_encDirectBit hcodec.1 bit))
  | rcDec p =>
    exact allNext_unlessFaulted h fun _ => keepsInv_requireMode h fun hm hcodec => keepsInv_require h fun hp =>
      allNext_next (inv_setRes (inv_of_sameOutsideCoder h hm (sameOutsideCoder_decBit _ s)
        (coderInv_decBit hcodec.1 ((probLegal_iff p).1 hp))) _)
  | rcDecDirect =>
    exact allNext_unlessFaulted h fun _ => keepsInv_requireMode h fun hm hcodec =>
      allNext_next (inv_setRes (inv_of_sameOutsideCoder h hm (sameOutsideCoder_decDirectBit s)
        (coderInv_decDirectBit hcodec.1)) _)
  | rcFlush => exact keepsInv_execRcFlush h
  | cxEncRes c v =>
    exact allNext_unlessFaulted h fun _ => keepsInv_requireMode h fun hm hcodec => keepsInv_requireModel h <|
      allNext_next (inv_of_sameOutsideCodec h hm (sameOutsideCodec_encResidual c v s)
        (codecInv_encResidual hcodec c v))
  | cxDecRes c =>
    exact allNext_unlessFaulted h fun _ => keepsInv_requireMode h fun hm hcodec => keepsInv_requireModel h <|
      allNext_next (inv_setRes (inv_of_sameOutsideCodec h hm (sameOutsideCodec_decResidual c s)
        (codecInv_decResidual hcodec c)) _)
  | cxEncFrame a b => exact keepsInv_execCxEncFrame h a b
  | cxDecFrame => exact keepsInv_execCxDecFrame h
  | rdReg n =>
    change AllNext Inv (execRdReg n s)
    unfold execRdReg
    cases readReg s n with
    | some v => exact allNext_next (inv_setRes h v)
    | none => exact allNext_unlessFaulted h fun _ => allNext_next (inv_raise h _ _)
  | reset => exact allNext_next (inv_setPorts inv_reset s.io)

theorem runWord_keepsInv {s : State} (h : Inv s) (w : CmdWord) : AllNext Inv (runWord w s) := by
  cases hd : decode w with
  | ok i => rw [runWord_of_decode_ok hd]; exact exec_keepsInv h i
  | error e =>
    rw [runWord_of_decode_error hd]
    exact allNext_unlessFaulted h fun _ => allNext_next (inv_raiseWord h _ w)

/-! ### The statements -/

/-- Settles O10: every register of the reset state meets its part, and nothing is listed in the two memories. -/
theorem invHoldsAtReset : Obligations.InvHoldsAtReset := inv_reset

/-- Settles O11: a step waits, runs a word and responds, or resets; the ports are outside the invariant, and every
reset leaves the registers of the reset state. -/
theorem stepKeepsInv : Obligations.StepKeepsInv := by
  intro s t h ht
  have htaken : Inv (takeInput s) := inv_setPorts h _
  obtain ⟨-, rfl⟩ | ⟨w, rest, u, -, hu, rfl⟩ | ⟨rest, -, rfl⟩ | ⟨w, rest, u, -, hu, rfl⟩ := step_next ht
  · exact h
  · exact inv_setPorts (runWord_keepsInv htaken w u hu) _
  · exact inv_setPorts inv_reset _
  · exact inv_setPorts inv_reset _

end Sys2Proof.Machine
end

section
/-! SUPPORT. OPT_VAR takes no part in any effect (10_state R24): writing it before a procedure or after it is the same,
from the ports up to whole commands. -/
namespace Sys2Proof.Machine

/-- `OPT_VAR <- x`. -/
def setOptVar (x : BitVec 32) (s : State) : State := { s with optVar := x }

@[simp] theorem setOptVar_rc (x : BitVec 32) (s : State) : (setOptVar x s).rc = s.rc := rfl
@[simp] theorem setOptVar_io (x : BitVec 32) (s : State) : (setOptVar x s).io = s.io := rfl

/-! ### The range coder -/

theorem srcRead_setOptVar (x : BitVec 32) (s : State) :
    srcRead (setOptVar x s) = Prod.map id (setOptVar x) (srcRead s) := by
  unfold srcRead
  rw [setOptVar_io]
  cases s.io.source with
  | nil => rfl
  | cons o rest => rfl

theorem shiftOut_setOptVar (x : BitVec 32) (s : State) : shiftOut (setOptVar x s) = setOptVar x (shiftOut s) := by
  simp only [shiftOut, writePending_eq, setOptVar_rc]
  split
  · rfl
  · rfl

theorem shiftOutRun_setOptVar (x : BitVec 32) (n : Nat) (s : State) :
    shiftOutRun n (setOptVar x s) = setOptVar x (shiftOutRun n s) := by
  induction n generalizing s with
  | zero => rfl
  | succ n ih => rw [shiftOutRun, shiftOut_setOptVar, ih, ← shiftOutRun]

theorem drain_setOptVar (x : BitVec 32) (s : State) : drain (setOptVar x s) = setOptVar x (drain s) := by
  rw [drain_eq, drain_eq]
  rfl

theorem shiftRange_setOptVar (x : BitVec 32) (s : State) :
    shiftRange (setOptVar x s) = setOptVar x (shiftRange s) := rfl

theorem encNormalizeLoop_setOptVar (x : BitVec 32) (n : Nat) (s : State) :
    encNormalizeLoop n (setOptVar x s) = setOptVar x (encNormalizeLoop n s) := by
  induction n generalizing s with
  | zero => rfl
  | succ n ih =>
    unfold encNormalizeLoop
    rw [setOptVar_rc, shiftOut_setOptVar, shiftRange_setOptVar, ih, ← apply_ite]

theorem readIntoCode_setOptVar (x : BitVec 32) (s : State) :
    readIntoCode (setOptVar x s) = setOptVar x (readIntoCode s) := by
  unfold readIntoCode
  rw [srcRead_setOptVar]
  rfl

theorem readIntoCodeRun_setOptVar (x : BitVec 32) (n : Nat) (s : State) :
    readIntoCodeRun n (setOptVar x s) = setOptVar x (readIntoCodeRun n s) := by
  induction n generalizing s with
  | zero => rfl
  | succ n ih => rw [readIntoCodeRun, readIntoCode_setOptVar, ih, ← readIntoCodeRun]

theorem decNormalizeLoop_setOptVar (x : BitVec 32) (n : Nat) (s : State) :
    decNormalizeLoop n (setOptVar x s) = setOptVar x (decNormalizeLoop n s) := by
  induction n generalizing s with
  | zero => rfl
  | succ n ih =>
    unfold decNormalizeLoop
    rw [setOptVar_rc, readIntoCode_setOptVar, shiftRange_setOptVar, ih, ← apply_ite]

theorem encBit_setOptVar (x : BitVec 32) (p : Nat) (bit : Bool) (s : State) :
    encBit p bit (setOptVar x s) = setOptVar x (encBit p bit s) := by
  have hinterval : encInterval p bit (setOptVar x s) = setOptVar x (encInterval p bit s) := by cases bit <;> rfl
  rw [encBit, hinterval]
  exact encNormalizeLoop_setOptVar x normBound _

theorem encDirectBit_setOptVar (x : BitVec 32) (bit : Bool) (s : State) :
    encDirectBit bit (setOptVar x s) = setOptVar x (encDirectBit bit s) := by
  have hinterval : encDirectInterval bit (setOptVar x s) = setOptVar x (encDirectInterval bit s) := by
    cases bit <;> rfl
  rw [encDirectBit, hinterval]
  exact encNormalizeLoop_setOptVar x normBound _

theorem decInterval_setOptVar (x : BitVec 32) (p : Nat) (s : State) :
    decInterval p (setOptVar x s) = Prod.map id (setOptVar x) (decInterval p s) := by
  rcases decInterval_cases p s with ⟨hlt, heq⟩ | ⟨hge, heq⟩
  · rw [heq]; exact if_pos hlt
  · rw [heq]; exact if_neg (Nat.not_lt.2 hge)

theorem decDirectInterval_setOptVar (x : BitVec 32) (s : State) :
    decDirectInterval (setOptVar x s) = Prod.map id (setOptVar x) (decDirectInterval s) := by
  rcases decDirectInterval_cases s with ⟨hlt, heq⟩ | ⟨hge, heq⟩
  · rw [heq]; exact if_pos hlt
  · rw [heq]; exact if_neg (Nat.not_lt.2 hge)

theorem decNormalize_setOptVar (x : BitVec 32) (s : State) :
    decNormalize (setOptVar x s) = setOptVar x (decNormalize s) := decNormalizeLoop_setOptVar x normBound s

theorem decBit_setOptVar (x : BitVec 32) (p : Nat) (s : State) :
    decBit p (setOptVar x s) = Prod.map id (setOptVar x) (decBit p s) := by
  simp only [decBit, decInterval_setOptVar, Prod.map_fst, Prod.map_snd, decNormalize_setOptVar, Prod.map_apply, id]

theorem decDirectBit_setOptVar (x : BitVec 32) (s : State) :
    decDirectBit (setOptVar x s) = Prod.map id (setOptVar x) (decDirectBit s) := by
  simp only [decDirectBit, decDirectInterval_setOptVar, Prod.map_fst, Prod.map_snd, decNormalize_setOptVar,
    Prod.map_apply, id]

/-! ### The residual coder -/

theorem mtRead_setOptVar (x : BitVec 32) (s : State) (i : Nat) : mtRead (setOptVar x s) i = mtRead s i := rfl

theorem mtUpdate_setOptVar (x : BitVec 32) (s : State) (i : Nat) (bit : Bool) :
    mtUpdate (setOptVar x s) i bit = setOptVar x (mtUpdate s i bit) := rfl

theorem encWalk_setOptVar (x : BitVec 32) (c : Channel) (bits : List Bool) (ctx : Nat) (s : State) :
    encWalk c bits ctx (setOptVar x s) = setOptVar x (encWalk c bits ctx s) := by
  induction bits generalizing ctx s with
  | nil => rfl
  | cons bit bits ih =>
    simp only [encWalk, encModelStep, mtRead_setOptVar, encBit_setOptVar, mtUpdate_setOptVar, ih]

theorem encDirectBits_setOptVar (x : BitVec 32) (bits : List Bool) (s : State) :
    encDirectBits bits (setOptVar x s) = setOptVar x (encDirectBits bits s) := by
  induction bits generalizing s with
  | nil => rfl
  | cons bit bits ih => simp only [encDirectBits, encDirectBit_setOptVar, ih]

theorem encResidual_setOptVar (x : BitVec 32) (c : Channel) (r : Sample) (s : State) :
    encResidual c r (setOptVar x s) = setOptVar x (encResidual c r s) := by
  rw [encResidual, encWalk_setOptVar, encDirectBits_setOptVar, ← encResidual]

theorem decModelStep_setOptVar (x : BitVec 32) (c : Channel) (ctx : Nat) (s : State) :
    decModelStep c ctx (setOptVar x s) = Prod.map id (setOptVar x) (decModelStep c ctx s) := by
  simp only [decModelStep, mtRead_setOptVar, decInterval_setOptVar, Prod.map_fst, Prod.map_snd, mtUpdate_setOptVar,
    decNormalize_setOptVar, Prod.map_apply, id]

theorem decWalk_setOptVar (x : BitVec 32) (c : Channel) (n ctx : Nat) (s : State) :
    decWalk c n ctx (setOptVar x s) = Prod.map id (setOptVar x) (decWalk c n ctx s) := by
  induction n generalizing ctx s with
  | zero => rfl
  | succ n ih => simp only [decWalk, decModelStep_setOptVar, Prod.map_fst, Prod.map_snd, id, ih]

theorem decDirectBits_setOptVar (x : BitVec 32) (n ctx : Nat) (s : State) :
    decDirectBits n ctx (setOptVar x s) = Prod.map id (setOptVar x) (decDirectBits n ctx s) := by
  induction n generalizing ctx s with
  | zero => rfl
  | succ n ih => simp only [decDirectBits, decDirectBit_setOptVar, Prod.map_fst, Prod.map_snd, id, ih]

theorem decResidual_setOptVar (x : BitVec 32) (c : Channel) (s : State) :
    decResidual c (setOptVar x s) = Prod.map id (setOptVar x) (decResidual c s) := by
  simp only [decResidual, decWalk_setOptVar, decDirectBits_setOptVar, Prod.map_fst, Prod.map_snd, Prod.map_apply, id]

/-! ### Results -/

/-- The result with OPT_VAR set in the next state, if there is one. -/
def withOptVar (x : BitVec 32) : Result → Result
  | .next t => .next (setOptVar x t)
  | .fault f => .fault f
  | .refused r => .refused r

theorem unlessFaulted_setOptVar {x : BitVec 32} {s : State} {k k' : Result} (h : k' = withOptVar x k) :
    unlessFaulted (setOptVar x s) k' = withOptVar x (unlessFaulted s k) := by
  cases hf : faulted s with
  | false => rw [unlessFaulted_of_clear hf, unlessFaulted_of_clear (s := setOptVar x s) hf, h]
  | true => rw [unlessFaulted_of_faulted hf, unlessFaulted_of_faulted (s := setOptVar x s) hf]; rfl

theorem require_setOptVar {x : BitVec 32} {ok : Bool} {f : FaultCode} {i : Instr} {s : State} {k k' : Result}
    (h : k' = withOptVar x k) : require ok f i (setOptVar x s) k' = withOptVar x (require ok f i s k) := by
  cases ok with
  | false => rfl
  | true => exact h

theorem withElement_setOptVar {x : BitVec 32} {r : Ring} {j : Nat} {k k' : Result} (h : k' = withOptVar x k) :
    withElement r j k' = withOptVar x (withElement r j k) := by
  unfold withElement
  split
  · exact h
  · rfl

/-- Only register number 0x05, the sixth arm of the register map, shows OPT_VAR (10_state R41). -/
theorem readReg_setOptVar {n : BitVec 8} (hn : n ≠ 0x05#8) (x : BitVec 32) (s : State) :
    readReg (setOptVar x s) n = readReg s n := by
  unfold readReg
  split
  case h_6 => exact absurd rfl hn
  all_goals rfl

/-! ### Every command -/

/-- Behind its gates a command's effect either leaves OPT_VAR out by its form, or is one of the coder's procedures. -/
theorem exec_setOptVar {i : Instr} (hrd : i ≠ .rdReg 0x05#8) (hreset : i ≠ .reset) (hset : ∀ v, i ≠ .setOpt v)
    (x : BitVec 32) (s : State) : exec i (setOptVar x s) = withOptVar x (exec i s) := by
  cases i with
  | cbRelease | cbPrev | cbNext | dqCapacity | dqSize | dqFull | mtInit | rcInitEnc | prInit | prPredict
  | prResidual | prRecon =>
    exact unlessFaulted_setOptVar rfl
  | prShift c v => exact unlessFaulted_setOptVar (by cases c <;> rfl)
  | cbResize | dqPopFront | cbFill | bmInit | bmGetp | bmUpdate =>
    exact unlessFaulted_setOptVar (require_setOptVar rfl)
  | cbGetu | cbCopyS2e | cbCopyE2s =>
    exact unlessFaulted_setOptVar (require_setOptVar (require_setOptVar rfl))
  | cbPush | cbGet | dqFront | dqGet =>
    exact unlessFaulted_setOptVar (require_setOptVar (withElement_setOptVar rfl))
  | dqPushBack v =>
    exact unlessFaulted_setOptVar (require_setOptVar (require_setOptVar (withElement_setOptVar rfl)))
  | rcInitDec =>
    change execRcInitDec (setOptVar x s) = withOptVar x (execRcInitDec s)
    rw [execRcInitDec_eq, execRcInitDec_eq]
    have hstart : decStart (setOptVar x s) = setOptVar x (decStart s) := rfl
    exact unlessFaulted_setOptVar (by rw [hstart, readIntoCodeRun_setOptVar]; rfl)
  | rcEnc p bit =>
    exact unlessFaulted_setOptVar (require_setOptVar (require_setOptVar (by rw [encBit_setOptVar]; rfl)))
  | rcEncDirect bit =>
    exact unlessFaulted_setOptVar (require_setOptVar (by rw [encDirectBit_setOptVar]; rfl))
  | rcDec p =>
    exact unlessFaulted_setOptVar (require_setOptVar (require_setOptVar (by rw [decBit_setOptVar]; rfl)))
  | rcDecDirect =>
    exact unlessFaulted_setOptVar (require_setOptVar (by rw [decDirectBit_setOptVar]; rfl))
  | rcFlush =>
    exact unlessFaulted_setOptVar (require_setOptVar (by rw [shiftOutRun_setOptVar, drain_setOptVar]; rfl))
  | cxEncRes c v =>
    exact unlessFaulted_setOptVar (require_setOptVar (require_setOptVar (by rw [encResidual_setOptVar]; rfl)))
  | cxDecRes c =>
    exact unlessFaulted_setOptVar (require_setOptVar (require_setOptVar (by rw [decResidual_setOptVar]; rfl)))
  | cxEncFrame a b =>
    exact unlessFaulted_setOptVar <| require_setOptVar <| require_setOptVar <| by
      simp only [encResidual_setOptVar]; rfl
  | cxDecFrame =>
    exact unlessFaulted_setOptVar <| require_setOptVar <| require_setOptVar <| by
      simp only [decResidual_setOptVar, Prod.map_snd]; rfl
  | rdReg n =>
    change execRdReg n (setOptVar x s) = withOptVar x (execRdReg n s)
    unfold execRdReg
    rw [readReg_setOptVar (fun hn => hrd (by rw [hn]))]
    cases readReg s n with
    | some v => rfl
    | none => exact unlessFaulted_setOptVar rfl
  | setOpt val => exact absurd rfl (hset val)
  | reset => exact absurd rfl hreset

/-- Settles O58: setting OPT_VAR before the command or in its next state is the same. -/
theorem optVarAltersNothing : Obligations.OptVarAltersNothing := by
  intro i x s hrd hreset hset
  have h := exec_setOptVar hrd hreset hset x s
  rw [show ({ s with optVar := x } : State) = setOptVar x s from rfl, h]
  cases exec i s with
  | next t => rfl
  | fault f => rfl
  | refused r => rfl

end Sys2Proof.Machine
end

section
/-! SUPPORT. What a command can do, said once: a gate stops it with no change or with a fault latched, or its effect
is taken. -/
namespace Sys2Proof.Machine

/-- The state a command leads to when none of its checks stops it. RD_REG of an unlisted number always raises
(46_system R215), so what stands here for it is never taken. -/
def effect : Instr → State → State
  | .cbResize n pad, s => { s with ring := freshRing n pad }
  | .cbPush v, s => { s with ring := pushElement s.ring v }
  | .cbGet off, s => setRes s (zext (stRead s.ring (maskedIndex s.ring off)))
  | .cbGetu off, s => setRes s (zext (stRead s.ring (unmaskedIndex s.ring off)))
  | .cbFill v, s => { s with ring := { s.ring with st := Memory.fill stDefault s.ring.cells v } }
  | .cbRelease, s => { s with ring := releasedRing s.ring }
  | .cbPrev p k, s => setRes s ((zext p - zext k) &&& s.ring.mask)
  | .cbNext p k, s => setRes s ((zext p + zext k) &&& s.ring.mask)
  | .cbCopyS2e k, s => { s with ring := { s.ring with
      st := Memory.copyUp stDefault s.ring.st (s.ring.pad.toNat + s.ring.n.toNat) s.ring.pad.toNat k.toNat } }
  | .cbCopyE2s k, s => { s with ring := { s.ring with
      st := Memory.copyUp stDefault s.ring.st 0 s.ring.n.toNat k.toNat } }
  | .dqPushBack v, s => { s with ring := { pushElement s.ring v with dqSize := s.ring.dqSize + 1#17 } }
  | .dqPopFront k, s => { s with ring := { s.ring with
      frontPos := s.ring.frontPos + k.setWidth 32
      dqSize := s.ring.dqSize - k.setWidth 17 } }
  | .dqFront, s => setRes s (zext (stRead s.ring (dequeIndex s.ring 0#32)))
  | .dqGet off, s => setRes s (zext (stRead s.ring (dequeIndex s.ring off)))
  | .dqCapacity, s => setRes s (s.ring.mask + 1#32)
  | .dqSize, s => setRes s (zext s.ring.dqSize)
  | .dqFull, s => setRes s (zext (BitVec.ofBool (dqFullFlag s.ring)))
  | .mtInit, s =>
    { s with mt := Memory.fill mtDefault Config.tableSize (BitVec.ofNat 13 Config.pInit), mtValid := true }
  | .bmInit idx, s => mtWrite s idx.toNat (BitVec.ofNat 13 Config.pInit)
  | .bmGetp idx, s => setRes s (zext (mtRead s idx.toNat))
  | .bmUpdate idx bit, s => mtUpdate s idx.toNat bit
  | .rcInitEnc, s => { s with rc := { freshCoder s.rc with snkCount := 0#32 }, mode := .enc }
  | .rcInitDec, s => { readIntoCodeRun Config.preloadLength (decStart s) with mode := .dec }
  | .rcEnc p bit, s => encBit p.toNat bit s
  | .rcEncDirect bit, s => encDirectBit bit s
  | .rcDec p, s => setResBit (decBit p.toNat s).2 (decBit p.toNat s).1
  | .rcDecDirect, s => setResBit (decDirectBit s).2 (decDirectBit s).1
  | .rcFlush, s => { drain (shiftOutRun Config.flushLength s) with mode := .flushed }
  | .prInit, s => { s with histA := zeroHistory, histB := zeroHistory }
  | .prPredict c, s => setRes s (zext (pred (histOf s c)))
  | .prResidual c v, s => setRes s (zext (v - pred (histOf s c)))
  | .prRecon c v, s => setRes s (zext (pred (histOf s c) + v))
  | .prShift c v, s => setHist s c (shiftHistory (histOf s c) v)
  | .cxEncRes c v, s => encResidual c v s
  | .cxDecRes c, s => setRes (decResidual c s).2 (zext (decResidual c s).1)
  | .cxEncFrame a b, s =>
    let ra := a - pred s.histA
    let rb := b - pred s.histB
    setRes (shiftBoth a b (encResidual .b rb (encResidual .a ra s))) (packPair ra rb)
  | .cxDecFrame, s =>
    let ra := decResidual .a s
    let rb := decResidual .b ra.2
    let a := pred s.histA + ra.1
    let b := pred s.histB + rb.1
    setRes (shiftBoth a b rb.2) (packPair a b)
  | .rdReg n, s => setRes s ((readReg s n).getD s.res)
  | .setOpt val, s => { s with optVar := val }
  | .reset, s => resetBlock s

/-- What holds of the unchanged state, of each faulted one and of the effect holds of every next state; the commands
are grouped by how many checks stand before their effect. -/
theorem exec_allNext {P : State → Prop} {i : Instr} {s : State} (hs : P s) (hfault : ∀ f, P (raise f i s))
    (heffect : P (effect i s)) : AllNext P (exec i s) := by
  cases i with
  | cbRelease | cbPrev | cbNext | dqCapacity | dqSize | dqFull | mtInit | rcInitEnc | rcInitDec | prInit
  | prPredict | prResidual | prRecon | prShift | setOpt =>
    exact allNext_unlessFaulted hs fun _ => allNext_next heffect
  | cbResize | cbFill | dqPopFront | bmInit | bmGetp | bmUpdate | rcEncDirect | rcDecDirect | rcFlush =>
    exact allNext_unlessFaulted hs fun _ => allNext_require (hfault _) fun _ => allNext_next heffect
  | cbGetu | cbCopyS2e | cbCopyE2s | rcEnc | rcDec | cxEncRes | cxDecRes | cxEncFrame | cxDecFrame =>
    exact allNext_unlessFaulted hs fun _ => allNext_require (hfault _) fun _ => allNext_require (hfault _) fun _ =>
      allNext_next heffect
  | cbPush | cbGet | dqFront | dqGet =>
    exact allNext_unlessFaulted hs fun _ => allNext_require (hfault _) fun _ => allNext_withElement fun _ =>
      allNext_next heffect
  | dqPushBack v =>
    exact allNext_unlessFaulted hs fun _ => allNext_require (hfault _) fun _ => allNext_require (hfault _) fun _ =>
      allNext_withElement fun _ => allNext_next heffect
  | rdReg n =>
    change P (setRes s ((readReg s n).getD s.res)) at heffect
    change AllNext P (execRdReg n s)
    unfold execRdReg
    cases hread : readReg s n with
    | some v => rw [hread] at heffect; exact allNext_next heffect
    | none => exact allNext_unlessFaulted hs fun _ => allNext_next (hfault _)
  | reset => exact allNext_next heffect

/-- Everything a command can do: nothing, a fault, or its effect. -/
theorem exec_next {i : Instr} {s t : State} (h : exec i s = .next t) :
    t = s ∨ (∃ f, t = raise f i s) ∨ t = effect i s :=
  exec_allNext (P := fun t => t = s ∨ (∃ f, t = raise f i s) ∨ t = effect i s) (.inl rfl)
    (fun f => .inr (.inl ⟨f, rfl⟩)) (.inr (.inr rfl)) t h

end Sys2Proof.Machine
end

section
/-! SUPPORT. The ports move forward only (20_memory R66, R67): every procedure appends to the sink and drops from the
front of the source, and so does every command and every step. -/
namespace Sys2Proof.Machine

/-- What was written stays written, what was read stays read, and no response is withdrawn. -/
def Ports.Forward (p q : Ports) : Prop :=
  p.sink <+: q.sink ∧ q.source <:+ p.source ∧ p.responses <+: q.responses

theorem Ports.Forward.refl (p : Ports) : p.Forward p :=
  ⟨List.prefix_rfl, List.suffix_rfl, List.prefix_rfl⟩

theorem Ports.Forward.trans {p q r : Ports} (h : p.Forward q) (k : q.Forward r) : p.Forward r := by
  obtain ⟨hsink, hsource, hresponses⟩ := h
  obtain ⟨ksink, ksource, kresponses⟩ := k
  exact ⟨hsink.trans ksink, ksource.trans hsource, hresponses.trans kresponses⟩

theorem forward_appendSink (p : Ports) (octets : List Octet) :
    p.Forward { p with sink := p.sink ++ octets } :=
  ⟨List.prefix_append _ _, List.suffix_rfl, List.prefix_rfl⟩

/-! ### The range coder -/

theorem forward_srcRead (s : State) : s.io.Forward (srcRead s).2.io := by
  rcases srcRead_cases s with ⟨o, rest, hsource, h⟩ | ⟨-, h⟩ <;> rw [h]
  · exact ⟨List.prefix_rfl, hsource ▸ List.suffix_cons o rest, List.prefix_rfl⟩
  · exact .refl s.io

theorem forward_readIntoCode (s : State) : s.io.Forward (readIntoCode s).io := forward_srcRead s

theorem forward_readIntoCodeRun (n : Nat) (s : State) : s.io.Forward (readIntoCodeRun n s).io := by
  induction n generalizing s with
  | zero => exact .refl s.io
  | succ n ih => exact (forward_readIntoCode s).trans (ih _)

theorem forward_decNormalizeLoop (n : Nat) (s : State) : s.io.Forward (decNormalizeLoop n s).io := by
  induction n generalizing s with
  | zero => exact .refl s.io
  | succ n ih =>
    unfold decNormalizeLoop
    split
    · exact (forward_readIntoCode s).trans (ih (shiftRange (readIntoCode s)))
    · exact .refl s.io

theorem forward_decNormalize (s : State) : s.io.Forward (decNormalize s).io := forward_decNormalizeLoop _ s

theorem forward_shiftOut (s : State) : s.io.Forward (shiftOut s).io := by
  rcases shiftOut_cases s with ⟨-, h⟩ | ⟨-, h⟩ <;> rw [h]
  · exact forward_appendSink s.io _
  · exact .refl s.io

theorem forward_shiftOutRun (n : Nat) (s : State) : s.io.Forward (shiftOutRun n s).io := by
  induction n generalizing s with
  | zero => exact .refl s.io
  | succ n ih => exact (forward_shiftOut s).trans (ih _)

theorem forward_drain (s : State) : s.io.Forward (drain s).io := by
  rw [drain_eq]
  exact forward_appendSink s.io _

theorem forward_encNormalizeLoop (n : Nat) (s : State) : s.io.Forward (encNormalizeLoop n s).io := by
  induction n generalizing s with
  | zero => exact .refl s.io
  | succ n ih =>
    unfold encNormalizeLoop
    split
    · exact (forward_shiftOut s).trans (ih (shiftRange (shiftOut s)))
    · exact .refl s.io

@[simp] theorem encInterval_io (p : Nat) (bit : Bool) (s : State) : (encInterval p bit s).io = s.io := by
  cases bit <;> rfl

@[simp] theorem encDirectInterval_io (bit : Bool) (s : State) : (encDirectInterval bit s).io = s.io := by
  cases bit <;> rfl

@[simp] theorem decInterval_io (p : Nat) (s : State) : (decInterval p s).2.io = s.io := by
  rcases decInterval_cases p s with ⟨-, h⟩ | ⟨-, h⟩
  · rw [h, setRange_io]
  · rw [h]

@[simp] theorem decDirectInterval_io (s : State) : (decDirectInterval s).2.io = s.io := by
  rcases decDirectInterval_cases s with ⟨-, h⟩ | ⟨-, h⟩
  · rw [h, setRange_io]
  · rw [h]

theorem forward_encBit (p : Nat) (bit : Bool) (s : State) : s.io.Forward (encBit p bit s).io :=
  encInterval_io p bit s ▸ forward_encNormalizeLoop _ (encInterval p bit s)

theorem forward_encDirectBit (bit : Bool) (s : State) : s.io.Forward (encDirectBit bit s).io :=
  encDirectInterval_io bit s ▸ forward_encNormalizeLoop _ (encDirectInterval bit s)

theorem forward_decBit (p : Nat) (s : State) : s.io.Forward (decBit p s).2.io :=
  decInterval_io p s ▸ forward_decNormalize (decInterval p s).2

theorem forward_decDirectBit (s : State) : s.io.Forward (decDirectBit s).2.io :=
  decDirectInterval_io s ▸ forward_decNormalize (decDirectInterval s).2

/-! ### The residual coder: updating a table entry leaves the ports alone -/

theorem forward_encWalk (c : Channel) (bits : List Bool) (ctx : Nat) (s : State) :
    s.io.Forward (encWalk c bits ctx s).io := by
  induction bits generalizing ctx s with
  | nil => exact .refl s.io
  | cons bit bits ih => exact (forward_encBit _ bit s).trans (ih _ (encModelStep c ctx bit s))

theorem forward_encDirectBits (bits : List Bool) (s : State) : s.io.Forward (encDirectBits bits s).io := by
  induction bits generalizing s with
  | nil => exact .refl s.io
  | cons bit bits ih => exact (forward_encDirectBit bit s).trans (ih _)

theorem forward_encResidual (c : Channel) (r : Sample) (s : State) : s.io.Forward (encResidual c r s).io :=
  (forward_encWalk c _ 1 s).trans (forward_encDirectBits _ _)

theorem forward_decModelStep (c : Channel) (ctx : Nat) (s : State) :
    s.io.Forward (decModelStep c ctx s).2.io :=
  decInterval_io (patchedProb (mtRead s (contextIndex c ctx))) s ▸ forward_decNormalize (mtUpdate _ _ _)

theorem forward_decWalk (c : Channel) (n ctx : Nat) (s : State) : s.io.Forward (decWalk c n ctx s).2.io := by
  induction n generalizing ctx s with
  | zero => exact .refl s.io
  | succ n ih => exact (forward_decModelStep c ctx s).trans (ih _ _)

theorem forward_decDirectBits (n ctx : Nat) (s : State) : s.io.Forward (decDirectBits n ctx s).2.io := by
  induction n generalizing ctx s with
  | zero => exact .refl s.io
  | succ n ih => exact (forward_decDirectBit s).trans (ih _ _)

theorem forward_decResidual (c : Channel) (s : State) : s.io.Forward (decResidual c s).2.io :=
  (forward_decWalk c _ 1 s).trans (forward_decDirectBits _ _ _)

/-! ### Every command, every word and every step -/

/-- Only the RC_ and CX_ commands use the octet ports; a command's effect returns no response. -/
theorem forward_effect (i : Instr) (s : State) : s.io.Forward (effect i s).io := by
  cases i with
  | rcInitDec => exact forward_readIntoCodeRun Config.preloadLength (decStart s)
  | rcEnc p bit => exact forward_encBit _ bit s
  | rcEncDirect bit => exact forward_encDirectBit bit s
  | rcDec p => exact forward_decBit _ s
  | rcDecDirect => exact forward_decDirectBit s
  | rcFlush =>
    simp only [effect]
    exact (forward_shiftOutRun _ s).trans (forward_drain _)
  | cxEncRes c v => exact forward_encResidual c v s
  | cxDecRes c => exact forward_decResidual c s
  | cxEncFrame a b => exact (forward_encResidual .a _ s).trans (forward_encResidual .b _ _)
  | cxDecFrame => exact (forward_decResidual .a s).trans (forward_decResidual .b _)
  | prShift c v => simpa [effect] using Ports.Forward.refl s.io
  | _ => exact .refl s.io

theorem forward_exec (i : Instr) (s : State) : AllNext (fun t => s.io.Forward t.io) (exec i s) :=
  exec_allNext (.refl s.io) (fun _ => .refl s.io) (forward_effect i s)

theorem forward_runWord (w : CmdWord) (s : State) : AllNext (fun t => s.io.Forward t.io) (runWord w s) := by
  cases hd : decode w with
  | ok i => rw [runWord_of_decode_ok hd]; exact forward_exec i s
  | error e =>
    rw [runWord_of_decode_error hd]
    exact allNext_unlessFaulted (.refl s.io) fun _ => allNext_next (.refl s.io)

theorem forward_respond (s : State) : s.io.Forward (respond s).io :=
  ⟨List.prefix_rfl, List.suffix_rfl, List.prefix_append _ _⟩

/-- Whatever the abandoned command reached, the sink only gains a part of it and the source only loses a part. -/
theorem forward_abandon (s t : State) : s.io.Forward (abandon s t).io :=
  ⟨List.prefix_append _ _, List.drop_suffix _ _, List.prefix_rfl⟩

/-- Settles O60: taking the input leaves the other ports alone, a command and its response move them forward, and a
reset keeps what has passed them. -/
theorem portsOnlyMoveForward : Obligations.PortsOnlyMoveForward := by
  intro s t ht
  obtain ⟨-, rfl⟩ | ⟨w, rest, u, -, hu, rfl⟩ | ⟨rest, -, rfl⟩ | ⟨w, rest, u, -, hu, rfl⟩ := step_next ht
  · exact Ports.Forward.refl t.io
  · exact (forward_runWord w (takeInput s) u hu).trans (forward_respond u)
  · exact Ports.Forward.refl (takeInput s).io
  · exact forward_abandon (takeInput s) u

end Sys2Proof.Machine
end

section
/-! SUPPORT. The buffer and the coder are apart: a CB_ or DQ_ command's effect lies in the buffer and RES, a model,
coder, predictor or codec command's effect outside the buffer (20_memory R60, 40_cyclic_buffer R123). -/
namespace Sys2Proof.Machine

theorem SameOutsideCodec.ring {s t : State} (h : SameOutsideCodec s t) : t.ring = s.ring := by
  unfold SameOutsideCodec at h
  rw [h]

theorem SameOutsideCoder.ring {s t : State} (h : SameOutsideCoder s t) : t.ring = s.ring := h.toCodec.ring

/-- `t` differs from `s` at most in the buffer, RES and the fault latch. -/
def SameOutsideBuffer (s t : State) : Prop := t = { s with ring := t.ring, res := t.res, latch := t.latch }

theorem SameOutsideBuffer.refl (s : State) : SameOutsideBuffer s s := rfl

theorem sameOutsideBuffer_raise (f : FaultCode) (i : Instr) (s : State) : SameOutsideBuffer s (raise f i s) := rfl

theorem sameOutsideBuffer_effect {i : Instr} (hop : (opcode i).toNat < 0x30) (s : State) :
    SameOutsideBuffer s (effect i s) := by
  cases i with
  | cbResize | cbPush | cbGet | cbGetu | cbFill | cbRelease | cbPrev | cbNext | cbCopyS2e | cbCopyE2s | dqPushBack
  | dqPopFront | dqFront | dqGet | dqCapacity | dqSize | dqFull => rfl
  | _ => simp [opcode] at hop

theorem effect_ring {i : Instr} (hlow : 0x30 ≤ (opcode i).toNat) (hhigh : (opcode i).toNat < 0x70) (s : State) :
    (effect i s).ring = s.ring := by
  cases i with
  | mtInit | bmInit | bmGetp | bmUpdate | rcInitEnc | prInit | prPredict | prResidual | prRecon => rfl
  | prShift c v => exact setHist_ring s c _
  | rcInitDec =>
    exact ((sameOutsideCoder_decStart s).trans (sameOutsideCoder_readIntoCodeRun Config.preloadLength _)).ring
  | rcEnc p bit => exact (sameOutsideCoder_encBit _ bit s).ring
  | rcEncDirect bit => exact (sameOutsideCoder_encDirectBit bit s).ring
  | rcDec p => exact (sameOutsideCoder_decBit _ s).ring
  | rcDecDirect => exact (sameOutsideCoder_decDirectBit s).ring
  | rcFlush =>
    simp only [effect]
    exact ((sameOutsideCoder_shiftOutRun _ s).trans (sameOutsideCoder_drain _)).ring
  | cxEncRes c v => exact (sameOutsideCodec_encResidual c v s).ring
  | cxDecRes c => exact (sameOutsideCodec_decResidual c s).ring
  | cxEncFrame a b =>
    exact ((sameOutsideCodec_encResidual .a _ s).trans (sameOutsideCodec_encResidual .b _ _)).ring
  | cxDecFrame => exact ((sameOutsideCodec_decResidual .a s).trans (sameOutsideCodec_decResidual .b _)).ring
  | rdReg | setOpt | reset => simp [opcode] at hhigh
  | _ => simp [opcode] at hlow

/-- `i` is one of the three commands that may change CB_N or CB_PAD. -/
def SetsRingSize (i : Instr) : Prop := (∃ n pad, i = .cbResize n pad) ∨ i = .cbRelease ∨ i = .reset

theorem effect_ringSize {i : Instr} (hi : ¬ SetsRingSize i) (s : State) :
    (effect i s).ring.n = s.ring.n ∧ (effect i s).ring.pad = s.ring.pad := by
  cases i with
  | cbResize n pad => exact absurd (.inl ⟨n, pad, rfl⟩) hi
  | cbRelease => exact absurd (.inr (.inl rfl)) hi
  | reset => exact absurd (.inr (.inr rfl)) hi
  | cbPush | cbGet | cbGetu | cbFill | cbPrev | cbNext | cbCopyS2e | cbCopyE2s | dqPushBack | dqPopFront | dqFront
  | dqGet | dqCapacity | dqSize | dqFull | rdReg | setOpt => exact ⟨rfl, rfl⟩
  | _ =>
    rw [effect_ring (by simp [opcode]) (by simp [opcode])]
    exact ⟨rfl, rfl⟩

/-- Settles O59: each part holds of the unchanged and of the faulted state, so the effects decide it. -/
theorem bufferAndCoderAreSeparate : Obligations.BufferAndCoderAreSeparate := by
  intro i s t ht
  refine ⟨fun hop => ?_, fun hlow hhigh => ?_, fun hsize => ?_⟩
  · exact exec_allNext (.refl s) (sameOutsideBuffer_raise · i s) (sameOutsideBuffer_effect hop s) t ht
  · exact exec_allNext (P := fun t => t.ring = s.ring) rfl (fun _ => rfl) (effect_ring hlow hhigh s) t ht
  · by_contra hi
    obtain ⟨hn, hpad⟩ := exec_allNext (P := fun t => t.ring.n = s.ring.n ∧ t.ring.pad = s.ring.pad) ⟨rfl, rfl⟩
      (fun _ => ⟨rfl, rfl⟩) (effect_ringSize hi s) t ht
    exact hsize.elim (· hn) (· hpad)

end Sys2Proof.Machine
end

section
/-! SUPPORT. The context tree of a channel (20_memory R70): a context grows by one bit per modelled step, so the 13
steps of a residual stay at contexts 1 to 8191 and update no entry outside the channel's tree. -/
namespace Sys2Proof.Machine

/-- `j` is the index of an entry of the tree of channel `c`. -/
def InTree (c : Channel) (j : Nat) : Prop := ∃ ctx, 1 ≤ ctx ∧ ctx < 8192 ∧ j = contextIndex c ctx

theorem inTree_iff (c : Channel) (j : Nat) :
    InTree c j ↔ channelNumber c * 8192 + 1 ≤ j ∧ j < channelNumber c * 8192 + 8192 := by
  have hindex (ctx : Nat) : contextIndex c ctx = channelNumber c * 8192 + ctx := by
    simp [contextIndex, Config.nonNoiseBits]
  constructor
  · rintro ⟨ctx, hpos, hlt, rfl⟩
    rw [hindex]
    omega
  · rintro ⟨hlow, hhigh⟩
    exact ⟨j - channelNumber c * 8192, by omega, by omega, by rw [hindex]; omega⟩

theorem inTree_a_iff (j : Nat) : InTree .a j ↔ 1 ≤ j ∧ j ≤ 8191 := by
  rw [inTree_iff, channelNumber]
  omega

theorem inTree_b_iff (j : Nat) : InTree .b j ↔ 8193 ≤ j ∧ j ≤ 16383 := by
  rw [inTree_iff, channelNumber]
  omega

/-- Every entry outside the tree of channel `c` reads the same. -/
def TableSameOffTree (c : Channel) (s t : State) : Prop := ∀ j, ¬ InTree c j → mtRead t j = mtRead s j

theorem TableSameOffTree.trans {c : Channel} {s t u : State} (h : TableSameOffTree c s t)
    (k : TableSameOffTree c t u) : TableSameOffTree c s u :=
  fun j hj => (k j hj).trans (h j hj)

theorem TableSameOffTree.inTree_of_ne {c : Channel} {s t : State} (h : TableSameOffTree c s t) {j : Nat}
    (hj : mtRead t j ≠ mtRead s j) : InTree c j :=
  not_imp_comm.1 (h j) hj

theorem SameOutsideCoder.tableSameOffTree {s t : State} (h : SameOutsideCoder s t) (c : Channel) :
    TableSameOffTree c s t :=
  fun _ _ => by rw [mtRead, sameOutsideCoder_mt h, mtRead]

theorem tableSameOffTree_mtUpdate (c : Channel) {ctx : Nat} (hpos : 1 ≤ ctx) (hlt : ctx < 8192) (bit : Bool)
    (s : State) : TableSameOffTree c s (mtUpdate s (contextIndex c ctx) bit) := by
  intro j hj
  have hne : j ≠ contextIndex c ctx := fun h => hj ⟨ctx, hpos, hlt, h⟩
  rw [mtRead_mtUpdate, if_neg hne]

/-! ### The walks -/

/-- With `n` more steps to go after this one, the context of this step is inside the tree and the next one is in
place for the rest. -/
theorem context_step {ctx n : Nat} (h : (ctx + 1) * 2 ^ (n + 1) ≤ 2 ^ 14) (bit : Bool) :
    ctx < 8192 ∧ (2 * ctx + bit.toNat + 1) * 2 ^ n ≤ 2 ^ 14 := by
  rw [Nat.pow_succ', ← Nat.mul_assoc] at h
  have hle : (ctx + 1) * 2 ≤ 2 ^ 14 := (Nat.le_mul_of_pos_right _ (Nat.two_pow_pos n)).trans h
  have hbit := Bool.toNat_le bit
  exact ⟨by omega, (Nat.mul_le_mul_right _ (by omega)).trans h⟩

theorem tableSameOffTree_encModelStep (c : Channel) {ctx : Nat} (hpos : 1 ≤ ctx) (hlt : ctx < 8192) (bit : Bool)
    (s : State) : TableSameOffTree c s (encModelStep c ctx bit s) :=
  ((sameOutsideCoder_encBit _ bit s).tableSameOffTree c).trans (tableSameOffTree_mtUpdate c hpos hlt bit _)

theorem tableSameOffTree_encWalk (c : Channel) (bits : List Bool) {ctx : Nat} (hpos : 1 ≤ ctx)
    (hctx : (ctx + 1) * 2 ^ bits.length ≤ 2 ^ 14) (s : State) : TableSameOffTree c s (encWalk c bits ctx s) := by
  induction bits generalizing ctx s with
  | nil => exact fun _ _ => rfl
  | cons bit bits ih =>
    obtain ⟨hlt, hnext⟩ := context_step hctx bit
    exact (tableSameOffTree_encModelStep c hpos hlt bit s).trans (ih (by omega) hnext _)

theorem tableSameOffTree_encResidual (c : Channel) (r : Sample) (s : State) :
    TableSameOffTree c s (encResidual c r s) :=
  (tableSameOffTree_encWalk c (modelledBits r) (le_refl 1) (by simp [modelledBits, Config.nonNoiseBits]) s).trans
    ((sameOutsideCoder_encDirectBits (directBits r) _).tableSameOffTree c)

theorem tableSameOffTree_decModelStep (c : Channel) {ctx : Nat} (hpos : 1 ≤ ctx) (hlt : ctx < 8192) (s : State) :
    TableSameOffTree c s (decModelStep c ctx s).2 :=
  (((sameOutsideCoder_decInterval _ s).tableSameOffTree c).trans (tableSameOffTree_mtUpdate c hpos hlt _ _)).trans
    ((sameOutsideCoder_decNormalize _).tableSameOffTree c)

theorem tableSameOffTree_decWalk (c : Channel) (n : Nat) {ctx : Nat} (hpos : 1 ≤ ctx)
    (hctx : (ctx + 1) * 2 ^ n ≤ 2 ^ 14) (s : State) : TableSameOffTree c s (decWalk c n ctx s).2 := by
  induction n generalizing ctx s with
  | zero => exact fun _ _ => rfl
  | succ n ih =>
    obtain ⟨hlt, hnext⟩ := context_step hctx (decModelStep c ctx s).1
    exact (tableSameOffTree_decModelStep c hpos hlt s).trans (ih (by omega) hnext _)

theorem tableSameOffTree_decResidual (c : Channel) (s : State) : TableSameOffTree c s (decResidual c s).2 :=
  (tableSameOffTree_decWalk c Config.nonNoiseBits (le_refl 1) (by decide) s).trans
    ((sameOutsideCoder_decDirectBits _ _ _).tableSameOffTree c)

/-! ### Two residuals, one per channel -/

theorem inTree_of_two_residuals {s t u : State} (ha : TableSameOffTree .a s t) (hb : TableSameOffTree .b t u) {j : Nat}
    (hj : mtRead u j ≠ mtRead s j) : InTree .a j ∨ InTree .b j := by
  by_cases hu : mtRead u j = mtRead t j
  · exact .inl (ha.inTree_of_ne (hu ▸ hj))
  · exact .inr (hb.inTree_of_ne hu)

theorem inTree_a_or_b_bounds {j : Nat} (h : InTree .a j ∨ InTree .b j) : 1 ≤ j ∧ j ≤ 16383 ∧ j ≠ 8192 := by
  rw [inTree_a_iff, inTree_b_iff] at h
  omega

/-- An entry that reads differently after a command was changed by the command's effect. -/
theorem mtRead_effect_ne {i : Instr} {s t : State} {j : Nat} (ht : exec i s = .next t)
    (hj : mtRead t j ≠ mtRead s j) : mtRead (effect i s) j ≠ mtRead s j := by
  obtain rfl | ⟨f, rfl⟩ | rfl := exec_next ht
  · exact absurd rfl hj
  · exact absurd rfl hj
  · exact hj

/-- Settles O53: an entry that changes lies in the tree of a channel the command codes; RES and the histories are
outside the table. -/
theorem cxTouchesOnlyItsTree : Obligations.CxTouchesOnlyItsTree := by
  intro i s t j ht hj
  have hne := mtRead_effect_ne ht hj
  refine ⟨?_, ?_, ?_⟩
  · rintro (⟨v, rfl⟩ | rfl)
    · exact (inTree_a_iff j).1 ((tableSameOffTree_encResidual .a v s).inTree_of_ne hne)
    · exact (inTree_a_iff j).1 ((tableSameOffTree_decResidual .a s).inTree_of_ne hne)
  · rintro (⟨v, rfl⟩ | rfl)
    · exact (inTree_b_iff j).1 ((tableSameOffTree_encResidual .b v s).inTree_of_ne hne)
    · exact (inTree_b_iff j).1 ((tableSameOffTree_decResidual .b s).inTree_of_ne hne)
  · rintro (⟨a, b, rfl⟩ | rfl)
    · exact inTree_a_or_b_bounds (inTree_of_two_residuals (tableSameOffTree_encResidual .a _ s)
        (tableSameOffTree_encResidual .b _ _) hne)
    · exact inTree_a_or_b_bounds (inTree_of_two_residuals (tableSameOffTree_decResidual .a s)
        (tableSameOffTree_decResidual .b _) hne)

end Sys2Proof.Machine
end

section
/-! SUPPORT. The operand layouts (30_encoding R91): reading the fields out of an assembled operand field gives them
back, and assembling the fields read from any operand field keeps every bit of it but the layout's zero bits. -/
namespace Sys2Proof

/-! ### Bits of a word -/

/-- A word whose bits under `zero` are 0 is unchanged when they are cleared. -/
theorem and_eq_zero_iff_and_not_eq_self {n : Nat} (x zero : BitVec n) :
    x &&& zero = 0#n ↔ x &&& ~~~zero = x := by
  constructor
  · intro h
    calc x &&& ~~~zero = (x &&& zero) ||| (x &&& ~~~zero) := by rw [h, BitVec.zero_or]
      _ = x := by ext i hi; by_cases hz : zero[i] <;> simp [hz]
  · intro h
    calc x &&& zero = (x &&& ~~~zero) &&& zero := by rw [h]
      _ = 0#n := by ext i hi; simp

theorem zero_append_extractLsb'_eq_and {m n : Nat} (x : BitVec (m + n)) :
    0#m ++ x.extractLsb' 0 n = x &&& (0#m ++ BitVec.allOnes n) := by
  ext i hi
  by_cases h : i < n <;> simp [BitVec.getElem_append, h, BitVec.getLsbD_eq_getElem hi]

theorem extractLsb'_append_extractLsb'_self {m n : Nat} (x : BitVec (m + n)) :
    x.extractLsb' n m ++ x.extractLsb' 0 n = x := by
  rw [BitVec.extractLsb'_append_extractLsb'_eq_extractLsb' (Nat.zero_add n).symm, BitVec.extractLsb'_eq_self]

/-! ### Reading assembled fields -/

theorem argV_value (v : BitVec 16) : (argV v).extractLsb' 0 16 = v := BitVec.extractLsb'_append_eq_right

theorem argK_value (k : BitVec 24) : (argK k).extractLsb' 0 24 = k := BitVec.extractLsb'_append_eq_right

theorem argP_value (p : BitVec 13) : (argP p).extractLsb' 0 13 = p := BitVec.extractLsb'_append_eq_right

theorem argR_value (n : BitVec 8) : (argR n).extractLsb' 0 8 = n := BitVec.extractLsb'_append_eq_right

theorem argPair_low (lo hi : BitVec 16) : (argPair lo hi).extractLsb' 0 16 = lo := BitVec.extractLsb'_append_eq_right

theorem argPair_high (lo hi : BitVec 16) : (argPair lo hi).extractLsb' 16 16 = hi := BitVec.extractLsb'_append_eq_left

theorem argNP_size (n : BitVec 24) (pad : BitVec 8) : (argNP n pad).extractLsb' 0 24 = n :=
  BitVec.extractLsb'_append_eq_right

theorem argNP_pad (n : BitVec 24) (pad : BitVec 8) : (argNP n pad).extractLsb' 24 8 = pad :=
  BitVec.extractLsb'_append_eq_left

theorem argIB_value (v : BitVec 16) (bit : Bool) : (argIB v bit).extractLsb' 0 16 = v :=
  BitVec.extractLsb'_append_eq_right

theorem argPB_value (p : BitVec 13) (bit : Bool) : (argPB p bit).extractLsb' 0 13 = p :=
  BitVec.extractLsb'_append_eq_right

theorem argIB_getLsbD (v : BitVec 16) (bit : Bool) (i : Nat) :
    (argIB v bit).getLsbD i = if i < 16 then v.getLsbD i else if i = 16 then bit else false := by
  simp only [argIB, BitVec.getLsbD_append, BitVec.getLsbD_ofBool, BitVec.getLsbD_zero]
  grind

theorem argPB_getLsbD (p : BitVec 13) (bit : Bool) (i : Nat) :
    (argPB p bit).getLsbD i = if i < 13 then p.getLsbD i else if i = 16 then bit else false := by
  simp only [argPB, BitVec.getLsbD_append, BitVec.getLsbD_ofBool, BitVec.getLsbD_zero]
  grind

theorem argB_getLsbD (bit : Bool) (i : Nat) : (argB bit).getLsbD i = if i = 16 then bit else false := by
  simp only [argB, BitVec.getLsbD_append, BitVec.getLsbD_ofBool, BitVec.getLsbD_zero]
  grind

theorem argIB_bit (v : BitVec 16) (bit : Bool) : (argIB v bit).getLsbD 16 = bit := argIB_getLsbD v bit 16

theorem argPB_bit (p : BitVec 13) (bit : Bool) : (argPB p bit).getLsbD 16 = bit := argPB_getLsbD p bit 16

theorem argB_bit (bit : Bool) : (argB bit).getLsbD 16 = bit := argB_getLsbD bit 16

/-! ### Assembling read fields -/

theorem noField_eq_and (arg : BitVec 32) : 0#32 = arg &&& ~~~0xFFFFFFFF#32 := BitVec.and_zero.symm

theorem wholeField_eq_and (arg : BitVec 32) : arg = arg &&& ~~~0#32 := BitVec.and_allOnes.symm

theorem argV_fields (arg : BitVec 32) : argV (arg.extractLsb' 0 16) = arg &&& ~~~0xFFFF0000#32 :=
  zero_append_extractLsb'_eq_and (m := 16) (n := 16) arg

theorem argK_fields (arg : BitVec 32) : argK (arg.extractLsb' 0 24) = arg &&& ~~~0xFF000000#32 :=
  zero_append_extractLsb'_eq_and (m := 8) (n := 24) arg

theorem argP_fields (arg : BitVec 32) : argP (arg.extractLsb' 0 13) = arg &&& ~~~0xFFFFE000#32 :=
  zero_append_extractLsb'_eq_and (m := 19) (n := 13) arg

theorem argR_fields (arg : BitVec 32) : argR (arg.extractLsb' 0 8) = arg &&& ~~~0xFFFFFF00#32 :=
  zero_append_extractLsb'_eq_and (m := 24) (n := 8) arg

theorem argPair_fields (arg : BitVec 32) :
    argPair (arg.extractLsb' 0 16) (arg.extractLsb' 16 16) = arg &&& ~~~0#32 :=
  (extractLsb'_append_extractLsb'_self (m := 16) (n := 16) arg).trans (wholeField_eq_and arg)

theorem argNP_fields (arg : BitVec 32) :
    argNP (arg.extractLsb' 0 24) (arg.extractLsb' 24 8) = arg &&& ~~~0#32 :=
  (extractLsb'_append_extractLsb'_self (m := 8) (n := 24) arg).trans (wholeField_eq_and arg)

theorem argIB_fields (arg : BitVec 32) :
    argIB (arg.extractLsb' 0 16) (arg.getLsbD 16) = arg &&& ~~~0xFFFE0000#32 := by
  have hkept : ∀ i < 32, (~~~0xFFFE0000#32).getLsbD i = decide (i < 17) := by decide
  refine BitVec.eq_of_getLsbD_eq fun i hi => ?_
  rw [argIB_getLsbD, BitVec.getLsbD_and, hkept i hi, BitVec.getLsbD_extractLsb']
  grind

theorem argPB_fields (arg : BitVec 32) :
    argPB (arg.extractLsb' 0 13) (arg.getLsbD 16) = arg &&& ~~~0xFFFEE000#32 := by
  have hkept : ∀ i < 32, (~~~0xFFFEE000#32).getLsbD i = decide (i < 13 ∨ i = 16) := by decide
  refine BitVec.eq_of_getLsbD_eq fun i hi => ?_
  rw [argPB_getLsbD, BitVec.getLsbD_and, hkept i hi, BitVec.getLsbD_extractLsb']
  grind

theorem argB_fields (arg : BitVec 32) : argB (arg.getLsbD 16) = arg &&& ~~~0xFFFEFFFF#32 := by
  have hkept : ∀ i < 32, (~~~0xFFFEFFFF#32).getLsbD i = decide (i = 16) := by decide
  refine BitVec.eq_of_getLsbD_eq fun i hi => ?_
  rw [argB_getLsbD, BitVec.getLsbD_and, hkept i hi]
  grind

end Sys2Proof
end

section
/-! SUPPORT. The decoder, the encoder and the opcode table agree (30_encoding R90 to R94): each command's opcode is
read by one layout, whose zero bits are those of one row of the table, and whose other bits are the command's operand
field. -/
namespace Sys2Proof

/-! ### How one opcode is read -/

/-- Words with the opcode of `i` are read by `read` when their bits under `zero` are 0. -/
structure ReadsAs (i : Instr) (zero : BitVec 32) (read : BitVec 32 → Instr) : Prop where
  /-- The table's row of the opcode has the same zero bits. -/
  row : ∃ r ∈ opcodeRows, opcodeOf r.pattern = opcode i ∧ argOf r.mask = zero
  decodes : ∀ arg, decodeFields (opcode i) arg = accept zero arg (read arg)
  opcode_read : ∀ arg, opcode (read arg) = opcode i
  /-- The command read holds every bit but the zero bits (R91). -/
  field_read : ∀ arg, operandField (read arg) = arg &&& ~~~zero
  read_field : read (operandField i) = i

/-- Every command is read by a layout; one case per layout. -/
theorem exists_readsAs (i : Instr) : ∃ zero read, ReadsAs i zero read := by
  cases i with
  | cbRelease | dqFront | dqCapacity | dqSize | dqFull | mtInit | rcInitEnc | rcInitDec | rcDecDirect | rcFlush
  | prInit | cxDecFrame | reset =>
    exact ⟨_, _, by decide, fun _ => rfl, fun _ => rfl, noField_eq_and, rfl⟩
  | cbPush v | cbFill v | dqPushBack v | bmInit v | bmGetp v =>
    exact ⟨_, _, of_decide_eq_true rfl, fun _ => rfl, fun _ => rfl, argV_fields, congrArg _ (argV_value v)⟩
  | cbGet | cbGetu | dqGet | setOpt =>
    exact ⟨_, _, of_decide_eq_true rfl, fun _ => rfl, fun _ => rfl, wholeField_eq_and, rfl⟩
  | cbPrev lo hi | cbNext lo hi | cxEncFrame lo hi =>
    exact ⟨_, _, of_decide_eq_true rfl, fun _ => rfl, fun _ => rfl, argPair_fields,
      congrArg₂ _ (argPair_low lo hi) (argPair_high lo hi)⟩
  | cbResize n pad =>
    exact ⟨_, _, of_decide_eq_true rfl, fun _ => rfl, fun _ => rfl, argNP_fields,
      congrArg₂ _ (argNP_size n pad) (argNP_pad n pad)⟩
  | cbCopyS2e k | cbCopyE2s k | dqPopFront k =>
    exact ⟨_, _, of_decide_eq_true rfl, fun _ => rfl, fun _ => rfl, argK_fields, congrArg _ (argK_value k)⟩
  | bmUpdate idx bit =>
    exact ⟨_, _, of_decide_eq_true rfl, fun _ => rfl, fun _ => rfl, argIB_fields,
      congrArg₂ _ (argIB_value idx bit) (argIB_bit idx bit)⟩
  | rcEnc p bit =>
    exact ⟨_, _, of_decide_eq_true rfl, fun _ => rfl, fun _ => rfl, argPB_fields,
      congrArg₂ _ (argPB_value p bit) (argPB_bit p bit)⟩
  | rcEncDirect bit =>
    exact ⟨_, _, of_decide_eq_true rfl, fun _ => rfl, fun _ => rfl, argB_fields, congrArg _ (argB_bit bit)⟩
  | rcDec p =>
    exact ⟨_, _, of_decide_eq_true rfl, fun _ => rfl, fun _ => rfl, argP_fields, congrArg _ (argP_value p)⟩
  | prPredict c | cxDecRes c =>
    refine ⟨_, _, of_decide_eq_true rfl, fun _ => rfl, fun _ => rfl, fun arg => ?_, ?_⟩
    · rw [operandField, channelBit_channelOf, argB_fields]
    · rw [operandField, argB_bit, channelOf_channelBit]
  | prResidual c v | prRecon c v | prShift c v | cxEncRes c v =>
    refine ⟨_, _, of_decide_eq_true rfl, fun _ => rfl, fun _ => rfl, fun arg => ?_, ?_⟩
    · rw [operandField, channelBit_channelOf, argIB_fields]
    · rw [operandField, argIB_bit, argIB_value, channelOf_channelBit]
  | rdReg n =>
    exact ⟨_, _, of_decide_eq_true rfl, fun _ => rfl, fun _ => rfl, argR_fields, congrArg _ (argR_value n)⟩

theorem ReadsAs.decode_eq {i : Instr} {zero : BitVec 32} {read : BitVec 32 → Instr} (h : ReadsAs i zero read)
    {w : CmdWord} (hop : opcodeOf w = opcode i) : decode w = accept zero (argOf w) (read (argOf w)) := by
  rw [decode, hop, h.decodes]

/-- Every branch of the decoder but the last is a layout of a command with the branch's opcode. -/
theorem decodeFields_cases (op : BitVec 8) (arg : BitVec 32) :
    decodeFields op arg = .error .undefinedOpcode ∨
    ∃ zero i, decodeFields op arg = accept zero arg i ∧ opcode i = op := by
  fun_cases decodeFields op arg
  case case41 => exact .inl rfl
  all_goals exact .inr ⟨_, _, rfl, rfl⟩

theorem accept_ne_undefinedOpcode (zero arg : BitVec 32) (i : Instr) :
    accept zero arg i ≠ .error .undefinedOpcode := by
  unfold accept
  split <;> simp

theorem decode_eq_undefinedOpcode_iff (w : CmdWord) :
    decode w = .error .undefinedOpcode ↔ ∀ i, opcode i ≠ opcodeOf w := by
  constructor
  · intro h i hi
    obtain ⟨zero, read, hread⟩ := exists_readsAs i
    exact accept_ne_undefinedOpcode _ _ _ ((hread.decode_eq hi.symm).symm.trans h)
  · intro h
    obtain hundef | ⟨zero, i, -, hi⟩ := decodeFields_cases (opcodeOf w) (argOf w)
    · exact hundef
    · exact absurd hi (h i)

/-! ### The two round trips -/

theorem decode_encode (i : Instr) : decode (encode i) = .ok i := by
  obtain ⟨zero, read, hread⟩ := exists_readsAs i
  have hzero : operandField i &&& zero = 0#32 := by
    rw [and_eq_zero_iff_and_not_eq_self, ← hread.field_read, hread.read_field]
  rw [encode, hread.decode_eq (opcodeOf_commandWord _ _), argOf_commandWord, accept_ok]
  exact ⟨hzero, hread.read_field⟩

/-- A word is accepted through the reading of its own opcode, with the zero bits 0. -/
theorem readsAs_of_decode_ok {w : CmdWord} {i : Instr} (h : decode w = .ok i) :
    ∃ j zero read, ReadsAs j zero read ∧ opcodeOf w = opcode j ∧ argOf w &&& zero = 0#32 ∧ read (argOf w) = i := by
  obtain hundef | ⟨-, j, -, hj⟩ := decodeFields_cases (opcodeOf w) (argOf w)
  · cases hundef.symm.trans h
  · obtain ⟨zero, read, hread⟩ := exists_readsAs j
    rw [hread.decode_eq hj.symm, accept_ok] at h
    exact ⟨j, zero, read, hread, hj.symm, h⟩

theorem opcode_of_decode_ok {w : CmdWord} {i : Instr} (h : decode w = .ok i) : opcode i = opcodeOf w := by
  obtain ⟨j, zero, read, hread, hop, -, rfl⟩ := readsAs_of_decode_ok h
  rw [hread.opcode_read, hop]

theorem operandField_of_decode_ok {w : CmdWord} {i : Instr} (h : decode w = .ok i) : operandField i = argOf w := by
  obtain ⟨j, zero, read, hread, -, hzero, rfl⟩ := readsAs_of_decode_ok h
  rw [hread.field_read, (and_eq_zero_iff_and_not_eq_self _ _).1 hzero]

theorem encode_of_decode_ok {w : CmdWord} {i : Instr} (h : decode w = .ok i) : encode i = w := by
  rw [encode, opcode_of_decode_ok h, operandField_of_decode_ok h, commandWord_fields]

/-! ### The opcode table -/

theorem cmdWord_ext_iff {v w : CmdWord} : v = w ↔ opcodeOf v = opcodeOf w ∧ argOf v = argOf w := by
  constructor
  · rintro rfl
    exact ⟨rfl, rfl⟩
  · rintro ⟨hop, harg⟩
    rw [← commandWord_fields v, hop, harg, commandWord_fields]

/-- Every row fixes the whole opcode and asks for operand bits that are 0. -/
theorem opcodeRows_shape : ∀ r ∈ opcodeRows, opcodeOf r.mask = BitVec.allOnes 8 ∧ argOf r.pattern = 0#32 := by
  decide

theorem owns_iff {r : OpcodeRow} (hr : r ∈ opcodeRows) (w : CmdWord) :
    r.owns w = true ↔ opcodeOf w = opcodeOf r.pattern ∧ argOf w &&& argOf r.mask = 0#32 := by
  obtain ⟨hop, harg⟩ := opcodeRows_shape r hr
  have hopAnd : opcodeOf (w &&& r.mask) = opcodeOf w := by
    rw [opcodeOf, BitVec.extractLsb'_and]
    change opcodeOf w &&& opcodeOf r.mask = opcodeOf w
    rw [hop, BitVec.and_allOnes]
  have hargAnd : argOf (w &&& r.mask) = argOf w &&& argOf r.mask := BitVec.extractLsb'_and
  rw [OpcodeRow.owns, beq_iff_eq, cmdWord_ext_iff, hopAnd, hargAnd, harg]

theorem sameOpcode_iff (r : OpcodeRow) (w : CmdWord) : r.sameOpcode w = true ↔ opcodeOf w = opcodeOf r.pattern :=
  beq_iff_eq

/-- The table lists the opcodes in increasing order, so they are distinct. -/
theorem opcodeRows_nodup : (opcodeRows.map fun r => (opcodeOf r.pattern).toNat).Nodup := by
  have hincreasing : (opcodeRows.map fun r => (opcodeOf r.pattern).toNat).IsChain (· < ·) := by decide
  exact hincreasing.pairwise.imp Nat.ne_of_lt

theorem row_eq_of_opcode_eq {r₁ r₂ : OpcodeRow} (h₁ : r₁ ∈ opcodeRows) (h₂ : r₂ ∈ opcodeRows)
    (h : opcodeOf r₁.pattern = opcodeOf r₂.pattern) : r₁ = r₂ :=
  List.inj_on_of_nodup_map opcodeRows_nodup h₁ h₂ (congrArg BitVec.toNat h)

theorem row_eq_of_owns {w : CmdWord} {r₁ r₂ : OpcodeRow} (h₁ : r₁ ∈ opcodeRows) (h₂ : r₂ ∈ opcodeRows)
    (ho₁ : r₁.owns w = true) (ho₂ : r₂.owns w = true) : r₁ = r₂ := by
  obtain ⟨hop₁, -⟩ := (owns_iff h₁ w).1 ho₁
  obtain ⟨hop₂, -⟩ := (owns_iff h₂ w).1 ho₂
  exact row_eq_of_opcode_eq h₁ h₂ (hop₁.symm.trans hop₂)

theorem opcodeDefined_iff (w : CmdWord) :
    opcodeDefined w = true ↔ ∃ r ∈ opcodeRows, opcodeOf w = opcodeOf r.pattern := by
  simp only [opcodeDefined, List.any_eq_true, sameOpcode_iff]

theorem wellFormed_iff (w : CmdWord) : wellFormed w = true ↔ ∃ r ∈ opcodeRows, r.owns w = true := by
  simp only [wellFormed, Bool.and_eq_true, opcodeDefined_iff, zeroBitsClear, List.all_eq_true, Bool.or_eq_true,
    Bool.not_eq_true', ← Bool.not_eq_true, sameOpcode_iff]
  constructor
  · rintro ⟨⟨r, hr, hop⟩, hclear⟩
    exact ⟨r, hr, (hclear r hr).resolve_left (not_not_intro hop)⟩
  · rintro ⟨r, hr, howns⟩
    obtain ⟨hop, -⟩ := (owns_iff hr w).1 howns
    refine ⟨⟨r, hr, hop⟩, fun r' hr' => or_iff_not_imp_left.2 fun hop' => ?_⟩
    rwa [row_eq_of_opcode_eq hr' hr ((not_not.1 hop').symm.trans hop)]

/-! ### The decoder and the table -/

/-- Every row's opcode is that of a command: the row's word with all operand bits 0 decodes. -/
theorem exists_opcode_of_row {r : OpcodeRow} (hr : r ∈ opcodeRows) : ∃ i, opcode i = opcodeOf r.pattern := by
  have haccepts : ∀ r ∈ opcodeRows, (decode r.pattern).isOk = true := by decide
  cases hdec : decode r.pattern with
  | ok i => exact ⟨i, opcode_of_decode_ok hdec⟩
  | error e => simpa [hdec, Except.isOk, Except.toBool] using haccepts r hr

theorem exists_row_of_opcode (i : Instr) : ∃ r ∈ opcodeRows, opcodeOf r.pattern = opcode i := by
  obtain ⟨zero, read, hread⟩ := exists_readsAs i
  obtain ⟨r, hr, hop, -⟩ := hread.row
  exact ⟨r, hr, hop⟩

theorem owns_of_decode_ok {w : CmdWord} {i : Instr} (h : decode w = .ok i) :
    ∃ r ∈ opcodeRows, r.owns w = true ∧ opcode i = opcodeOf r.pattern := by
  obtain ⟨j, zero, read, hread, hop, hzero, -⟩ := readsAs_of_decode_ok h
  obtain ⟨r, hr, hrop, rfl⟩ := hread.row
  have hw : opcodeOf w = opcodeOf r.pattern := hop.trans hrop.symm
  exact ⟨r, hr, (owns_iff hr w).2 ⟨hw, hzero⟩, (opcode_of_decode_ok h).trans hw⟩

theorem decode_ok_of_owns {r : OpcodeRow} (hr : r ∈ opcodeRows) {w : CmdWord} (h : r.owns w = true) :
    ∃ i, decode w = .ok i := by
  obtain ⟨hop, hzero⟩ := (owns_iff hr w).1 h
  obtain ⟨i, hi⟩ := exists_opcode_of_row hr
  obtain ⟨zero, read, hread⟩ := exists_readsAs i
  obtain ⟨r', hr', hop', rfl⟩ := hread.row
  obtain rfl := row_eq_of_opcode_eq hr' hr (hop'.trans hi)
  exact ⟨_, (hread.decode_eq (hop.trans hop')).trans (accept_ok.2 ⟨hzero, rfl⟩)⟩

theorem exists_decode_ok_iff (w : CmdWord) : (∃ i, decode w = .ok i) ↔ ∃ r ∈ opcodeRows, r.owns w = true := by
  constructor
  · rintro ⟨i, hi⟩
    obtain ⟨r, hr, howns, -⟩ := owns_of_decode_ok hi
    exact ⟨r, hr, howns⟩
  · rintro ⟨r, hr, howns⟩
    exact decode_ok_of_owns hr howns

theorem decode_undefinedOpcode_iff_opcodeDefined (w : CmdWord) :
    decode w = .error .undefinedOpcode ↔ opcodeDefined w = false := by
  rw [decode_eq_undefinedOpcode_iff, ← Bool.not_eq_true, opcodeDefined_iff]
  constructor
  · rintro h ⟨r, hr, hop⟩
    obtain ⟨i, hi⟩ := exists_opcode_of_row hr
    exact h i (hi.trans hop.symm)
  · intro h i hi
    obtain ⟨r, hr, hop⟩ := exists_row_of_opcode i
    exact h ⟨r, hr, (hop.trans hi).symm⟩

theorem exists_decode_error_of_not_wellFormed {w : CmdWord} (h : wellFormed w = false) : ∃ e, decode w = .error e := by
  cases hdec : decode w with
  | ok i =>
    have hwf := (wellFormed_iff w).2 ((exists_decode_ok_iff w).1 ⟨i, hdec⟩)
    rw [h] at hwf
    cases hwf
  | error e => exact ⟨e, rfl⟩

/-! ### The statements -/

/-- Settles O1: each command is read by one layout, and reading an assembled operand field gives its fields back. -/
theorem decodeEncodeRoundTrip : Obligations.DecodeEncodeRoundTrip := decode_encode

/-- Settles O2: the command read has the word's opcode, and its operand field is the word's outside the zero bits. -/
theorem encodeDecodeRoundTrip : Obligations.EncodeDecodeRoundTrip := fun _ _ => encode_of_decode_ok

/-- Settles O3: the opcode decides the row and the layout, and both have the same zero bits. -/
theorem decoderAcceptsExactlyTableRows : Obligations.DecoderAcceptsExactlyTableRows := fun w =>
  ⟨fun _ h₁ _ h₂ => row_eq_of_owns h₁ h₂, exists_decode_ok_iff w, fun _ => owns_of_decode_ok,
    decode_undefinedOpcode_iff_opcodeDefined w, wellFormed_iff w⟩

/-- Settles O4: each accepted word is the encoding of its command; the two rejected words fail in the two ways. -/
theorem specWordsDecode : Obligations.SpecWordsDecode :=
  ⟨decode_encode (.cbResize 2#24 255#8), decode_encode (.cbPrev 2#16 3#16), decode_encode (.dqPopFront 1#24),
    decode_encode (.bmUpdate 5#16 true), decode_encode (.rcEnc 2048#13 true),
    decode_encode (.prResidual .b 0xFFFF#16), decode_encode (.cxEncFrame 0x0001#16 0x7FFF#16),
    decode_encode (.rdReg 0x1B#8), rfl, rfl⟩

end Sys2Proof
end

section
/-! SUPPORT. A step on a word that is not well formed (60_exceptions R227, R240). -/
namespace Sys2Proof.Machine

/-- Settles O6: the decoder rejects the word, and the IllegalCommand entry is behind the gate of a faulted block. -/
theorem stepOnIllegalWord : Obligations.StepOnIllegalWord := by
  intro s w rest hin hwf
  obtain ⟨e, hdec⟩ := exists_decode_error_of_not_wellFormed hwf
  rw [step_of_command hin, runWord_of_decode_error hdec, illegalCommand]
  refine ⟨fun hclear => ?_, fun hfaulted => ?_⟩
  · have hgate : faulted (takeInput s) = false := hclear
    rw [unlessFaulted_of_clear hgate, takeInput_of_inputs hin]
    rfl
  · have hgate : faulted (takeInput s) = true := hfaulted
    rw [unlessFaulted_of_faulted hgate, takeInput_of_inputs hin]
    rfl

end Sys2Proof.Machine
end

section
/-! SUPPORT. The two ascending copies of 40_cyclic_buffer R119 and R120, cell by cell: towards higher indices the
copied cells repeat, towards lower ones each source cell is read before it is overwritten. -/
namespace Sys2Proof.Machine

/-- A copy `n` cells up reads back its own writes, so from `src` on the cells repeat with period `n`. -/
theorem Memory.read_copyUp_periodic {w : Nat} (d : BitVec w) (m : Memory w) (src : Nat) {n : Nat} (hn : 0 < n)
    (len : Nat) {j : Nat} (hj : j < n + len) :
    Memory.read d (Memory.copyUp d m (src + n) src len) (src + j) = Memory.read d m (src + j % n) := by
  induction len generalizing j with
  | zero => rw [Nat.mod_eq_of_lt (b := n) hj]; rfl
  | succ len ih =>
    by_cases hlast : j = n + len
    · rw [hlast, ← Nat.add_assoc, Memory.read_copyUp_last, ih (by omega), Nat.add_mod_left]
    · rw [Memory.copyUp, Memory.read_write_other _ _ _ _ _ (by omega), ih (by omega)]

/-- A copy to lower indices moves the old source cells. -/
theorem Memory.read_copyUp_of_dst_le_src {w : Nat} (d : BitVec w) (m : Memory w) {dst src : Nat} (h : dst ≤ src)
    {len i : Nat} (hi : i < len) :
    Memory.read d (Memory.copyUp d m dst src len) (dst + i) = Memory.read d m (src + i) := by
  induction len with
  | zero => exact absurd hi (Nat.not_lt_zero i)
  | succ len ih =>
    by_cases hlast : i = len
    · rw [hlast, Memory.read_copyUp_last, Memory.read_copyUp_outside _ _ _ _ _ _ (by omega)]
    · rw [Memory.copyUp, Memory.read_write_other _ _ _ _ _ (by omega), ih (by omega)]

end Sys2Proof.Machine
end

section
/-! SUPPORT. Masking by CB_MASK is reduction modulo the ring size (10_state R36, 20_memory R72): modulo CB_N while a
buffer is allocated, modulo 2^32 after a release. -/
namespace Sys2Proof.Machine

/-- What masking by CB_MASK reduces by. -/
def ringModulus (r : Ring) : Int := if r.alloc then (r.n.toNat : Int) else 2 ^ 32

/-- In either state the mask is one less than a power of two that divides 2^32. -/
theorem exists_ringModulus_eq {r : Ring} (h : RingInv r) :
    ∃ k ≤ 32, ringModulus r = ((2 ^ k : Nat) : Int) ∧ r.mask.toNat = 2 ^ k - 1 := by
  obtain ⟨halloc, hrel⟩ := h
  cases ha : r.alloc with
  | true =>
    obtain ⟨⟨k, hk, hn⟩, hmask, -, -⟩ := halloc ha
    exact ⟨k, by omega, by rw [ringModulus, ha, if_pos rfl, hn], by rw [hmask, hn]⟩
  | false =>
    obtain ⟨-, -, hmask, -, -⟩ := hrel ha
    exact ⟨32, le_rfl, by rw [ringModulus, ha]; rfl, by rw [hmask]; rfl⟩

/-- A word that holds `z` modulo 2^32 holds, masked, `z` modulo the ring size. -/
theorem toNat_and_mask {r : Ring} (h : RingInv r) {x : BitVec 32} {z : Int} (hx : (x.toNat : Int) = z % 2 ^ 32) :
    ((x &&& r.mask).toNat : Int) = z % ringModulus r := by
  obtain ⟨k, hk, hmod, hmask⟩ := exists_ringModulus_eq h
  have hdvd : ((2 ^ k : Nat) : Int) ∣ 2 ^ 32 := by exact_mod_cast Nat.pow_dvd_pow 2 hk
  calc ((x &&& r.mask).toNat : Int)
      = (x.toNat : Int) % ((2 ^ k : Nat) : Int) := by
        rw [BitVec.toNat_and, hmask, Nat.and_two_pow_sub_one_eq_mod, Int.natCast_mod]
    _ = z % ringModulus r := by rw [hx, Int.emod_emod_of_dvd z hdvd, hmod]

theorem toNat_setWidth_sub (p k : BitVec 16) :
    ((p.setWidth 32 - k.setWidth 32).toNat : Int) = ((p.toNat : Int) - k.toNat) % 2 ^ 32 := by
  bv_omega

theorem toNat_setWidth_add (p k : BitVec 16) :
    ((p.setWidth 32 + k.setWidth 32).toNat : Int) = ((p.toNat : Int) + k.toNat) % 2 ^ 32 := by
  bv_omega

theorem toNat_add_ofInt (x : BitVec 32) (z : Int) :
    ((x + BitVec.ofInt 32 z).toNat : Int) = (x.toNat + z) % 2 ^ 32 := by
  rw [BitVec.toNat_add, BitVec.toNat_ofInt]
  omega

/-- Whole turns around the ring do not change the masked offset (40_cyclic_buffer R122). -/
theorem add_turns_and_mask {r : Ring} (h : RingInv r) (ha : r.alloc = true) (off : BitVec 32) (k : Int) :
    (off + BitVec.ofInt 32 (k * r.n.toNat)) &&& r.mask = off &&& r.mask := by
  have hmod : ringModulus r = r.n.toNat := by rw [ringModulus, ha, if_pos rfl]
  have hoff : (off.toNat : Int) = (off.toNat : Int) % 2 ^ 32 := by omega
  apply BitVec.eq_of_toNat_eq
  zify
  rw [toNat_and_mask h (toNat_add_ofInt off _), toNat_and_mask h hoff, hmod, Int.add_mul_emod_self_right]

end Sys2Proof.Machine
end

section
/-! SUPPORT. What each CB_ command answers in a block that is not faulted (40_cyclic_buffer R110 to R120): its effect
when its checks hold, and otherwise the fault of the first check that does not. -/
namespace Sys2Proof.Machine

theorem requireAlloc_of_alloc {i : Instr} {s : State} (ha : s.ring.alloc = true) (k : Result) :
    requireAlloc i s k = k := by rw [requireAlloc, ha, require_true]

theorem requireAlloc_of_released {i : Instr} {s : State} (ha : s.ring.alloc = false) (k : Result) :
    requireAlloc i s k = .next (raise .cbUnallocated i s) := by rw [requireAlloc, ha, require_false]

/-- Without a buffer every command that touches the storage raises CbUnallocated (R110). -/
theorem exec_of_released {i : Instr} {s : State} (hi : needsStorage i = true) (hs : faulted s = false)
    (ha : s.ring.alloc = false) : exec i s = .next (raise .cbUnallocated i s) := by
  have hgate (k : Result) : unlessFaulted s (requireAlloc i s k) = .next (raise .cbUnallocated i s) := by
    rw [unlessFaulted_of_clear hs, requireAlloc_of_released ha]
  cases i with
  | cbPush | cbGet | cbGetu | cbFill | cbCopyS2e | cbCopyE2s | dqPushBack | dqFront | dqGet => exact hgate _
  | _ => exact absurd hi Bool.false_ne_true

theorem exec_cbResize_of_legal {n : BitVec 24} {s : State} (hs : faulted s = false) (hn : sizeLegal n = true)
    (pad : BitVec 8) : exec (.cbResize n pad) s = .next (effect (.cbResize n pad) s) := by
  rw [exec, execCbResize, unlessFaulted_of_clear hs, hn, require_true, effect]

theorem exec_cbResize_of_not_legal {n : BitVec 24} {s : State} (hs : faulted s = false) (hn : sizeLegal n = false)
    (pad : BitVec 8) : exec (.cbResize n pad) s = .next (raise .badConfiguration (.cbResize n pad) s) := by
  rw [exec, execCbResize, unlessFaulted_of_clear hs, hn, require_false]

theorem exec_cbRelease {s : State} (hs : faulted s = false) : exec .cbRelease s = .next (effect .cbRelease s) := by
  rw [exec, execCbRelease, unlessFaulted_of_clear hs, effect]

theorem exec_cbPrev {s : State} (hs : faulted s = false) (p k : BitVec 16) :
    exec (.cbPrev p k) s = .next (effect (.cbPrev p k) s) := by
  rw [exec, execCbPrev, unlessFaulted_of_clear hs, effect]

theorem exec_cbNext {s : State} (hs : faulted s = false) (p k : BitVec 16) :
    exec (.cbNext p k) s = .next (effect (.cbNext p k) s) := by
  rw [exec, execCbNext, unlessFaulted_of_clear hs, effect]

/-! ### With a buffer -/

section
variable {s : State} (hs : faulted s = false) (ha : s.ring.alloc = true)
include hs ha

theorem exec_cbPush (hring : RingInv s.ring) (v : BitVec 16) :
    exec (.cbPush v) s = .next (effect (.cbPush v) s) := by
  obtain ⟨halloc, -⟩ := hring
  have hj := maskedIndex_lt_cells (halloc ha) s.ring.pos
  rw [exec, execCbPush, unlessFaulted_of_clear hs, requireAlloc_of_alloc ha, withElement_of_lt hj, effect]

theorem exec_cbGet (hring : RingInv s.ring) (off : BitVec 32) :
    exec (.cbGet off) s = .next (effect (.cbGet off) s) := by
  obtain ⟨halloc, -⟩ := hring
  have hj := maskedIndex_lt_cells (halloc ha) off
  rw [exec, execCbGet, unlessFaulted_of_clear hs, requireAlloc_of_alloc ha, withElement_of_lt hj, effect]

theorem exec_cbFill (v : BitVec 16) : exec (.cbFill v) s = .next (effect (.cbFill v) s) := by
  rw [exec, execCbFill, unlessFaulted_of_clear hs, requireAlloc_of_alloc ha, effect]

theorem exec_cbGetu_of_legal {off : BitVec 32} (hoff : unmaskedLegal s.ring off = true) :
    exec (.cbGetu off) s = .next (effect (.cbGetu off) s) := by
  rw [exec, execCbGetu, unlessFaulted_of_clear hs, requireAlloc_of_alloc ha, hoff, require_true, effect]

theorem exec_cbGetu_of_not_legal {off : BitVec 32} (hoff : unmaskedLegal s.ring off = false) :
    exec (.cbGetu off) s = .next (raise .cbBounds (.cbGetu off) s) := by
  rw [exec, execCbGetu, unlessFaulted_of_clear hs, requireAlloc_of_alloc ha, hoff, require_false]

theorem exec_cbCopyS2e_of_le {k : BitVec 24} (hk : k.toNat ≤ s.ring.pad.toNat) :
    exec (.cbCopyS2e k) s = .next (effect (.cbCopyS2e k) s) := by
  have hlegal : copyS2eLegal s.ring k = true := decide_eq_true hk
  rw [exec, execCbCopyS2e, unlessFaulted_of_clear hs, requireAlloc_of_alloc ha, hlegal, require_true, effect]

theorem exec_cbCopyS2e_of_lt {k : BitVec 24} (hk : s.ring.pad.toNat < k.toNat) :
    exec (.cbCopyS2e k) s = .next (raise .cbBounds (.cbCopyS2e k) s) := by
  have hlegal : copyS2eLegal s.ring k = false := decide_eq_false (Nat.not_le_of_lt hk)
  rw [exec, execCbCopyS2e, unlessFaulted_of_clear hs, requireAlloc_of_alloc ha, hlegal, require_false]

theorem exec_cbCopyE2s_of_le {k : BitVec 24} (hk : k.toNat ≤ 2 * s.ring.pad.toNat) :
    exec (.cbCopyE2s k) s = .next (effect (.cbCopyE2s k) s) := by
  have hlegal : copyE2sLegal s.ring k = true := decide_eq_true hk
  rw [exec, execCbCopyE2s, unlessFaulted_of_clear hs, requireAlloc_of_alloc ha, hlegal, require_true, effect]

theorem exec_cbCopyE2s_of_lt {k : BitVec 24} (hk : 2 * s.ring.pad.toNat < k.toNat) :
    exec (.cbCopyE2s k) s = .next (raise .cbBounds (.cbCopyE2s k) s) := by
  have hlegal : copyE2sLegal s.ring k = false := decide_eq_false (Nat.not_le_of_lt hk)
  rw [exec, execCbCopyE2s, unlessFaulted_of_clear hs, requireAlloc_of_alloc ha, hlegal, require_false]

end

/-! ### What the effects leave of the ring -/

theorem alloc_ringSize_pos {r : Ring} (h : RingInv r) (ha : r.alloc = true) : 0 < r.n.toNat := by
  obtain ⟨halloc, -⟩ := h
  obtain ⟨⟨k, -, hn⟩, -, -, -⟩ := halloc ha
  exact hn ▸ Nat.two_pow_pos k

/-- Everything a push does to the storage (R112, R131). -/
theorem stRead_pushElement (r : Ring) (v : Sample) (j : Nat) :
    stRead (pushElement r v) j = if j = maskedIndex r r.pos then v else stRead r j :=
  stRead_stWrite r _ j v

/-- The size and the mask of a new buffer, as numbers (R111). -/
theorem freshRing_toNat {n : BitVec 24} (hn : sizeLegal n = true) (pad : BitVec 8) :
    0 < n.toNat ∧ (freshRing n pad).n.toNat = n.toNat ∧ (freshRing n pad).mask.toNat = n.toNat - 1 := by
  obtain ⟨k, hk, hpow⟩ := (sizeLegal_iff n).1 hn
  have hle : 2 ^ k ≤ 2 ^ 16 := Nat.pow_le_pow_right (by decide) (Nat.le_of_lt_succ hk)
  have hpos : 0 < 2 ^ k := Nat.two_pow_pos k
  change 0 < n.toNat ∧ (n.setWidth 17).toNat = n.toNat ∧ (n.setWidth 32 - 1#32).toNat = n.toNat - 1
  bv_omega

/-- The offsets CB_GETU accepts (R114). -/
theorem unmaskedLegal_iff (r : Ring) (off : BitVec 32) :
    unmaskedLegal r off = true ↔
      ¬ (off.toInt < -(r.pad.toNat : Int) ∨ (r.n.toNat : Int) + r.pad.toNat ≤ off.toInt) := by
  simp [unmaskedLegal]

/-! ### The statements -/

/-- Settles O17: the sizes the check accepts are the powers of two up to NMAX, and a new buffer lists no element. -/
theorem cbResizeResult : Obligations.CbResizeResult := by
  intro n pad s hs
  refine ⟨rfl, fun hpow => ?_, fun hpow => ?_⟩
  · have hlegal : sizeLegal n = true := (sizeLegal_iff n).2 hpow
    obtain ⟨hpos, hsize, hmask⟩ := freshRing_toNat hlegal pad
    have hfull : dqFullFlag (freshRing n pad) = false := beq_false_of_ne (a := 0#17) (by bv_omega)
    exact ⟨freshRing n pad, exec_cbResize_of_legal hs hlegal pad, rfl, hsize, rfl, hmask, rfl, rfl, rfl,
      fun _ => rfl, rfl, hfull⟩
  · have hlegal : sizeLegal n = false := Bool.eq_false_iff.2 fun h => hpow ((sizeLegal_iff n).1 h)
    exact exec_cbResize_of_not_legal hs hlegal pad

/-- Settles O18: behind the gate a push is one storage write and one step of CB_POS. -/
theorem cbPushResult : Obligations.CbPushResult := fun v s hs hring =>
  ⟨rfl, exec_of_released rfl hs, fun ha =>
    ⟨pushElement s.ring v, exec_cbPush hs ha hring v, rfl, stRead_pushElement s.ring v⟩⟩

/-- Settles O21: a fill writes every cell of the allocation. -/
theorem cbFillResult : Obligations.CbFillResult := fun v s hs =>
  ⟨rfl, exec_of_released rfl hs, fun ha =>
    ⟨_, exec_cbFill hs ha v, rfl, fun j hj => (Memory.read_fill stDefault v s.ring.cells j).trans (if_pos hj)⟩⟩

/-- Settles O23: the two words hold the difference and the sum modulo 2^32, and the mask reduces them. -/
theorem cbPrevNextResult : Obligations.CbPrevNextResult := fun p k _ hs hring =>
  ⟨rfl, rfl, ⟨_, exec_cbPrev hs p k, toNat_and_mask hring (toNat_setWidth_sub p k), rfl⟩,
    ⟨_, exec_cbNext hs p k, toNat_and_mask hring (toNat_setWidth_add p k), rfl⟩⟩

/-- Settles O24: the tail is the copy one ring size up, which repeats with that period. -/
theorem cbCopyS2eResult : Obligations.CbCopyS2eResult := by
  intro k s hs hring
  refine ⟨rfl, exec_of_released rfl hs, fun ha hk => exec_cbCopyS2e_of_lt hs ha hk, fun ha hk =>
    ⟨_, exec_cbCopyS2e_of_le hs ha hk, rfl, fun i hi => ?_, fun j hj => ?_⟩⟩
  · have hrepeat := Memory.read_copyUp_periodic stDefault s.ring.st s.ring.pad.toNat (alloc_ringSize_pos hring ha)
      k.toNat (Nat.add_lt_add_left hi s.ring.n.toNat)
    rwa [← Nat.add_assoc, Nat.add_mod_left] at hrepeat
  · exact Memory.read_copyUp_outside _ _ _ _ _ _ hj

/-- Settles O25: the copy goes to lower indices, so it moves the old elements. -/
theorem cbCopyE2sResult : Obligations.CbCopyE2sResult := by
  intro k s hs hring
  refine ⟨rfl, exec_of_released rfl hs, fun ha hk => exec_cbCopyE2s_of_lt hs ha hk, fun ha hk =>
    ⟨_, exec_cbCopyE2s_of_le hs ha hk, rfl, fun i hi => ?_, fun j hj => ?_⟩⟩
  · have hmoved := Memory.read_copyUp_of_dst_le_src stDefault s.ring.st (Nat.zero_le s.ring.n.toNat) hi
    rwa [Nat.zero_add] at hmoved
  · exact Memory.read_copyUp_outside _ _ _ _ _ _ (.inr (by omega))

/-- Settles O26: whole turns around the ring leave the masked offset, hence the element read. -/
theorem cbMaskingLaw : Obligations.CbMaskingLaw := by
  intro off k s hs hring ha
  refine ⟨_, exec_cbGet hs ha hring off, ?_⟩
  rw [exec_cbGet hs ha hring, effect, effect, maskedIndex, maskedIndex, add_turns_and_mask hring ha]

/-- Settles O19: the index read is CB_PAD and the masked offset. -/
theorem cbGetResult : Obligations.CbGetResult := fun off _ hs hring =>
  ⟨rfl, exec_of_released rfl hs, fun ha => exec_cbGet hs ha hring off⟩

/-- Settles O20: the three cases of the gate and the bounds check; inside the bounds the index is not negative. -/
theorem cbGetuResult : Obligations.CbGetuResult := by
  intro off s hs
  refine ⟨rfl, ?_⟩
  split
  next ha => exact exec_of_released rfl hs ha
  next ha =>
    have halloc : s.ring.alloc = true := Bool.eq_true_of_not_eq_false ha
    split
    next hout =>
      exact exec_cbGetu_of_not_legal hs halloc (Bool.eq_false_iff.2 fun h => (unmaskedLegal_iff s.ring off).1 h hout)
    next hin =>
      exact ⟨unmaskedIndex s.ring off, Int.toNat_of_nonneg (by omega),
        exec_cbGetu_of_legal hs halloc ((unmaskedLegal_iff s.ring off).2 hin)⟩

/-- Settles O22: a release drops the storage and keeps the two cursors. -/
theorem cbReleaseResult : Obligations.CbReleaseResult := fun _ hs => ⟨rfl, [], exec_cbRelease hs⟩

end Sys2Proof.Machine
end

section
/-! SUPPORT. What each DQ_ command answers in a block that is not faulted (41_cyclic_deque R131 to R137): its effect
when its checks hold, and otherwise the fault of the first check that does not. -/
namespace Sys2Proof.Machine

/-- The ring after a DQ_PUSH_BACK with room (R131). -/
def pushedBack (r : Ring) (v : Sample) : Ring := { pushElement r v with dqSize := r.dqSize + 1#17 }

/-- The ring after a DQ_POP_FRONT of at most the live elements (R132). -/
def poppedFront (r : Ring) (k : BitVec 24) : Ring :=
  { r with frontPos := r.frontPos + k.setWidth 32, dqSize := r.dqSize - k.setWidth 17 }

section
variable {s : State} (hs : faulted s = false)
include hs

theorem exec_dqPushBack_of_room (ha : s.ring.alloc = true) (hring : AllocatedInv s.ring)
    (hroom : s.ring.dqSize ≠ s.ring.n) (v : BitVec 16) :
    exec (.dqPushBack v) s = .next { s with ring := pushedBack s.ring v } := by
  have hj := maskedIndex_lt_cells hring s.ring.pos
  rw [exec, execDqPushBack, unlessFaulted_of_clear hs, requireAlloc_of_alloc ha, bne_iff_ne.2 hroom, require_true,
    withElement_of_lt hj, pushedBack]

theorem exec_dqPushBack_of_full (ha : s.ring.alloc = true) (hfull : s.ring.dqSize = s.ring.n) (v : BitVec 16) :
    exec (.dqPushBack v) s = .next (raise .dqOverflow (.dqPushBack v) s) := by
  rw [exec, execDqPushBack, unlessFaulted_of_clear hs, requireAlloc_of_alloc ha, hfull, bne_self_eq_false,
    require_false]

theorem exec_dqPopFront_of_le {k : BitVec 24} (hk : k.toNat ≤ s.ring.dqSize.toNat) :
    exec (.dqPopFront k) s = .next { s with ring := poppedFront s.ring k } := by
  rw [exec, execDqPopFront, unlessFaulted_of_clear hs, decide_eq_true hk, require_true, poppedFront]

theorem exec_dqPopFront_of_lt {k : BitVec 24} (hk : s.ring.dqSize.toNat < k.toNat) :
    exec (.dqPopFront k) s = .next (raise .dqUnderflow (.dqPopFront k) s) := by
  rw [exec, execDqPopFront, unlessFaulted_of_clear hs, decide_eq_false (Nat.not_le_of_lt hk), require_false]

theorem exec_dqFront (ha : s.ring.alloc = true) (hring : AllocatedInv s.ring) :
    exec .dqFront s = .next (effect .dqFront s) := by
  have hj := dequeIndex_lt_cells hring 0#32
  rw [exec, execDqFront, unlessFaulted_of_clear hs, requireAlloc_of_alloc ha, withElement_of_lt hj, effect]

theorem exec_dqGet (ha : s.ring.alloc = true) (hring : AllocatedInv s.ring) (off : BitVec 32) :
    exec (.dqGet off) s = .next (effect (.dqGet off) s) := by
  have hj := dequeIndex_lt_cells hring off
  rw [exec, execDqGet, unlessFaulted_of_clear hs, requireAlloc_of_alloc ha, withElement_of_lt hj, effect]

theorem exec_dqCapacity : exec .dqCapacity s = .next (effect .dqCapacity s) := by
  rw [exec, execDqCapacity, unlessFaulted_of_clear hs, effect]

theorem exec_dqSize : exec .dqSize s = .next (effect .dqSize s) := by
  rw [exec, execDqSize, unlessFaulted_of_clear hs, effect]

theorem exec_dqFull : exec .dqFull s = .next (effect .dqFull s) := by
  rw [exec, execDqFull, unlessFaulted_of_clear hs, effect]

end

/-- A faulted block refuses every DQ_ command (60_exceptions R240). -/
theorem exec_deque_of_faulted {i : Instr} {s : State} (hi : isDequeCommand i = true) (hs : faulted s = true) :
    exec i s = .next s := by
  cases i with
  | dqPushBack | dqPopFront | dqFront | dqGet | dqCapacity | dqSize | dqFull => exact unlessFaulted_of_faulted hs _
  | _ => exact absurd hi Bool.false_ne_true

/-! ### What the effects leave of the ring -/

theorem stRead_pushedBack (r : Ring) (v : Sample) (j : Nat) :
    stRead (pushedBack r v) j = if j = maskedIndex r r.pos then v else stRead r j :=
  stRead_pushElement r v j

theorem dqFullFlag_iff (r : Ring) : dqFullFlag r = true ↔ r.alloc = true ∧ r.dqSize = r.n := by
  rw [dqFullFlag, Bool.and_eq_true, beq_iff_eq]

theorem allocated_ringSize_le {r : Ring} (h : AllocatedInv r) : r.n.toNat ≤ 2 ^ 16 := by
  obtain ⟨⟨k, hk, hn⟩, -, -, -⟩ := h
  exact hn ▸ Nat.pow_le_pow_right (by decide) (Nat.le_of_lt_succ hk)

theorem dqSize_lt_ringSize {r : Ring} (h : AllocatedInv r) (hroom : r.dqSize ≠ r.n) :
    r.dqSize.toNat < r.n.toNat := by
  obtain ⟨-, -, hsize, -⟩ := h
  bv_omega

theorem pushedBack_dqSize_toNat {r : Ring} (h : AllocatedInv r) (hroom : r.dqSize ≠ r.n) (v : Sample) :
    (pushedBack r v).dqSize.toNat = r.dqSize.toNat + 1 := by
  have hlt := dqSize_lt_ringSize h hroom
  have hle := allocated_ringSize_le h
  change (r.dqSize + 1#17).toNat = r.dqSize.toNat + 1
  bv_omega

theorem poppedFront_dqSize_toNat {r : Ring} {k : BitVec 24} (hk : k.toNat ≤ r.dqSize.toNat) :
    (poppedFront r k).dqSize.toNat = r.dqSize.toNat - k.toNat := by
  change (r.dqSize - k.setWidth 17).toNat = r.dqSize.toNat - k.toNat
  bv_omega

/-- The mask is one less than the number of elements; after a release the sum wraps to 0 (R135). -/
theorem toNat_mask_add_one {r : Ring} (h : RingInv r) :
    (r.mask + 1#32).toNat = if r.alloc then r.n.toNat else 0 := by
  have ⟨halloc, hrel⟩ := h
  cases ha : r.alloc with
  | true =>
    obtain ⟨-, hmask, -, -⟩ := halloc ha
    have hpos := alloc_ringSize_pos h ha
    simp only [if_true]
    bv_omega
  | false =>
    obtain ⟨-, -, hmask, -, -⟩ := hrel ha
    rw [hmask]
    rfl

/-! ### The statements -/

/-- Settles O27: behind its two checks the command is a push and one more live element. -/
theorem dqPushBackResult : Obligations.DqPushBackResult := by
  intro v s hs hring
  have ⟨halloc, _⟩ := hring
  refine ⟨rfl, exec_of_released rfl hs, fun ha hfull => exec_dqPushBack_of_full hs ha hfull v, fun ha hroom => ?_⟩
  have hsize := pushedBack_dqSize_toNat (halloc ha) hroom v
  have hempty : dqEmptyFlag (pushedBack s.ring v) = false := beq_false_of_ne (by bv_omega)
  have hfull : dqFullFlag (pushedBack s.ring v) = true ↔ (pushedBack s.ring v).dqSize = s.ring.n :=
    (dqFullFlag_iff _).trans (and_iff_right ha)
  exact ⟨pushedBack s.ring v, exec_dqPushBack_of_room hs ha (halloc ha) hroom v, rfl, hsize,
    stRead_pushedBack s.ring v, hempty, hfull⟩

/-- Settles O28: the check bounds the count, so the size does not wrap; the front cursor wraps at 2^32. -/
theorem dqPopFrontResult : Obligations.DqPopFrontResult := by
  intro k s hs
  refine ⟨rfl, exec_dqPopFront_of_lt hs, fun hk => ?_⟩
  have hfront : (poppedFront s.ring k).frontPos.toNat = (s.ring.frontPos.toNat + k.toNat) % 2 ^ 32 := by
    change (s.ring.frontPos + k.setWidth 32).toNat = _
    bv_omega
  exact ⟨poppedFront s.ring k, exec_dqPopFront_of_le hs hk, rfl, hfront, poppedFront_dqSize_toNat hk⟩

/-- Settles O29: DQ_FRONT reads at offset 0 from the front cursor, DQ_GET at any offset. -/
theorem dqFrontGetResult : Obligations.DqFrontGetResult := by
  intro off s hs hring
  have ⟨halloc, _⟩ := hring
  refine ⟨rfl, rfl, fun ha => ⟨exec_of_released rfl hs ha, exec_of_released rfl hs ha⟩, fun ha => ⟨?_, ?_⟩⟩
  · rw [exec_dqFront hs ha (halloc ha), effect, dequeIndex, BitVec.add_zero]
    rfl
  · exact exec_dqGet hs ha (halloc ha) off

/-- Settles O30: the three commands return the mask plus one, DQ_SIZE and the DQ_FULL flag. -/
theorem dqCapacitySizeFullResult : Obligations.DqCapacitySizeFullResult := by
  intro s hs hring
  refine ⟨rfl, rfl, rfl, ⟨_, exec_dqCapacity hs, rfl, toNat_mask_add_one hring⟩, exec_dqSize hs, ?_⟩
  rw [exec_dqFull hs, effect, setRes]
  split
  next h => rw [(dqFullFlag_iff s.ring).2 h]; rfl
  next h => rw [Bool.eq_false_iff.2 fun hflag => h ((dqFullFlag_iff s.ring).1 hflag)]; rfl

end Sys2Proof.Machine
end

section
/-! SUPPORT. The deque as a queue (41_cyclic_deque R138, R139): the refinement of a first-in first-out queue by the
ring, one DQ_ command at a time. -/
namespace Sys2Proof.Machine

/-! ### Positions of the live elements -/

theorem maskedIndex_eq_mod {r : Ring} (h : AllocatedInv r) (off : BitVec 32) :
    maskedIndex r off = r.pad.toNat + off.toNat % r.n.toNat := by
  obtain ⟨⟨k, -, hn⟩, hmask, -, -⟩ := h
  rw [maskedIndex, BitVec.toNat_and, hmask, hn, Nat.and_two_pow_sub_one_eq_mod]

/-- The ring size divides 2^32, so the wrap of the cursor does not show in the index. -/
theorem dequeIndex_ofNat {r : Ring} (h : AllocatedInv r) (j : Nat) :
    dequeIndex r (BitVec.ofNat 32 j) = r.pad.toNat + (r.frontPos.toNat + j) % r.n.toNat := by
  have hdvd : r.n.toNat ∣ 2 ^ 32 := by
    obtain ⟨⟨k, hk, hn⟩, -, -, -⟩ := h
    exact hn ▸ Nat.pow_dvd_pow 2 (by omega)
  rw [dequeIndex, maskedIndex_eq_mod h, BitVec.toNat_add, BitVec.toNat_ofNat, Nat.add_mod_mod,
    Nat.mod_mod_of_dvd _ hdvd]

/-- Offsets below the ring size reach different elements. -/
theorem dequeIndex_ofNat_ne {r : Ring} (h : AllocatedInv r) {i j : Nat} (hi : i < r.n.toNat) (hj : j < r.n.toNat)
    (hij : i ≠ j) : dequeIndex r (BitVec.ofNat 32 i) ≠ dequeIndex r (BitVec.ofNat 32 j) := by
  rw [dequeIndex_ofNat h, dequeIndex_ofNat h]
  intro heq
  have hmod : i ≡ j [MOD r.n.toNat] := Nat.ModEq.add_left_cancel' r.frontPos.toNat (Nat.add_left_cancel heq)
  exact hij (hmod.eq_of_lt_of_lt hi hj)

/-- The cursors' invariant says that CB_POS is the place behind the last live element (R139). -/
theorem dequeIndex_dqSize {r : Ring} (h : r.frontPos + r.dqSize.setWidth 32 = r.pos) :
    dequeIndex r (BitVec.ofNat 32 r.dqSize.toNat) = maskedIndex r r.pos := by
  rw [dequeIndex, BitVec.ofNat_toNat, h]

theorem dequeIndex_pushedBack (r : Ring) (v : Sample) (off : BitVec 32) :
    dequeIndex (pushedBack r v) off = dequeIndex r off := rfl

/-- After a pop, offset `j` is what offset `k + j` was. -/
theorem dequeIndex_poppedFront (r : Ring) (k : BitVec 24) (j : Nat) :
    dequeIndex (poppedFront r k) (BitVec.ofNat 32 j) = dequeIndex r (BitVec.ofNat 32 (k.toNat + j)) := by
  rw [dequeIndex, dequeIndex, BitVec.ofNat_add, BitVec.ofNat_toNat, ← BitVec.add_assoc]
  rfl

/-! ### The refinement -/

/-- The allocated ring holds the queue `q`: its cursors agree, and its live elements are those of `q`. -/
structure HoldsQueue (q : List Sample) (r : Ring) : Prop where
  alloc : r.alloc = true
  inv : AllocatedInv r
  cursors : r.frontPos + r.dqSize.setWidth 32 = r.pos
  live : liveElements r = q

theorem HoldsQueue.dequeInv {q : List Sample} {r : Ring} (h : HoldsQueue q r) : DequeInv r := by
  obtain ⟨-, ⟨-, -, hsize, -⟩, hcursors, -⟩ := h
  exact ⟨hcursors, hsize⟩

theorem holdsQueue_freshRing {n : BitVec 24} (hn : sizeLegal n = true) (pad : BitVec 8) :
    HoldsQueue [] (freshRing n pad) := by
  obtain ⟨halloc, -⟩ := ringInv_freshRing hn pad
  exact ⟨rfl, halloc rfl, rfl, rfl⟩

/-- The written element is behind the live ones, and with room it is none of them. -/
theorem liveElements_pushedBack {r : Ring} (h : AllocatedInv r) (hcursors : r.frontPos + r.dqSize.setWidth 32 = r.pos)
    (hroom : r.dqSize ≠ r.n) (v : Sample) : liveElements (pushedBack r v) = liveElements r ++ [v] := by
  have hlt := dqSize_lt_ringSize h hroom
  have hread (j : Nat) (hj : j ≤ r.dqSize.toNat) :
      stRead (pushedBack r v) (dequeIndex (pushedBack r v) (BitVec.ofNat 32 j)) =
        if j = r.dqSize.toNat then v else stRead r (dequeIndex r (BitVec.ofNat 32 j)) := by
    rw [dequeIndex_pushedBack, stRead_pushedBack, ← dequeIndex_dqSize hcursors]
    by_cases hlast : j = r.dqSize.toNat
    · rw [hlast, if_pos rfl, if_pos rfl]
    · rw [if_neg (dequeIndex_ofNat_ne h (by omega) hlt hlast), if_neg hlast]
  rw [liveElements, liveElements, pushedBack_dqSize_toNat h hroom, List.range_succ, List.map_append, List.map_singleton,
    hread _ le_rfl, if_pos rfl]
  congr 1
  refine List.map_congr_left fun j hj => ?_
  have hj := List.mem_range.1 hj
  rw [hread j hj.le, if_neg hj.ne]

theorem liveElements_poppedFront {r : Ring} {k : BitVec 24} (hk : k.toNat ≤ r.dqSize.toNat) :
    liveElements (poppedFront r k) = (liveElements r).drop k.toNat := by
  have hread (j : Nat) : stRead (poppedFront r k) (dequeIndex (poppedFront r k) (BitVec.ofNat 32 j)) =
      stRead r (dequeIndex r (BitVec.ofNat 32 (k.toNat + j))) := by
    rw [dequeIndex_poppedFront]
    rfl
  apply List.ext_getElem
  · simp [liveElements, poppedFront_dqSize_toNat hk]
  · intro j _ _
    simp [liveElements, hread]

theorem HoldsQueue.pushBack {q : List Sample} {r : Ring} (h : HoldsQueue q r) (hroom : r.dqSize ≠ r.n) (v : Sample) :
    HoldsQueue (q ++ [v]) (pushedBack r v) := by
  obtain ⟨ha, hinv, hcursors, hlive⟩ := h
  have hlt := dqSize_lt_ringSize hinv hroom
  have hle := allocated_ringSize_le hinv
  refine ⟨ha, allocatedInv_incSize (allocatedInv_pushElement hinv v) hroom, ?_, ?_⟩
  · change r.frontPos + (r.dqSize + 1#17).setWidth 32 = r.pos + 1#32
    bv_omega
  · rw [liveElements_pushedBack hinv hcursors hroom, hlive]

theorem HoldsQueue.popFront {q : List Sample} {r : Ring} (h : HoldsQueue q r) {k : BitVec 24}
    (hk : k.toNat ≤ r.dqSize.toNat) : HoldsQueue (q.drop k.toNat) (poppedFront r k) := by
  obtain ⟨ha, hinv, hcursors, hlive⟩ := h
  obtain ⟨halloc, -⟩ := ringInv_popFront (ringInv_of_allocated ha hinv) hk
  refine ⟨ha, halloc ha, ?_, ?_⟩
  · change r.frontPos + k.setWidth 32 + (r.dqSize - k.setWidth 17).setWidth 32 = r.pos
    bv_omega
  · rw [liveElements_poppedFront hk, hlive]

/-! ### One command, and any sequence of them -/

theorem next_unique {x : Result} {t u : State} (ht : x = .next t) (hu : x = .next u) : t = u :=
  Host.Outcome.next.inj (ht.symm.trans hu)

/-- A command whose effect leaves the ring alone leaves it alone. -/
theorem exec_next_ring {i : Instr} {s t : State} (heffect : (effect i s).ring = s.ring) (h : exec i s = .next t) :
    t.ring = s.ring :=
  exec_allNext (P := fun t => t.ring = s.ring) rfl (fun _ => rfl) heffect t h

/-- The commuting square of R138: unless it faults, a DQ_ command does to the ring what it does to the queue. -/
theorem HoldsQueue.after_exec {q : List Sample} {i : Instr} {s t : State} (hq : HoldsQueue q s.ring)
    (hi : isDequeCommand i = true) (hs : faulted s = false) (h : exec i s = .next t) (ht : faulted t = false) :
    HoldsQueue (queueStep q i) t.ring := by
  cases i with
  | dqPushBack v =>
    by_cases hfull : s.ring.dqSize = s.ring.n
    · obtain rfl := next_unique (exec_dqPushBack_of_full hs hq.alloc hfull v) h
      simp at ht
    · obtain rfl := next_unique (exec_dqPushBack_of_room hs hq.alloc hq.inv hfull v) h
      exact hq.pushBack hfull v
  | dqPopFront k =>
    rcases Nat.lt_or_ge s.ring.dqSize.toNat k.toNat with hk | hk
    · obtain rfl := next_unique (exec_dqPopFront_of_lt hs hk) h
      simp at ht
    · obtain rfl := next_unique (exec_dqPopFront_of_le hs hk) h
      exact hq.popFront hk
  | dqFront | dqGet | dqCapacity | dqSize | dqFull => rw [exec_next_ring rfl h]; exact hq
  | _ => exact absurd hi Bool.false_ne_true

theorem execAll_cons_next {i : Instr} {is : List Instr} {s t : State} (h : execAll (i :: is) s = .next t) :
    ∃ u, exec i s = .next u ∧ execAll is u = .next t := by
  rw [execAll] at h
  cases hi : exec i s with
  | next u => exact ⟨u, rfl, by simpa only [hi] using h⟩
  | fault f => rw [hi] at h; nomatch h
  | refused r => rw [hi] at h; nomatch h

/-- A fault taken on the way would still stand at the end, so the square holds at every command of the sequence. -/
theorem holdsQueue_after_execAll {is : List Instr} (his : ∀ i ∈ is, isDequeCommand i = true) {q : List Sample}
    {s t : State} (hq : faulted s = false → HoldsQueue q s.ring) (h : execAll is s = .next t) (ht : faulted t = false) :
    HoldsQueue (is.foldl queueStep q) t.ring := by
  induction is generalizing q s with
  | nil =>
    obtain rfl := Host.Outcome.next.inj h
    exact hq ht
  | cons i is ih =>
    obtain ⟨hi, his⟩ := List.forall_mem_cons.1 his
    obtain ⟨u, hu, h⟩ := execAll_cons_next h
    refine ih his (fun hclear => ?_) h
    cases hs : faulted s with
    | false => exact (hq hs).after_exec hi hs hu hclear
    | true =>
      obtain rfl := next_unique (exec_deque_of_faulted hi hs) hu
      rw [hs] at hclear
      nomatch hclear

/-- Settles O31: CB_RESIZE leaves the empty queue, and the commands after it keep the refinement. -/
theorem dequeIsFifo : Obligations.DequeIsFifo := by
  intro n pad is s t hs hn his h ht
  obtain ⟨u, hu, h⟩ := execAll_cons_next h
  have hlegal : sizeLegal n = true := (sizeLegal_iff n).2 hn
  obtain rfl := next_unique (exec_cbResize_of_legal hs hlegal pad) hu
  have hq := holdsQueue_after_execAll his (fun _ => holdsQueue_freshRing hlegal pad) h ht
  exact ⟨hq.live, hq.dequeInv⟩

end Sys2Proof.Machine
end

section
/-! SUPPORT. What the commands of the bit model answer in a block that is not faulted (42_bit_model R148 to R153):
their effect, and ModelUninit for a BM_ command while MT_VALID = 0. -/
namespace Sys2Proof.Machine

/-! ### The gates and the commands behind them -/

theorem requireModel_of_valid {i : Instr} {s : State} (hv : s.mtValid = true) (k : Result) :
    requireModel i s k = k := by rw [requireModel, hv, require_true]

theorem requireModel_of_uninit {i : Instr} {s : State} (hv : s.mtValid = false) (k : Result) :
    requireModel i s k = .next (raise .modelUninit i s) := by rw [requireModel, hv, require_false]

/-- Without a model every command that needs one, and no MODE before it, raises ModelUninit. -/
theorem exec_of_uninit {i : Instr} {s : State} (hi : needsModel i = true) (hmode : neededMode i = none)
    (hs : faulted s = false) (hv : s.mtValid = false) : exec i s = .next (raise .modelUninit i s) := by
  have hgate (k : Result) : unlessFaulted s (requireModel i s k) = .next (raise .modelUninit i s) := by
    rw [unlessFaulted_of_clear hs, requireModel_of_uninit hv]
  cases i with
  | bmInit | bmGetp | bmUpdate => exact hgate _
  | cxEncRes | cxDecRes | cxEncFrame | cxDecFrame => exact absurd hmode (Option.some_ne_none _)
  | _ => exact absurd hi Bool.false_ne_true

theorem exec_mtInit {s : State} (hs : faulted s = false) : exec .mtInit s = .next (effect .mtInit s) := by
  rw [exec, execMtInit, unlessFaulted_of_clear hs, effect]

section
variable {s : State} (hs : faulted s = false) (hv : s.mtValid = true)
include hs hv

theorem exec_bmInit_of_valid (idx : BitVec 16) :
    exec (.bmInit idx) s = .next (effect (.bmInit idx) s) := by
  rw [exec, execBmInit, unlessFaulted_of_clear hs, requireModel_of_valid hv, effect]

theorem exec_bmGetp_of_valid (idx : BitVec 16) :
    exec (.bmGetp idx) s = .next (effect (.bmGetp idx) s) := by
  rw [exec, execBmGetp, unlessFaulted_of_clear hs, requireModel_of_valid hv, effect]

theorem exec_bmUpdate_of_valid (idx : BitVec 16) (bit : Bool) :
    exec (.bmUpdate idx bit) s = .next (effect (.bmUpdate idx bit) s) := by
  rw [exec, execBmUpdate, unlessFaulted_of_clear hs, requireModel_of_valid hv, effect]

end

/-! ### The entry an update writes -/

theorem updateClamped_false (clamp p : Nat) : updateClamped clamp p false = min (p + (4096 - p) / 512) clamp := rfl

theorem update_eq_ite (p : Nat) (bit : Bool) :
    update p bit = if bit then p - p / 512 else min (p + (4096 - p) / 512) 4095 := rfl

/-- An updated entry fits its 13 bits: a 1 lowers it, a 0 leaves it at most at the clamp. -/
theorem update_lt_entrySize {p : Nat} (hp : p < 2 ^ 13) (bit : Bool) : update p bit < 2 ^ 13 := by
  cases bit with
  | false => rw [update_false]; omega
  | true => rw [update_true]; omega

theorem mtRead_mtUpdate_same_toNat (s : State) (i : Nat) (bit : Bool) :
    (mtRead (mtUpdate s i bit) i).toNat = update (mtRead s i).toNat bit := by
  rw [mtRead_mtUpdate, if_pos rfl, BitVec.toNat_ofNat, Nat.mod_eq_of_lt (update_lt_entrySize (mtRead s i).isLt bit)]

theorem mtRead_mtUpdate_other (s : State) {i j : Nat} (hne : j ≠ i) (bit : Bool) :
    mtRead (mtUpdate s i bit) j = mtRead s j := by
  rw [mtRead_mtUpdate, if_neg hne]

/-! ### Runs of equal bits -/

/-- While the quotient by 512 is `k`, each 1 lowers the probability by `k`: `n` bits in a row, the last of them
still at or above `512 * k`. -/
theorem iterate_update_true_of_quotient {k n p : Nat} (hhigh : p < 512 * (k + 1)) (hlow : 512 * k + n * k ≤ p + k) :
    (fun p => update p true)^[n] p = p - n * k := by
  induction n generalizing p with
  | zero => rw [Function.iterate_zero_apply, Nat.zero_mul, Nat.sub_zero]
  | succ n ih =>
    have hmul : (n + 1) * k = n * k + k := Nat.succ_mul n k
    have hquot : p / 512 = k := Nat.div_eq_of_lt_le (by omega) (by omega)
    have hstep : update p true = p - k := by rw [update_true, hquot]
    rw [Function.iterate_succ_apply, hstep, ih (by omega) (by omega), hmul]
    omega

/-- From 2048 down to 512: one step of 4, 170 of 3, 256 of 2, 510 of 1. -/
theorem iterate_update_true_937 : (fun p => update p true)^[937] 2048 = 512 := by
  have hfours : (fun p => update p true)^[1] 2048 = 2044 :=
    iterate_update_true_of_quotient (k := 4) (by decide) (by decide)
  have hthrees : (fun p => update p true)^[170] 2044 = 1534 :=
    iterate_update_true_of_quotient (k := 3) (by decide) (by decide)
  have htwos : (fun p => update p true)^[256] 1534 = 1022 :=
    iterate_update_true_of_quotient (k := 2) (by decide) (by decide)
  have hones : (fun p => update p true)^[510] 1022 = 512 :=
    iterate_update_true_of_quotient (k := 1) (by decide) (by decide)
  rw [show 937 = 510 + (256 + (170 + 1)) from rfl, Function.iterate_add_apply, Function.iterate_add_apply,
    Function.iterate_add_apply, hfours, hthrees, htwos, hones]

theorem iterate_update_true_938 : (fun p => update p true)^[938] 2048 = 511 := by
  rw [Function.iterate_succ_apply', iterate_update_true_937, update_true]

/-- Exchanging the bits mirrors the range around 2048. -/
theorem update_false_mirror {p : Nat} (h : 511 ≤ p ∧ p ≤ 3585) : update (4096 - p) false = 4096 - update p true := by
  rw [update_false, update_true]
  omega

theorem iterate_update_false_mirror (n : Nat) {p : Nat} (h : 511 ≤ p ∧ p ≤ 3585) :
    (fun p => update p false)^[n] (4096 - p) = 4096 - (fun p => update p true)^[n] p := by
  induction n generalizing p with
  | zero => rfl
  | succ n ih =>
    rw [Function.iterate_succ_apply, Function.iterate_succ_apply, update_false_mirror h, ih (update_bounded h true)]

/-! ### The statements -/

/-- Settles O33: the two gates, then a read, or a write of one entry that fits its 13 bits. -/
theorem bmGetpUpdateResult : Obligations.BmGetpUpdateResult := by
  intro idx bit s hs
  refine ⟨rfl, by cases bit <;> rfl, fun hv => ⟨exec_of_uninit rfl rfl hs hv, exec_of_uninit rfl rfl hs hv⟩,
    fun hv => ⟨exec_bmGetp_of_valid hs hv idx, (mtUpdate s idx.toNat bit).mt, exec_bmUpdate_of_valid hs hv idx bit,
      fun j hne => mtRead_mtUpdate_other s hne bit, ?_⟩⟩
  rw [← update_eq_ite]
  exact mtRead_mtUpdate_same_toNat s idx.toNat bit

/-- Settles O34: the 1s are followed step by step, the 0s are their mirror image. -/
theorem updateStaysInBounds : Obligations.UpdateStaysInBounds := by
  have hmirror (n : Nat) : (fun p => update p false)^[n] 2048 = 4096 - (fun p => update p true)^[n] 2048 :=
    iterate_update_false_mirror n (p := 2048) (by decide)
  refine ⟨fun _ bit hlow hhigh => update_bounded ⟨hlow, hhigh⟩ bit, rfl, rfl, ?_, ?_, iterate_update_true_938, ?_⟩
  · rw [hmirror, iterate_update_true_938]
  · rw [hmirror, iterate_update_true_937]; decide
  · rw [iterate_update_true_937]; decide

/-- Settles O32: both commands write 2048, what an unlisted entry reads as. -/
theorem mtInitBmInitResult : Obligations.MtInitBmInitResult := fun idx s hs =>
  ⟨rfl, rfl,
    ⟨_, exec_mtInit hs, fun j hj =>
      (Memory.read_fill mtDefault (BitVec.ofNat 13 Config.pInit) Config.tableSize j).trans (if_pos hj)⟩,
    exec_of_uninit rfl rfl hs,
    fun hv => ⟨_, exec_bmInit_of_valid hs hv idx, fun j =>
      mtRead_mtWrite s idx.toNat j (BitVec.ofNat 13 Config.pInit)⟩⟩

/-- Settles O35: inside the range a 0 never leads above 3585, and at 3585, its fixed point, a smaller clamp shows. -/
theorem clampUnobservable : Obligations.ClampUnobservable := by
  refine ⟨fun clamp p hclamp _ _ hhigh => ?_, fun clamp hclamp => ⟨3585, by decide, le_rfl, ?_⟩⟩
  · have hbound : p + (4096 - p) / 512 ≤ clamp := by omega
    rw [updateClamped_false, Nat.min_eq_left hbound]
  · have hfixed : 3585 + (4096 - 3585) / 512 = 3585 := rfl
    rw [updateClamped_false, hfixed, Nat.min_eq_right hclamp.le]
    exact hclamp.ne

end Sys2Proof.Machine
end

section
/-! SUPPORT. The RC_ commands behind their gates (43_range_coder R167 to R173, 60_exceptions R229, R231), and what
needs no more than that: the two gates, the partition, the fresh encoder, the interval updates written out and the
carry invariants. -/
namespace Sys2Proof.Machine

/-! ### Gates -/

/-- A command that needs another MODE raises BadMode before any other check (60_exceptions R229, R238). -/
theorem exec_of_wrongMode {i : Instr} {m : Mode} {s : State} (hi : neededMode i = some m) (hs : faulted s = false)
    (hm : s.mode ≠ m) : exec i s = .next (raise .badMode i s) := by
  have hgate (k : Result) : unlessFaulted s (requireMode m i s k) = .next (raise .badMode i s) := by
    rw [unlessFaulted_of_clear hs, requireMode, beq_eq_false_iff_ne.2 hm, require_false]
  cases i with
  | rcEnc | rcEncDirect | rcFlush | cxEncRes | cxEncFrame | rcDec | rcDecDirect | cxDecRes | cxDecFrame =>
    obtain rfl := Option.some.inj hi
    exact hgate _
  | _ => exact absurd hi.symm (Option.some_ne_none m)

theorem requireMode_of_eq {m : Mode} {i : Instr} {s : State} (hm : s.mode = m) (k : Result) :
    requireMode m i s k = k := by rw [requireMode, beq_iff_eq.2 hm, require_true]

/-- The probabilities RC_ENC and RC_DEC do not accept (60_exceptions R231). -/
theorem probLegal_eq_false {p : Prob} (h : p.toNat = 0 ∨ 4095 < p.toNat) : probLegal p = false :=
  Bool.eq_false_iff.2 fun hp => by
    have := (probLegal_iff p).1 hp
    omega

section
variable {s : State} (hs : faulted s = false)
include hs

theorem exec_rcInitEnc : exec .rcInitEnc s = .next (effect .rcInitEnc s) := by
  rw [exec, execRcInitEnc, unlessFaulted_of_clear hs, effect]

theorem exec_rcInitDec : exec .rcInitDec s = .next (effect .rcInitDec s) := by
  rw [exec, execRcInitDec_eq, unlessFaulted_of_clear hs, effect]

theorem exec_rcEnc_of_legal (hm : s.mode = .enc) {p : Prob} (hp : 1 ≤ p.toNat ∧ p.toNat ≤ 4095) (bit : Bool) :
    exec (.rcEnc p bit) s = .next (effect (.rcEnc p bit) s) := by
  rw [exec, execRcEnc, unlessFaulted_of_clear hs, requireMode_of_eq hm, (probLegal_iff p).2 hp, require_true, effect]

theorem exec_rcEnc_of_not_legal (hm : s.mode = .enc) {p : Prob} (hp : p.toNat = 0 ∨ 4095 < p.toNat) (bit : Bool) :
    exec (.rcEnc p bit) s = .next (raise .badOperand (.rcEnc p bit) s) := by
  rw [exec, execRcEnc, unlessFaulted_of_clear hs, requireMode_of_eq hm, probLegal_eq_false hp, require_false]

theorem exec_rcEncDirect (hm : s.mode = .enc) (bit : Bool) :
    exec (.rcEncDirect bit) s = .next (effect (.rcEncDirect bit) s) := by
  rw [exec, execRcEncDirect, unlessFaulted_of_clear hs, requireMode_of_eq hm, effect]

theorem exec_rcDec_of_legal (hm : s.mode = .dec) {p : Prob} (hp : 1 ≤ p.toNat ∧ p.toNat ≤ 4095) :
    exec (.rcDec p) s = .next (effect (.rcDec p) s) := by
  rw [exec, execRcDec, unlessFaulted_of_clear hs, requireMode_of_eq hm, (probLegal_iff p).2 hp, require_true, effect]

theorem exec_rcDec_of_not_legal (hm : s.mode = .dec) {p : Prob} (hp : p.toNat = 0 ∨ 4095 < p.toNat) :
    exec (.rcDec p) s = .next (raise .badOperand (.rcDec p) s) := by
  rw [exec, execRcDec, unlessFaulted_of_clear hs, requireMode_of_eq hm, probLegal_eq_false hp, require_false]

theorem exec_rcDecDirect (hm : s.mode = .dec) : exec .rcDecDirect s = .next (effect .rcDecDirect s) := by
  rw [exec, execRcDecDirect, unlessFaulted_of_clear hs, requireMode_of_eq hm, effect]

theorem exec_rcFlush (hm : s.mode = .enc) : exec .rcFlush s = .next (effect .rcFlush s) := by
  rw [exec, execRcFlush, unlessFaulted_of_clear hs, requireMode_of_eq hm, effect]

end

/-! ### The statements -/

/-- Settles O36: the effect of RC_INIT_ENC is the fresh coder, the sink's count and MODE. -/
theorem rcInitEncResult : Obligations.RcInitEncResult := fun _ hs => ⟨rfl, exec_rcInitEnc hs⟩

/-- Settles O38: the partition's bounds of R166, with the product written out. -/
theorem partitionBounds : Obligations.PartitionBounds := by
  intro range p hrange hlow hhigh
  obtain ⟨hmid, hrest⟩ := partition_bounds hrange ⟨hlow, hhigh⟩
  exact ⟨rfl, hmid, by omega, by omega⟩

/-- Settles O39: the gates in order, then the interval update of either bit value. -/
theorem rcEncResult : Obligations.RcEncResult := by
  intro p bit s hs
  refine ⟨by cases bit <;> rfl, by cases bit <;> rfl,
    fun hm => ⟨exec_of_wrongMode rfl hs hm, exec_of_wrongMode rfl hs hm⟩,
    fun hm hp => exec_rcEnc_of_not_legal hs hm hp bit, fun hm hlow hhigh => ?_, fun hm => ?_⟩
  · rw [exec_rcEnc_of_legal hs hm ⟨hlow, hhigh⟩]
    cases bit <;> rfl
  · rw [exec_rcEncDirect hs hm]
    cases bit <;> rfl

/-- Settles O41: every command keeps the machine invariant, which in MODE = ENC holds R175. -/
theorem carryInvariantsHold : Obligations.CarryInvariantsHold := by
  intro i s t hinv ht hm
  obtain ⟨-, hcoder, -, -⟩ := exec_keepsInv hinv i t ht
  rw [hm] at hcoder
  obtain ⟨-, ⟨hsum, hcarry, hheld, hroom⟩, -⟩ := (coderInv_enc_iff t.rc).1 hcoder
  refine ⟨hsum, hcarry, hheld, fun hv => ⟨Bool.eq_false_iff.2 fun hc => ?_, hroom (.inl hv)⟩⟩
  obtain ⟨hvalid, -⟩ := hheld hc
  exact Bool.false_ne_true (hv.symm.trans hvalid)

end Sys2Proof.Machine
end

section
/-! SUPPORT. Octet sequences as big-endian numbers, and the cut of the interval by one coding step as plain arithmetic
on RANGE (43_range_coder R161, R166, R169 to R172): encoder and decoder are both tied to it below. -/
namespace Sys2Proof.Machine

/-! ### Big-endian numbers -/

theorem bigEndian_append (xs ys : List Octet) :
    bigEndian (xs ++ ys) = bigEndian xs * 256 ^ ys.length + bigEndian ys := by
  induction xs with
  | nil => simp [bigEndian]
  | cons o xs ih =>
    simp only [List.cons_append, bigEndian, ih, List.length_append]
    ring

theorem bigEndian_singleton (o : Octet) : bigEndian [o] = o.toNat := by simp [bigEndian]

theorem bigEndian_lt (xs : List Octet) : bigEndian xs < 256 ^ xs.length := by
  induction xs with
  | nil => simp [bigEndian]
  | cons o xs ih =>
    have hhead : o.toNat * 256 ^ xs.length ≤ 255 * 256 ^ xs.length :=
      Nat.mul_le_mul_right _ (Nat.le_of_lt_succ o.isLt)
    rw [bigEndian, List.length_cons, Nat.pow_succ]
    omega

theorem bigEndian_replicate_zero (n : Nat) : bigEndian (List.replicate n 0#8) = 0 := by
  induction n with
  | zero => rfl
  | succ n ih => simp [List.replicate_succ, bigEndian, ih]

theorem bigEndian_replicate_FF (n : Nat) : bigEndian (List.replicate n 0xFF#8) + 1 = 256 ^ n := by
  induction n with
  | zero => rfl
  | succ n ih =>
    rw [List.replicate_succ, bigEndian, List.length_replicate, Nat.add_assoc, ih, Nat.pow_succ,
      show (0xFF#8).toNat = 255 from rfl]
    omega

/-! ### One coding step as arithmetic on RANGE -/

/-- Where a step cuts a RANGE of `r` (R161; the halved RANGE of R170). -/
def stepCut (r : Nat) : CodeStep → Nat
  | .modelled p _ => r / 4096 * p.toNat
  | .direct _ => r / 2

/-- The part of the interval that stands for `bit`. A direct bit takes half of it, and an odd RANGE loses its last
unit (R170). -/
def stepPart (r : Nat) (bit : Bool) : CodeStep → Nat
  | .modelled p _ => if bit then r - r / 4096 * p.toNat else r / 4096 * p.toNat
  | .direct _ => r / 2

/-- How far the lower end moves up for `bit`. -/
def stepOffset (r : Nat) (bit : Bool) (x : CodeStep) : Nat := if bit then stepCut r x else 0

theorem stepPart_false (r : Nat) (x : CodeStep) : stepPart r false x = stepCut r x := by cases x <;> rfl

theorem partition_eq_stepCut (range : BitVec 32) (p : Prob) (bit : Bool) :
    partition range p.toNat = stepCut range.toNat (.modelled p bit) := rfl

theorem stepPart_direct_bounds {r : Nat} (hr : Config.normThreshold ≤ r) (bit b : Bool) :
    65536 ≤ stepPart r bit (.direct b) ∧ stepOffset r bit (.direct b) + stepPart r bit (.direct b) ≤ r := by
  have hthreshold : 16777216 ≤ r := hr
  cases bit <;> simp only [stepOffset, stepPart, stepCut, if_true, Bool.false_eq_true, if_false] <;> omega

/-- Either part lies in the interval and holds at least 2^12 (R166). -/
theorem stepPart_bounds {range : BitVec 32} (hr : Config.normThreshold ≤ range.toNat) {x : CodeStep} (hx : x.legal)
    (bit : Bool) : 4096 ≤ stepPart range.toNat bit x ∧
      stepOffset range.toNat bit x + stepPart range.toNat bit x ≤ range.toNat := by
  cases x with
  | direct b =>
    obtain ⟨hlow, hhigh⟩ := stepPart_direct_bounds hr bit b
    exact ⟨by omega, hhigh⟩
  | modelled p b =>
    have hbounds := partition_bounds hr hx
    rw [partition_eq_stepCut range p b] at hbounds
    cases bit <;> simp only [stepOffset, stepPart, stepCut, if_true, Bool.false_eq_true, if_false] at hbounds ⊢ <;>
      omega

/-! ### Normalisation as arithmetic on RANGE -/

/-- The octet shifts that bring a RANGE of at least 2^8 up to 2^24 (R166). -/
def normShifts (r : Nat) : Nat := if 16777216 ≤ r then 0 else if 65536 ≤ r then 1 else 2

theorem normShifts_le_two (r : Nat) : normShifts r ≤ 2 := by unfold normShifts; split_ifs <;> omega

theorem normShifts_le_one {r : Nat} (h : 65536 ≤ r) : normShifts r ≤ 1 := by
  rw [normShifts, if_pos h]; split <;> omega

theorem normShifts_of_normal {r : Nat} (h : Config.normThreshold ≤ r) : normShifts r = 0 := if_pos h

theorem normShifts_of_lt {r : Nat} (h : r < Config.normThreshold) (hlow : 256 ≤ r) :
    normShifts r = normShifts (r * 256) + 1 := by
  have hthreshold : r < 16777216 := h
  unfold normShifts
  split_ifs <;> omega

/-- RANGE as the normalisation leaves it. -/
def normRange (r : Nat) : Nat := r * 256 ^ normShifts r

theorem normRange_bounds {r : Nat} (hlow : 256 ≤ r) (hlt : r < 2 ^ 32) :
    Config.normThreshold ≤ normRange r ∧ normRange r < 2 ^ 32 := by
  unfold normRange normShifts
  rw [show Config.normThreshold = 16777216 from rfl]
  split_ifs <;> omega

/-- A loop that turns while RANGE is below 2^24, each turn shifting RANGE by an octet, turns `normShifts` times. Both
normalisation loops are of this kind (R163, R165). -/
theorem normLoop_eq_iterate {turn : State → State} {loop : Nat → State → State}
    (hturn : ∀ s, (turn s).rc.range = s.rc.range <<< 8) (hzero : ∀ s, loop 0 s = s)
    (hsucc : ∀ n s, loop (n + 1) s = if s.rc.range.toNat < Config.normThreshold then loop n (turn s) else s)
    (n : Nat) {s : State} (hlow : 256 ≤ s.rc.range.toNat) (hn : normShifts s.rc.range.toNat ≤ n) :
    loop n s = turn^[normShifts s.rc.range.toNat] s := by
  induction n generalizing s with
  | zero => rw [Nat.le_zero.1 hn, hzero, Function.iterate_zero_apply]
  | succ n ih =>
    rw [hsucc]
    split
    next hlt =>
      have hrange : (turn s).rc.range.toNat = s.rc.range.toNat * 256 := by
        rw [hturn]; exact toNat_shiftRange hlt
      have hshifts := normShifts_of_lt hlt hlow
      rw [← hrange] at hshifts
      rw [hshifts, Function.iterate_succ_apply]
      exact ih (by omega) (by omega)
    next hge => rw [normShifts_of_normal (Nat.le_of_not_lt hge), Function.iterate_zero_apply]

/-- What the turns of a normalisation loop leave in RANGE. -/
theorem iterate_turn_range {turn : State → State} (hturn : ∀ s, (turn s).rc.range = s.rc.range <<< 8) {s : State}
    (hlow : 256 ≤ s.rc.range.toNat) :
    (turn^[normShifts s.rc.range.toNat] s).rc.range.toNat = normRange s.rc.range.toNat := by
  have hmod (n : Nat) : (turn^[n] s).rc.range.toNat = s.rc.range.toNat * 256 ^ n % 2 ^ 32 := by
    induction n with
    | zero => rw [Nat.pow_zero, Nat.mul_one, Nat.mod_eq_of_lt s.rc.range.isLt, Function.iterate_zero_apply]
    | succ n ih =>
      rw [Function.iterate_succ_apply', hturn, BitVec.toNat_shiftLeft, ih, Nat.shiftLeft_eq, Nat.mod_mul_mod,
        Nat.mul_assoc, ← Nat.pow_succ]
  rw [hmod]
  exact Nat.mod_eq_of_lt (normRange_bounds hlow s.rc.range.isLt).2

end Sys2Proof.Machine
end

section
/-! SUPPORT. The encoder as arithmetic (43_range_coder R162, R163, R169, R170, R173, R174): each procedure multiplies
the number in the carry pipeline by 256 per octet shifted out and adds to it, and moves octets from the pipeline to
the sink, whatever is kept back. -/
namespace Sys2Proof.Machine

/-- The number `X` of R174, for `out` written before the octets kept back. -/
def pipelineNumber (out : List Octet) (c : Coder) : Nat :=
  (bigEndian (out ++ keptOctets c) + c.carry.toNat) * 2 ^ 32 + c.low.toNat

theorem exactLow_eq (s : State) : exactLow s = pipelineNumber s.io.sink s.rc := rfl

theorem pipelineNumber_append (xs ys : List Octet) (c : Coder) : pipelineNumber (xs ++ ys) c =
    bigEndian xs * 256 ^ (ys.length + (keptOctets c).length) * 2 ^ 32 + pipelineNumber ys c := by
  unfold pipelineNumber
  rw [List.append_assoc, bigEndian_append xs, List.length_append]
  ring

/-- From `s` to `t` the encoder writes `out`, shifts `shifts` octets out of LOW and, in units of the shifted number,
adds `gain`; it changes nothing but the carry pipeline, RANGE and the sink. -/
structure Encodes (s t : State) (out : List Octet) (shifts gain : Nat) : Prop where
  frame : t = { s with rc := t.rc, io := { s.io with sink := s.io.sink ++ out } }
  code : t.rc.code = s.rc.code
  srcCount : t.rc.srcCount = s.rc.srcCount
  srcEof : t.rc.srcEof = s.rc.srcEof
  snkCount : t.rc.snkCount = s.rc.snkCount + BitVec.ofNat 32 out.length
  length : out.length + (keptOctets t.rc).length = (keptOctets s.rc).length + shifts
  number : pipelineNumber out t.rc = pipelineNumber [] s.rc * 256 ^ shifts + gain

theorem Encodes.refl (s : State) : Encodes s s [] 0 0 where
  frame := by simp
  code := rfl
  srcCount := rfl
  srcEof := rfl
  snkCount := by simp
  length := by simp
  number := by simp

theorem Encodes.trans {s t u : State} {out₁ out₂ : List Octet} {n₁ n₂ x₁ x₂ : Nat} (h : Encodes s t out₁ n₁ x₁)
    (k : Encodes t u out₂ n₂ x₂) : Encodes s u (out₁ ++ out₂) (n₁ + n₂) (x₁ * 256 ^ n₂ + x₂) where
  frame := by
    rw [k.frame, h.frame]
    simp
  code := k.code.trans h.code
  srcCount := k.srcCount.trans h.srcCount
  srcEof := k.srcEof.trans h.srcEof
  snkCount := by
    rw [k.snkCount, h.snkCount, List.length_append, BitVec.add_assoc, BitVec.ofNat_add]
  length := by
    have hlen := h.length
    have klen := k.length
    rw [List.length_append]
    omega
  number := by
    have hsplit := pipelineNumber_append out₁ [] t.rc
    rw [List.append_nil, List.length_nil, Nat.zero_add, h.number] at hsplit
    rw [pipelineNumber_append, k.length, k.number]
    calc bigEndian out₁ * 256 ^ ((keptOctets t.rc).length + n₂) * 2 ^ 32 +
          (pipelineNumber [] t.rc * 256 ^ n₂ + x₂)
        = (bigEndian out₁ * 256 ^ (keptOctets t.rc).length * 2 ^ 32 + pipelineNumber [] t.rc) * 256 ^ n₂ + x₂ := by
          ring
      _ = pipelineNumber [] s.rc * 256 ^ (n₁ + n₂) + (x₁ * 256 ^ n₂ + x₂) := by rw [← hsplit]; ring

/-- Octets written before `s` do not matter: what R174 says of the exact low end. -/
theorem Encodes.exactLow {s t : State} {out : List Octet} {n x : Nat} (h : Encodes s t out n x) :
    exactLow t = Machine.exactLow s * 256 ^ n + x := by
  have hs := pipelineNumber_append s.io.sink [] s.rc
  rw [List.append_nil, List.length_nil, Nat.zero_add] at hs
  have ht := pipelineNumber_append s.io.sink out t.rc
  rw [h.length, h.number] at ht
  have hsink : t.io.sink = s.io.sink ++ out := by rw [h.frame]
  rw [exactLow_eq, exactLow_eq, hsink, ht, hs]
  ring

/-! ### The registers an interval update writes -/

theorem encodes_setRange (x : Nat) (s : State) : Encodes s (setRange x s) [] 0 0 :=
  { Encodes.refl s with frame := by simp [setRange] }

theorem Encodes.setRange {s t : State} {out : List Octet} {n x : Nat} (h : Encodes s t out n x) (y : Nat) :
    Encodes s (setRange y t) out n x := by simpa using h.trans (encodes_setRange y t)

theorem Encodes.shiftRange {s t : State} {out : List Octet} {n x : Nat} (h : Encodes s t out n x) :
    Encodes s (shiftRange t) out n x := by
  have hshift : Encodes t (Machine.shiftRange t) [] 0 0 := { Encodes.refl t with frame := by simp [Machine.shiftRange] }
  simpa using h.trans hshift

/-- An addition to LOW is exact as long as it does not pass 2^32 while a carry is pending (R174, R175 (b)). -/
theorem encodes_addToLow {s : State} {x : Nat} (hx : x < 2 ^ 32)
    (hcarry : s.rc.carry = true → s.rc.low.toNat + x < 2 ^ 32) : Encodes s (addToLow x s) [] 0 x where
  frame := by simp [addToLow]
  code := rfl
  srcCount := rfl
  srcEof := rfl
  snkCount := by simp
  length := Nat.zero_add _
  number := by
    have hlt := s.rc.low.isLt
    have hkept : keptOctets (addToLow x s).rc = keptOctets s.rc := rfl
    have hsum : (addToLow x s).rc.carry.toNat * 2 ^ 32 + (addToLow x s).rc.low.toNat =
        s.rc.carry.toNat * 2 ^ 32 + s.rc.low.toNat + x := by
      simp only [addToLow_rc, BitVec.toNat_ofNat]
      by_cases hover : 2 ^ 32 ≤ s.rc.low.toNat + x
      · have hc : s.rc.carry = false := Bool.eq_false_iff.2 fun hc => by
          have := hcarry hc
          omega
        simp only [hc, hover, decide_true, Bool.or_true, Bool.toNat_true, Bool.toNat_false]
        omega
      · simp only [hover, decide_false, Bool.or_false]
        omega
    rw [pipelineNumber, pipelineNumber, hkept]
    linarith

/-! ### The carry pipeline -/

/-- A pending carry fits the octet kept back (R175 (c)). -/
def CarryFits (c : Coder) : Prop := c.carry = true → c.heldValid = true ∧ c.held.toNat ≤ 0xFE

theorem carryFits_of_carry_false {c : Coder} (h : c.carry = false) : CarryFits c :=
  fun hc => absurd (h.symm.trans hc) Bool.false_ne_true

theorem length_releasedOctets (c : Coder) : (releasedOctets c).length = (keptOctets c).length := by
  unfold releasedOctets keptOctets
  split <;> simp

/-- The released octets are the kept ones with the carry taken in: it turns the 0xFF run over and stops at HELD. -/
theorem bigEndian_releasedOctets {c : Coder} (h : CarryFits c) :
    bigEndian (releasedOctets c) = bigEndian (keptOctets c) + c.carry.toNat := by
  unfold releasedOctets keptOctets
  cases hc : c.carry with
  | false => simp
  | true =>
    obtain ⟨hvalid, hheld⟩ := h hc
    have hFF := bigEndian_replicate_FF c.ffRun
    have hinc : (c.held + 1#8).toNat = c.held.toNat + 1 := by bv_omega
    have hone : (BitVec.ofBool true).setWidth 8 = 1#8 := rfl
    rw [hvalid, if_pos rfl, if_pos rfl, hone, show 0xFF#8 + 1#8 = 0#8 from rfl, bigEndian_append, bigEndian_append,
      bigEndian_singleton, bigEndian_singleton, bigEndian_replicate_zero, hinc, List.length_replicate,
      List.length_replicate, Nat.add_mul, Bool.toNat_true]
    omega

theorem toNat_top_octet (low : BitVec 32) : (low.extractLsb' 24 8).toNat * 2 ^ 32 + (low <<< 8).toNat =
    low.toNat * 256 := by
  have hlt := low.isLt
  rw [BitVec.extractLsb'_toNat, BitVec.toNat_shiftLeft, Nat.shiftRight_eq_div_pow, Nat.shiftLeft_eq]
  omega

/-- The pipeline after `ShiftOut`: the octet counted, kept back behind the others or alone, is the top octet of LOW. -/
theorem encodes_shiftOut {s : State} (h : CarryFits s.rc) : ∃ out, Encodes s (shiftOut s) out 1 0 := by
  have htop := toNat_top_octet s.rc.low
  rcases shiftOut_cases s with ⟨-, heq⟩ | ⟨hno, heq⟩
  · refine ⟨releasedOctets s.rc, ?_⟩
    rw [heq]
    refine ⟨rfl, rfl, rfl, rfl, rfl, by simp [keptOctets, length_releasedOctets], ?_⟩
    simp only [pipelineNumber, keptOctets, if_true, List.replicate_zero, List.append_nil, List.nil_append]
    rw [bigEndian_append, bigEndian_releasedOctets h, bigEndian_singleton, keptOctets]
    simp only [List.length_singleton, Bool.toNat_false]
    linarith
  · obtain ⟨hlow, hcarry⟩ := not_or.1 hno
    have hc : s.rc.carry = false := Bool.eq_false_iff.2 hcarry
    have hFF : s.rc.low.extractLsb' 24 8 = 0xFF#8 := BitVec.eq_of_toNat_eq (by
      have hlt := s.rc.low.isLt
      rw [BitVec.extractLsb'_toNat, Nat.shiftRight_eq_div_pow, show (0xFF#8).toNat = 255 from rfl]
      omega)
    have hkept (c : Coder) : keptOctets { c with ffRun := c.ffRun + 1 } = keptOctets c ++ [0xFF#8] := by
      simp [keptOctets, List.replicate_succ']
    refine ⟨[], ?_⟩
    rw [heq]
    refine ⟨by simp, rfl, rfl, rfl, by simp, ?_, ?_⟩
    · exact (congrArg (0 + List.length ·) (hkept s.rc)).trans (by simp)
    · have hnext : keptOctets { s.rc with ffRun := s.rc.ffRun + 1, carry := false, low := s.rc.low <<< 8 } =
          keptOctets s.rc ++ [0xFF#8] := hkept s.rc
      rw [hFF] at htop
      rw [pipelineNumber, pipelineNumber, List.nil_append, List.nil_append, hnext, bigEndian_append,
        bigEndian_singleton, hc]
      simp only [List.length_singleton, Bool.toNat_false]
      have hoctet : (0xFF#8).toNat = 255 := rfl
      linarith

theorem encodes_shiftOutRun (n : Nat) {s : State} (h : CarryFits s.rc) :
    ∃ out, Encodes s (shiftOutRun n s) out n 0 := by
  induction n generalizing s with
  | zero => exact ⟨[], .refl s⟩
  | succ n ih =>
    obtain ⟨out₁, h₁⟩ := encodes_shiftOut h
    obtain ⟨out₂, h₂⟩ := ih (carryFits_of_carry_false (shiftOut_carry s))
    exact ⟨_, by simpa [shiftOutRun, Nat.add_comm] using h₁.trans h₂⟩

/-- One turn of the encoder's normalisation loop. -/
def encTurn (s : State) : State := shiftRange (shiftOut s)

theorem encTurn_range (s : State) : (encTurn s).rc.range = s.rc.range <<< 8 := by
  rw [encTurn, shiftRange_rc, shiftOut_range]

theorem encodes_iterate_encTurn (n : Nat) {s : State} (h : CarryFits s.rc) :
    ∃ out, Encodes s (encTurn^[n] s) out n 0 := by
  induction n generalizing s with
  | zero => exact ⟨[], .refl s⟩
  | succ n ih =>
    obtain ⟨out₁, h₁⟩ := encodes_shiftOut h
    obtain ⟨out₂, h₂⟩ := ih (s := encTurn s) (carryFits_of_carry_false (shiftOut_carry s))
    exact ⟨_, by simpa [Nat.add_comm] using h₁.shiftRange.trans h₂⟩

theorem encNormalize_eq_iterate {s : State} (h : 256 ≤ s.rc.range.toNat) :
    encNormalize s = encTurn^[normShifts s.rc.range.toNat] s :=
  normLoop_eq_iterate (loop := encNormalizeLoop) encTurn_range (fun _ => rfl) (fun _ _ => rfl) normBound h
    ((normShifts_le_two _).trans (by decide))

/-- `Drain` writes the kept octets and leaves none. -/
theorem encodes_drain (s : State) : Encodes s (drain s) (keptOctets s.rc) 0 0 := by
  have hlen : s.rc.heldValid.toNat + s.rc.ffRun = (keptOctets s.rc).length := by
    unfold keptOctets
    cases s.rc.heldValid <;> simp [Nat.add_comm]
  rw [drain_eq, hlen]
  exact ⟨rfl, rfl, rfl, rfl, rfl, by simp [keptOctets], by simp [pipelineNumber, keptOctets]⟩

/-! ### One encoding step -/

/-- The interval update of a step. -/
def encPart (x : CodeStep) (s : State) : State :=
  match x with
  | .modelled p bit => encInterval p.toNat bit s
  | .direct bit => encDirectInterval bit s

theorem effect_encCommand (x : CodeStep) (s : State) : effect (encCommand x) s = encNormalize (encPart x s) := by
  cases x <;> rfl

theorem exec_encCommand {x : CodeStep} (hx : x.legal) {s : State} (hs : faulted s = false) (hm : s.mode = .enc) :
    exec (encCommand x) s = .next (effect (encCommand x) s) := by
  cases x with
  | modelled p bit => exact exec_rcEnc_of_legal hs hm hx bit
  | direct bit => exact exec_rcEncDirect hs hm bit

theorem encReady_encPart {x : CodeStep} (hx : x.legal) {s : State} (h : CoderInv .enc s.rc) :
    EncReady (encPart x s).rc := by
  cases x with
  | modelled p bit => exact encReady_encInterval h hx bit
  | direct bit => exact encReady_encDirectInterval h bit

theorem coderInv_encCommand {x : CodeStep} (hx : x.legal) {s : State} (h : CoderInv .enc s.rc) :
    CoderInv .enc (effect (encCommand x) s).rc := by
  rw [effect_encCommand]
  exact coderInv_encNormalize (encReady_encPart hx h)

theorem encPart_range {x : CodeStep} (hx : x.legal) {s : State} (h : Config.normThreshold ≤ s.rc.range.toNat) :
    (encPart x s).rc.range.toNat = stepPart s.rc.range.toNat (stepBit x) x := by
  obtain ⟨-, hle⟩ := stepPart_bounds h hx (stepBit x)
  have hfit := toNat_ofNat_of_le_toNat (range := s.rc.range) (y := stepPart s.rc.range.toNat (stepBit x) x) (by omega)
  cases x with
  | modelled p bit => cases bit <;> exact hfit
  | direct bit => cases bit <;> exact hfit

/-- The interval update moves the low end up by the offset of the coded part and nothing else (R169, R170). -/
theorem encodes_encPart {x : CodeStep} (hx : x.legal) {s : State} (h : CoderInv .enc s.rc) :
    Encodes s (encPart x s) [] 0 (stepOffset s.rc.range.toNat (stepBit x) x) := by
  obtain ⟨hr, ⟨-, hcarry, -, -⟩, -⟩ := (coderInv_enc_iff s.rc).1 h
  obtain ⟨hpos, hle⟩ := stepPart_bounds hr hx (stepBit x)
  have hadd (t : State) (ht : t.rc.low = s.rc.low ∧ t.rc.carry = s.rc.carry) :
      Encodes t (addToLow (stepOffset s.rc.range.toNat (stepBit x) x) t) [] 0
        (stepOffset s.rc.range.toNat (stepBit x) x) := by
    obtain ⟨hlow, hc⟩ := ht
    have hrlt := s.rc.range.isLt
    refine encodes_addToLow (by omega) fun htrue => ?_
    have := hcarry (hc ▸ htrue)
    rw [hlow]
    omega
  cases x with
  | modelled p bit =>
    cases bit with
    | false => exact encodes_setRange _ s
    | true => exact (hadd s ⟨rfl, rfl⟩).setRange _
  | direct bit =>
    cases bit with
    | false => exact encodes_setRange _ s
    | true =>
      have h := (encodes_setRange (s.rc.range.toNat / 2) s).trans (hadd _ ⟨rfl, rfl⟩)
      simp only [Nat.zero_mul, Nat.zero_add] at h
      exact h

/-- One encoding step (R174): the offset of the coded part, then one factor 256 per normalisation shift. -/
theorem encodes_encCommand {x : CodeStep} (hx : x.legal) {s : State} (h : CoderInv .enc s.rc) :
    (∃ out, Encodes s (effect (encCommand x) s) out (normShifts (stepPart s.rc.range.toNat (stepBit x) x))
      (stepOffset s.rc.range.toNat (stepBit x) x * 256 ^ normShifts (stepPart s.rc.range.toNat (stepBit x) x))) ∧
    (effect (encCommand x) s).rc.range.toNat = normRange (stepPart s.rc.range.toNat (stepBit x) x) := by
  obtain ⟨hr, -, -⟩ := (coderInv_enc_iff s.rc).1 h
  obtain ⟨hpos, -⟩ := stepPart_bounds hr hx (stepBit x)
  obtain ⟨⟨-, -, hfits, -⟩, -, -⟩ := encReady_encPart hx h
  have hrange := encPart_range hx hr
  have hlow : 256 ≤ (encPart x s).rc.range.toNat := by omega
  rw [effect_encCommand, encNormalize_eq_iterate hlow, iterate_turn_range encTurn_range hlow, ← hrange]
  obtain ⟨out, hturns⟩ := encodes_iterate_encTurn (normShifts (encPart x s).rc.range.toNat) hfits
  exact ⟨⟨out, by simpa using (encodes_encPart hx h).trans hturns⟩, rfl⟩

/-- One encoding command as a next state: the same step in the terms of the exact low end (R174). -/
theorem exists_encodes_encCommand {x : CodeStep} (hx : x.legal) {s : State} (hs : faulted s = false) (hinv : Inv s)
    (hm : s.mode = .enc) {n : Nat} (hn : normShifts (stepPart s.rc.range.toNat (stepBit x) x) ≤ n) :
    ∃ (rc : Coder) (out : List Octet) (shifts : Nat), shifts ≤ n ∧
      exec (encCommand x) s = .next { s with rc := rc, io := { s.io with sink := s.io.sink ++ out } } ∧
      2 ^ 24 ≤ rc.range.toNat ∧
      rc.range.toNat = stepPart s.rc.range.toNat (stepBit x) x * 256 ^ shifts ∧
      exactLow { s with rc := rc, io := { s.io with sink := s.io.sink ++ out } } =
        (exactLow s + stepOffset s.rc.range.toNat (stepBit x) x) * 256 ^ shifts ∧
      out.length + (keptOctets rc).length = (keptOctets s.rc).length + shifts ∧
      rc.snkCount = s.rc.snkCount + BitVec.ofNat 32 out.length ∧ rc.code = s.rc.code ∧
      rc.srcCount = s.rc.srcCount ∧ rc.srcEof = s.rc.srcEof := by
  obtain ⟨-, hcoder, -, -⟩ := hinv
  rw [hm] at hcoder
  obtain ⟨⟨out, h⟩, hrange⟩ := encodes_encCommand hx hcoder
  obtain ⟨hnormal, -, -⟩ := (coderInv_enc_iff _).1 (coderInv_encCommand hx hcoder)
  refine ⟨_, out, _, hn, (exec_encCommand hx hs hm).trans (congrArg _ h.frame), hnormal, hrange, ?_, h.length,
    h.snkCount, h.code, h.srcCount, h.srcEof⟩
  rw [← h.frame, h.exactLow, Nat.add_mul]

/-! ### The flush -/

@[ext] theorem Coder.ext {c d : Coder} (low : c.low = d.low) (range : c.range = d.range) (code : c.code = d.code)
    (carry : c.carry = d.carry) (held : c.held = d.held) (heldValid : c.heldValid = d.heldValid)
    (ffRun : c.ffRun = d.ffRun) (srcCount : c.srcCount = d.srcCount) (snkCount : c.snkCount = d.snkCount)
    (srcEof : c.srcEof = d.srcEof) : c = d := by
  cases c
  cases d
  congr

/-- The flush shifts LOW and one 0x00 out and drains the pipeline: five octets, and nothing is left (R173). -/
theorem encodes_flush {s : State} (h : CoderInv .enc s.rc) :
    ∃ out, Encodes s (drain (shiftOutRun Config.flushLength s)) out 5 0 ∧ out.length = (keptOctets s.rc).length + 5 ∧
      bigEndian out = pipelineNumber [] s.rc * 256 := by
  obtain ⟨-, ⟨-, -, hfits, -⟩, -⟩ := (coderInv_enc_iff s.rc).1 h
  obtain ⟨-, ⟨hlow, hcarry, -, hvalid, hrun⟩, -⟩ := (coderInv_flushed_iff _).1 (coderInv_flush h)
  obtain ⟨out₁, hshift⟩ := encodes_shiftOutRun Config.flushLength hfits
  have hflush := hshift.trans (encodes_drain _)
  have hkept : keptOctets (drain (shiftOutRun Config.flushLength s)).rc = [] := by
    rw [keptOctets, hvalid, hrun]
    rfl
  have hlength := hflush.length
  have hnumber := hflush.number
  rw [hkept] at hlength
  rw [pipelineNumber, hkept, hlow, hcarry, List.append_nil] at hnumber
  refine ⟨_, hflush, by simpa using hlength, ?_⟩
  have hpow : 256 ^ Config.flushLength = 2 ^ 32 * 256 := rfl
  rw [Nat.zero_mul, Nat.zero_add, Nat.add_zero, hpow, ← Nat.mul_assoc] at hnumber
  simp only [Bool.toNat_false, BitVec.toNat_zero] at hnumber
  omega

/-! ### The statements -/

/-- Settles O40: one encoding step, a modelled one and a direct one. -/
theorem encodingTracksExactLow : Obligations.EncodingTracksExactLow := by
  intro p bit s hs hinv hm
  refine ⟨fun hlow hhigh => ?_, ?_⟩
  · exact exists_encodes_encCommand (x := .modelled p bit) ⟨hlow, hhigh⟩ hs hinv hm (normShifts_le_two _)
  · obtain ⟨-, hcoder, -, -⟩ := id hinv
    obtain ⟨hr, -⟩ := hcoder
    exact exists_encodes_encCommand (x := .direct bit) trivial hs hinv hm
      (normShifts_le_one (stepPart_direct_bounds hr bit bit).1)

/-- Settles O42: the gate; else the flush, whose registers are those of an empty pipeline. -/
theorem rcFlushResult : Obligations.RcFlushResult := by
  intro s hs
  refine ⟨rfl, fun hm => exec_of_wrongMode rfl hs hm, fun hm hinv => ?_⟩
  obtain ⟨-, hcoder, -, -⟩ := hinv
  rw [hm] at hcoder
  obtain ⟨out, hflush, hlength, hnumber⟩ := encodes_flush hcoder
  obtain ⟨-, ⟨hlow, hcarry, hheld, hvalid, hrun⟩, -⟩ := (coderInv_flushed_iff _).1 (coderInv_flush hcoder)
  refine ⟨out, (exec_rcFlush hs hm).trans ?_, hlength, hnumber⟩
  have hrange : (drain (shiftOutRun Config.flushLength s)).rc.range = s.rc.range := by
    rw [drain_range, shiftOutRun_range]
  have hrc : (drain (shiftOutRun Config.flushLength s)).rc = { s.rc with
      low := 0#32, carry := false, held := 0#8, heldValid := false, ffRun := 0
      snkCount := s.rc.snkCount + BitVec.ofNat 32 out.length } := by
    exact Coder.ext hlow hrange hflush.code hcarry hheld hvalid hrun hflush.srcCount hflush.snkCount hflush.srcEof
  rw [effect, hflush.frame, hrc]

end Sys2Proof.Machine
end

section
/-! SUPPORT. The decoder as arithmetic (43_range_coder R165, R168, R171, R172): octets shifted into CODE are the next of
the source, then free draws (log 3), and one decoding step is the cut of one encoding step read backwards. -/
namespace Sys2Proof.Machine

/-- From `s` to `t` the decoder shifts `octets` into CODE; it may change RANGE, and nothing else but the source's
counters and ports. -/
structure Reads (s t : State) (octets : List Octet) : Prop where
  frame : t = { s with
    rc := { s.rc with
      code := t.rc.code, range := t.rc.range, srcCount := s.rc.srcCount + BitVec.ofNat 32 octets.length
      srcEof := s.rc.srcEof || decide (s.io.source.length < octets.length) }
    io := { s.io with source := s.io.source.drop octets.length, draws := t.io.draws } }
  fromSource : octets.take s.io.source.length = s.io.source.take octets.length
  code : t.rc.code.toNat = (s.rc.code.toNat * 256 ^ octets.length + bigEndian octets) % 2 ^ 32

theorem Reads.refl (s : State) : Reads s s [] where
  frame := by simp
  fromSource := by simp
  code := by simp [bigEndian, Nat.mod_eq_of_lt s.rc.code.isLt]

theorem Reads.trans {s t u : State} {xs ys : List Octet} (h : Reads s t xs) (k : Reads t u ys) :
    Reads s u (xs ++ ys) := by
  have hsource : t.io.source = s.io.source.drop xs.length := by rw [h.frame]
  have heof : (decide (s.io.source.length < xs.length) || decide (s.io.source.length - xs.length < ys.length)) =
      decide (s.io.source.length < xs.length + ys.length) := by
    rw [← Bool.decide_or]
    exact decide_eq_decide.2 (by omega)
  refine ⟨?_, ?_, ?_⟩
  · rw [k.frame, h.frame]
    simp [← heof, BitVec.add_assoc, BitVec.ofNat_add, Bool.or_assoc]
  · have hoctets := k.fromSource
    rw [hsource, List.length_drop] at hoctets
    rw [List.take_append, h.fromSource, hoctets, List.length_append, List.take_add]
  · rw [k.code, h.code, List.length_append, bigEndian_append, Nat.pow_add]
    conv_lhs => rw [Nat.add_mod, Nat.mod_mul_mod, ← Nat.add_mod]
    congr 1
    ring

/-- Shifting RANGE reads nothing. -/
theorem Reads.shiftRange {s t : State} {xs : List Octet} (h : Reads s t xs) : Reads s (shiftRange t) xs := by
  have hshift : Reads t (Machine.shiftRange t) [] := { Reads.refl t with frame := by simp [Machine.shiftRange] }
  simpa using h.trans hshift

theorem toNat_shift_octet (code : BitVec 32) (o : Octet) :
    ((code <<< 8) ||| zext o).toNat = (code.toNat * 256 + o.toNat) % 2 ^ 32 := by
  have ho := o.isLt
  have hor : (code <<< 8) ||| zext o = (code <<< 8) + zext o := by
    rw [BitVec.add_eq_or_of_and_eq_zero]
    ext i hi
    simpa [zext] using fun hge _ => BitVec.getLsbD_of_ge o i hge
  rw [hor, BitVec.toNat_add, BitVec.toNat_shiftLeft, zext, BitVec.toNat_setWidth, Nat.shiftLeft_eq]
  omega

theorem reads_readIntoCode (s : State) : ∃ o, Reads s (readIntoCode s) [o] := by
  have hcode (o : Octet) : ((s.rc.code <<< 8) ||| zext o).toNat =
      (s.rc.code.toNat * 256 ^ [o].length + bigEndian [o]) % 2 ^ 32 := by
    rw [toNat_shift_octet, bigEndian_singleton, List.length_singleton, Nat.pow_one]
  rcases srcRead_cases s with ⟨o, rest, hsource, h⟩ | ⟨hsource, h⟩
  · refine ⟨o, ?_⟩
    rw [readIntoCode, h]
    exact ⟨by simp [hsource], by simp [hsource], hcode o⟩
  · refine ⟨Config.eofOctet s.io.draws, ?_⟩
    rw [readIntoCode, h]
    exact ⟨by simp [hsource], by simp [hsource], hcode _⟩

@[simp] theorem readIntoCodeRun_range (n : Nat) (s : State) : (readIntoCodeRun n s).rc.range = s.rc.range := by
  induction n generalizing s with
  | zero => rfl
  | succ n ih => rw [readIntoCodeRun, ih, readIntoCode_range]

theorem reads_readIntoCodeRun (n : Nat) (s : State) :
    ∃ octets, octets.length = n ∧ Reads s (readIntoCodeRun n s) octets := by
  induction n generalizing s with
  | zero => exact ⟨[], rfl, .refl s⟩
  | succ n ih =>
    obtain ⟨o, h⟩ := reads_readIntoCode s
    obtain ⟨octets, hlength, hrun⟩ := ih (readIntoCode s)
    exact ⟨o :: octets, congrArg (· + 1) hlength, h.trans hrun⟩

/-- One turn of the decoder's normalisation loop. -/
def decTurn (s : State) : State := shiftRange (readIntoCode s)

theorem decTurn_range (s : State) : (decTurn s).rc.range = s.rc.range <<< 8 := by
  rw [decTurn, shiftRange_rc, readIntoCode_range]

theorem reads_iterate_decTurn (n : Nat) (s : State) : ∃ octets, octets.length = n ∧ Reads s (decTurn^[n] s) octets := by
  induction n generalizing s with
  | zero => exact ⟨[], rfl, .refl s⟩
  | succ n ih =>
    obtain ⟨o, h⟩ := reads_readIntoCode s
    obtain ⟨octets, hlength, hturns⟩ := ih (decTurn s)
    exact ⟨o :: octets, congrArg (· + 1) hlength, h.shiftRange.trans hturns⟩

theorem decNormalize_eq_iterate {s : State} (h : 256 ≤ s.rc.range.toNat) :
    decNormalize s = decTurn^[normShifts s.rc.range.toNat] s :=
  normLoop_eq_iterate (loop := decNormalizeLoop) decTurn_range (fun _ => rfl) (fun _ _ => rfl) normBound h
    ((normShifts_le_two _).trans (by decide))

/-- The preload shifts four octets into the empty CODE of a fresh coder (R168). -/
theorem exists_reads_rcInitDec {s : State} (hs : faulted s = false) :
    ∃ octets draws, octets.length = 4 ∧ octets.take s.io.source.length = s.io.source.take 4 ∧
      exec .rcInitDec s = .next { s with
        mode := .dec
        rc := { s.rc with
          low := 0#32, range := 0xFFFFFFFF#32, code := BitVec.ofNat 32 (bigEndian octets), carry := false
          held := 0#8, heldValid := false, ffRun := 0, srcCount := 4#32
          srcEof := decide (s.io.source.length < 4) }
        io := { s.io with source := s.io.source.drop 4, draws := draws } } := by
  obtain ⟨octets, hlength, h⟩ := reads_readIntoCodeRun Config.preloadLength (decStart s)
  have hfour : octets.length = 4 := hlength
  have hsource := h.fromSource
  have hframe := h.frame
  have hcode : (readIntoCodeRun Config.preloadLength (decStart s)).rc.code = BitVec.ofNat 32 (bigEndian octets) := by
    refine BitVec.eq_of_toNat_eq ?_
    have hzero : (decStart s).rc.code.toNat = 0 := rfl
    rw [h.code, hzero, Nat.zero_mul, Nat.zero_add, BitVec.toNat_ofNat]
  rw [hfour] at hsource
  rw [hcode, readIntoCodeRun_range, hfour] at hframe
  exact ⟨octets, _, hfour, hsource, (exec_rcInitDec hs).trans
    (congrArg (fun t => Host.Outcome.next { t with mode := Mode.dec }) hframe)⟩

/-! ### One decoding step -/

/-- The bit a decoding step finds (R171, R172). -/
def decodedBit (x : CodeStep) (c : Coder) : Bool := decide (stepCut c.range.toNat x ≤ c.code.toNat)

/-- The coder registers after the interval test of a step: CODE relative to the part that holds it. -/
def decNarrowed (x : CodeStep) (c : Coder) : Coder :=
  { c with
    code := BitVec.ofNat 32 (c.code.toNat - stepOffset c.range.toNat (decodedBit x c) x)
    range := BitVec.ofNat 32 (stepPart c.range.toNat (decodedBit x c) x) }

theorem decodedBit_eq_false {x : CodeStep} {c : Coder} (h : c.code.toNat < stepCut c.range.toNat x) :
    decodedBit x c = false := decide_eq_false (Nat.not_le.2 h)

theorem decodedBit_eq_true {x : CodeStep} {c : Coder} (h : stepCut c.range.toNat x ≤ c.code.toNat) :
    decodedBit x c = true := decide_eq_true h

theorem ite_decodedBit {α : Type} (x : CodeStep) (c : Coder) (a b : α) : (if decodedBit x c then a else b) =
    if c.code.toNat < stepCut c.range.toNat x then b else a := by
  rcases Nat.lt_or_ge c.code.toNat (stepCut c.range.toNat x) with h | h
  · rw [decodedBit_eq_false h, if_pos h, if_neg Bool.false_ne_true]
  · rw [decodedBit_eq_true h, if_neg (Nat.not_lt.2 h), if_pos rfl]

theorem sub_stepOffset_decodedBit (x : CodeStep) (c : Coder) :
    c.code.toNat - stepOffset c.range.toNat (decodedBit x c) x =
      if c.code.toNat < stepCut c.range.toNat x then c.code.toNat else c.code.toNat - stepCut c.range.toNat x := by
  rw [stepOffset, ite_decodedBit]
  split <;> rfl

theorem effect_decCommand (x : CodeStep) (s : State) : effect (decCommand x) s =
    setResBit (decNormalize { s with rc := decNarrowed x s.rc }) (decodedBit x s.rc) := by
  have hlower (y : Nat) : setRange y s =
      { s with rc := { s.rc with code := BitVec.ofNat 32 (s.rc.code.toNat - 0), range := BitVec.ofNat 32 y } } := by
    simp [setRange]
  cases x with
  | modelled p b =>
    change setResBit (decNormalize (decInterval p.toNat s).2) (decInterval p.toNat s).1 = _
    rcases decInterval_cases p.toNat s with ⟨hlt, h⟩ | ⟨hge, h⟩
    · rw [h, decNarrowed, decodedBit_eq_false (x := .modelled p b) hlt, hlower]; rfl
    · rw [h, decNarrowed, decodedBit_eq_true (x := .modelled p b) hge]; rfl
  | direct b =>
    change setResBit (decNormalize (decDirectInterval s).2) (decDirectInterval s).1 = _
    rcases decDirectInterval_cases s with ⟨hlt, h⟩ | ⟨hge, h⟩
    · rw [h, decNarrowed, decodedBit_eq_false (x := .direct b) hlt, hlower]; rfl
    · rw [h, decNarrowed, decodedBit_eq_true (x := .direct b) hge]; rfl

theorem exec_decCommand {x : CodeStep} (hx : x.legal) {s : State} (hs : faulted s = false) (hm : s.mode = .dec) :
    exec (decCommand x) s = .next (effect (decCommand x) s) := by
  cases x with
  | modelled p bit => exact exec_rcDec_of_legal hs hm hx
  | direct bit => exact exec_rcDecDirect hs hm

/-- One decoding step: the bit found goes to RES, CODE and RANGE are narrowed to its part, and each normalisation
shift reads one octet. -/
structure Decodes (x : CodeStep) (s t : State) (octets : List Octet) : Prop where
  frame : t = { s with
    res := if decodedBit x s.rc then 1#32 else 0#32
    rc := { s.rc with
      code := t.rc.code, range := t.rc.range, srcCount := s.rc.srcCount + BitVec.ofNat 32 octets.length
      srcEof := s.rc.srcEof || decide (s.io.source.length < octets.length) }
    io := { s.io with source := s.io.source.drop octets.length, draws := t.io.draws } }
  length : octets.length = normShifts (stepPart s.rc.range.toNat (decodedBit x s.rc) x)
  fromSource : octets.take s.io.source.length = s.io.source.take octets.length
  range : t.rc.range.toNat = normRange (stepPart s.rc.range.toNat (decodedBit x s.rc) x)
  code : t.rc.code.toNat = ((s.rc.code.toNat - stepOffset s.rc.range.toNat (decodedBit x s.rc) x) *
    256 ^ octets.length + bigEndian octets) % 2 ^ 32

theorem decodes_decCommand {x : CodeStep} (hx : x.legal) {s : State} (hr : Config.normThreshold ≤ s.rc.range.toNat) :
    ∃ octets, Decodes x s (effect (decCommand x) s) octets := by
  obtain ⟨hpos, hle⟩ := stepPart_bounds hr hx (decodedBit x s.rc)
  have hpart : (decNarrowed x s.rc).range.toNat = stepPart s.rc.range.toNat (decodedBit x s.rc) x :=
    toNat_ofNat_of_le_toNat (range := s.rc.range) (by omega)
  have hcode : (decNarrowed x s.rc).code.toNat = s.rc.code.toNat - stepOffset s.rc.range.toNat (decodedBit x s.rc) x :=
    toNat_ofNat_of_le_toNat (range := s.rc.code) (Nat.sub_le _ _)
  have hlow : 256 ≤ ({ s with rc := decNarrowed x s.rc } : State).rc.range.toNat := by
    change 256 ≤ (decNarrowed x s.rc).range.toNat
    omega
  have hrange := iterate_turn_range decTurn_range hlow
  obtain ⟨octets, hlength, h⟩ := reads_iterate_decTurn (normShifts (decNarrowed x s.rc).range.toNat)
    { s with rc := decNarrowed x s.rc }
  refine ⟨octets, ?_⟩
  rw [effect_decCommand, decNormalize_eq_iterate hlow]
  refine ⟨?_, hlength.trans (congrArg _ hpart), h.fromSource, hrange.trans (congrArg _ hpart), ?_⟩
  · have hres : zext (BitVec.ofBool (decodedBit x s.rc)) = if decodedBit x s.rc then 1#32 else 0#32 := by
      cases decodedBit x s.rc <;> rfl
    rw [setResBit, setRes, hres]
    conv_lhs => rw [h.frame]
    rfl
  · rw [← hcode]
    exact h.code

/-- The narrowed CODE lies in the narrowed RANGE, but for the last unit of an odd RANGE halved (R166 (c)). -/
theorem Decodes.code_lt_range {p : Prob} {b : Bool} {s t : State} {octets : List Octet}
    (h : Decodes (.modelled p b) s t octets) (hlt : s.rc.code.toNat < s.rc.range.toNat) :
    t.rc.code.toNat < t.rc.range.toNat := by
  have hin : s.rc.code.toNat - stepOffset s.rc.range.toNat (decodedBit (.modelled p b) s.rc) (.modelled p b) <
      stepPart s.rc.range.toNat (decodedBit (.modelled p b) s.rc) (.modelled p b) := by
    rw [sub_stepOffset_decodedBit, stepPart, ite_decodedBit]
    split
    next hbit => exact hbit
    next hbit =>
      have hcut : stepCut s.rc.range.toNat (.modelled p b) = s.rc.range.toNat / 4096 * p.toNat := rfl
      omega
  rw [h.code, h.range, normRange, ← h.length]
  calc _ ≤ _ := Nat.mod_le _ _
    _ < (s.rc.code.toNat - stepOffset s.rc.range.toNat (decodedBit (.modelled p b) s.rc) (.modelled p b) + 1) *
        256 ^ octets.length := by
      rw [Nat.succ_mul]
      exact Nat.add_lt_add_left (bigEndian_lt octets) _
    _ ≤ _ := Nat.mul_le_mul_right _ hin

/-- One decoding command as a next state, with the part chosen by the comparison itself. -/
theorem exists_decodes_decCommand {x : CodeStep} (hx : x.legal) {s : State} (hs : faulted s = false)
    (hm : s.mode = .dec) (hr : Config.normThreshold ≤ s.rc.range.toNat) :
    ∃ t octets, Decodes x s t octets ∧
      exec (decCommand x) s = .next { s with
        res := if s.rc.code.toNat < stepCut s.rc.range.toNat x then 0#32 else 1#32
        rc := { s.rc with
          code := t.rc.code, range := t.rc.range, srcCount := s.rc.srcCount + BitVec.ofNat 32 octets.length
          srcEof := s.rc.srcEof || decide (s.io.source.length < octets.length) }
        io := { s.io with source := s.io.source.drop octets.length, draws := t.io.draws } } ∧
      Config.normThreshold ≤ t.rc.range.toNat ∧
      t.rc.range.toNat = stepPart s.rc.range.toNat (decodedBit x s.rc) x * 256 ^ octets.length ∧
      t.rc.code.toNat = ((if s.rc.code.toNat < stepCut s.rc.range.toNat x then s.rc.code.toNat
        else s.rc.code.toNat - stepCut s.rc.range.toNat x) * 256 ^ octets.length + bigEndian octets) % 2 ^ 32 := by
  obtain ⟨octets, h⟩ := decodes_decCommand hx hr
  obtain ⟨hpos, hle⟩ := stepPart_bounds hr hx (decodedBit x s.rc)
  have hlt := s.rc.range.isLt
  obtain ⟨hnormal, -⟩ := normRange_bounds (r := stepPart s.rc.range.toNat (decodedBit x s.rc) x) (by omega) (by omega)
  have hframe := h.frame
  have hrange := h.range
  have hcode := h.code
  rw [ite_decodedBit] at hframe
  rw [sub_stepOffset_decodedBit] at hcode
  refine ⟨_, octets, h, (exec_decCommand hx hs hm).trans (congrArg _ hframe), hnormal.trans_eq hrange.symm, ?_, hcode⟩
  rw [hrange, normRange, ← h.length]

/-! ### The statements -/

/-- Settles O37: the preload from the fresh coder. -/
theorem rcInitDecResult : Obligations.RcInitDecResult := fun _ hs => ⟨rfl, exists_reads_rcInitDec hs⟩

/-- Settles O43: the gates in order; else one decoding step. -/
theorem rcDecResult : Obligations.RcDecResult := by
  intro p s hs
  refine ⟨rfl, fun hm => exec_of_wrongMode rfl hs hm, fun hm hp => exec_rcDec_of_not_legal hs hm hp,
    fun hm hlow hhigh hr => ?_⟩
  obtain ⟨t, octets, h, hexec, hnormal, hrange, hcode⟩ :=
    exists_decodes_decCommand (x := .modelled p true) ⟨hlow, hhigh⟩ hs hm hr
  rw [stepPart, ite_decodedBit] at hrange
  exact ⟨_, _, octets, _, h.length.trans_le (normShifts_le_two _), h.fromSource, hexec, hnormal, hrange, hcode,
    h.code_lt_range⟩

/-- Settles O44: the gate; else one decoding step, whose two parts are the same half. -/
theorem rcDecDirectResult : Obligations.RcDecDirectResult := by
  intro s hs
  refine ⟨rfl, fun hm => exec_of_wrongMode rfl hs hm, fun hm hr => ?_⟩
  obtain ⟨t, octets, h, hexec, hnormal, hrange, hcode⟩ :=
    exists_decodes_decCommand (x := .direct true) trivial hs hm hr
  obtain ⟨hpart, -⟩ := stepPart_direct_bounds hr (decodedBit (.direct true) s.rc) true
  exact ⟨_, _, octets, _, h.length.trans_le (normShifts_le_one hpart), h.fromSource, hexec, hnormal, hrange, hcode⟩

end Sys2Proof.Machine
end

section
/-! SUPPORT. The round trip (43_range_coder R174, R176, R177 (c)): a sequence of steps as a path of intervals, each inside
the one before; the encoder writes the low end of the last, and the decoder, which holds a number inside it, takes the
same path. -/
namespace Sys2Proof.Machine

/-! ### Sequences of steps as arithmetic on RANGE -/

/-- The normalisation shifts of an encoded step. -/
def stepShifts (r : Nat) (x : CodeStep) : Nat := normShifts (stepPart r (stepBit x) x)

/-- RANGE after an encoded step. -/
def stepRange (r : Nat) (x : CodeStep) : Nat := normRange (stepPart r (stepBit x) x)

/-- RANGE after a sequence of encoded steps. -/
def stepsRange : List CodeStep → Nat → Nat
  | [], r => r
  | x :: xs, r => stepsRange xs (stepRange r x)

/-- The normalisation shifts of a sequence of encoded steps. -/
def stepsShifts : List CodeStep → Nat → Nat
  | [], _ => 0
  | x :: xs, r => stepShifts r x + stepsShifts xs (stepRange r x)

/-- The low end of the interval a sequence of encoded steps leads to, relative to the one it starts from and in units
of the shifted number. -/
def stepsOffset : List CodeStep → Nat → Nat
  | [], _ => 0
  | x :: xs, r => stepOffset r (stepBit x) x * 256 ^ stepShifts r x * 256 ^ stepsShifts xs (stepRange r x) +
      stepsOffset xs (stepRange r x)

theorem stepsShifts_append (xs ys : List CodeStep) (r : Nat) :
    stepsShifts (xs ++ ys) r = stepsShifts xs r + stepsShifts ys (stepsRange xs r) := by
  induction xs generalizing r with
  | nil => simp [stepsShifts, stepsRange]
  | cons x xs ih => rw [List.cons_append, stepsShifts, ih, ← Nat.add_assoc, ← stepsShifts, stepsRange]

theorem stepsOffset_append (xs ys : List CodeStep) (r : Nat) : stepsOffset (xs ++ ys) r =
    stepsOffset xs r * 256 ^ stepsShifts ys (stepsRange xs r) + stepsOffset ys (stepsRange xs r) := by
  induction xs generalizing r with
  | nil => simp [stepsOffset, stepsRange]
  | cons x xs ih =>
    rw [List.cons_append, stepsOffset, ih, stepsShifts_append, stepsOffset, stepsRange]
    ring

/-- A normalised RANGE. -/
def NormalRange (r : Nat) : Prop := Config.normThreshold ≤ r ∧ r < 2 ^ 32

theorem normalRange_toNat {c : Coder} (h : RangeNormal c) : NormalRange c.range.toNat := ⟨h, c.range.isLt⟩

/-- One step leads to an interval inside the one it starts from. -/
theorem step_nested {r : Nat} (hr : NormalRange r) {x : CodeStep} (hx : x.legal) : NormalRange (stepRange r x) ∧
    stepOffset r (stepBit x) x * 256 ^ stepShifts r x + stepRange r x ≤ r * 256 ^ stepShifts r x := by
  obtain ⟨hlow, hlt⟩ := hr
  have hreg : (BitVec.ofNat 32 r).toNat = r := by rw [BitVec.toNat_ofNat, Nat.mod_eq_of_lt hlt]
  obtain ⟨hpos, hle⟩ := stepPart_bounds (range := BitVec.ofNat 32 r) (hlow.trans_eq hreg.symm) hx (stepBit x)
  rw [hreg] at hpos hle
  refine ⟨normRange_bounds (by omega) (by omega), ?_⟩
  rw [stepRange, normRange, ← stepShifts, ← Nat.add_mul]
  exact Nat.mul_le_mul_right _ hle

theorem steps_nested {xs : List CodeStep} (hxs : ∀ x ∈ xs, x.legal) {r : Nat} (hr : NormalRange r) :
    NormalRange (stepsRange xs r) ∧ stepsOffset xs r + stepsRange xs r ≤ r * 256 ^ stepsShifts xs r := by
  induction xs generalizing r with
  | nil => exact ⟨hr, by simp [stepsOffset, stepsRange, stepsShifts]⟩
  | cons x xs ih =>
    obtain ⟨hx, hxs⟩ := List.forall_mem_cons.1 hxs
    obtain ⟨hnext, hstep⟩ := step_nested hr hx
    obtain ⟨hlast, hrest⟩ := ih hxs hnext
    refine ⟨hlast, ?_⟩
    rw [stepsOffset, stepsRange, stepsShifts, Nat.pow_add, ← Nat.mul_assoc]
    calc _ = stepOffset r (stepBit x) x * 256 ^ stepShifts r x * 256 ^ stepsShifts xs (stepRange r x) +
          (stepsOffset xs (stepRange r x) + stepsRange xs (stepRange r x)) := Nat.add_assoc ..
      _ ≤ stepOffset r (stepBit x) x * 256 ^ stepShifts r x * 256 ^ stepsShifts xs (stepRange r x) +
          stepRange r x * 256 ^ stepsShifts xs (stepRange r x) := Nat.add_le_add_left hrest _
      _ ≤ _ := by rw [← Nat.add_mul]; exact Nat.mul_le_mul_right _ hstep

/-- A number whose continuation by `n` octets lies between two multiples of `256 ^ n` lies between the quotients. -/
theorem quotient_bounds {low high c e n : Nat} (he : e < 256 ^ n) (hlow : low * 256 ^ n ≤ c * 256 ^ n + e)
    (hhigh : c * 256 ^ n + e < high * 256 ^ n) : low ≤ c ∧ c < high := by
  refine ⟨Nat.le_of_lt_succ (Nat.lt_of_mul_lt_mul_right (a := 256 ^ n) ?_),
    Nat.lt_of_mul_lt_mul_right (a := 256 ^ n) ?_⟩
  · rw [Nat.succ_mul]; omega
  · omega

/-- A number in an interval nested in the continuations of the one from `o` to `o + r` continues a number of that one. -/
theorem bounds_of_nested {o r o' r' c e n : Nat} (he : e < 256 ^ n) (hnested : o' + r' ≤ r * 256 ^ n)
    (hlow : o * 256 ^ n + o' ≤ c * 256 ^ n + e) (hhigh : c * 256 ^ n + e < o * 256 ^ n + o' + r') :
    o ≤ c ∧ c < o + r :=
  quotient_bounds he (by omega) (by rw [Nat.add_mul]; omega)

/-! ### The encoder along a sequence -/

theorem execAll_cons_of_next {i : Instr} {s t : State} (h : exec i s = .next t) (is : List Instr) :
    execAll (i :: is) s = execAll is t := by rw [execAll, h]

theorem execAll_append_of_next {is js : List Instr} {s t : State} (h : execAll is s = .next t) :
    execAll (is ++ js) s = execAll js t := by
  induction is generalizing s with
  | nil => rw [Host.Outcome.next.inj h]; rfl
  | cons i is ih =>
    obtain ⟨u, hu, h⟩ := execAll_cons_next h
    rw [List.cons_append, execAll_cons_of_next hu, ih h]

theorem execAll_encCommands {xs : List CodeStep} (hxs : ∀ x ∈ xs, x.legal) {s : State} (hs : faulted s = false)
    (hm : s.mode = .enc) (h : CoderInv .enc s.rc) :
    ∃ t out, execAll (xs.map encCommand) s = .next t ∧
      Encodes s t out (stepsShifts xs s.rc.range.toNat) (stepsOffset xs s.rc.range.toNat) ∧
      t.rc.range.toNat = stepsRange xs s.rc.range.toNat ∧ CoderInv .enc t.rc := by
  induction xs generalizing s with
  | nil => exact ⟨s, [], rfl, .refl s, rfl, h⟩
  | cons x xs ih =>
    obtain ⟨hx, hxs⟩ := List.forall_mem_cons.1 hxs
    obtain ⟨⟨out₁, hstep⟩, hrange⟩ := encodes_encCommand hx h
    have hframe := hstep.frame
    obtain ⟨t, out₂, ht, hrest, hlast, hinv⟩ := ih hxs (s := effect (encCommand x) s) (by rw [hframe]; exact hs)
      (by rw [hframe]; exact hm) (coderInv_encCommand hx h)
    rw [hrange] at hrest hlast
    exact ⟨t, out₁ ++ out₂, (execAll_cons_of_next (exec_encCommand hx hs hm) _).trans ht, hstep.trans hrest, hlast, hinv⟩

/-- RANGE after either init command. -/
def fullRange : Nat := (0xFFFFFFFF#32).toNat

theorem normalRange_fullRange : NormalRange fullRange := ⟨normThreshold_le_fullRange, BitVec.isLt _⟩

/-- An encoder started afresh, along a sequence. -/
theorem execAll_rcInitEnc_encCommands {xs : List CodeStep} (hxs : ∀ x ∈ xs, x.legal) {s : State}
    (hs : faulted s = false) :
    ∃ t out, execAll (.rcInitEnc :: xs.map encCommand) s = .next t ∧
      Encodes (effect .rcInitEnc s) t out (stepsShifts xs fullRange) (stepsOffset xs fullRange) ∧
      t.rc.range.toNat = stepsRange xs fullRange ∧ CoderInv .enc t.rc := by
  obtain ⟨t, out, ht, h⟩ := execAll_encCommands hxs (s := effect .rcInitEnc s) hs rfl (coderInv_freshCoder_enc s.rc)
  exact ⟨t, out, (execAll_cons_of_next (exec_rcInitEnc hs) _).trans ht, h⟩

/-- What a whole stream holds: the low end of the last interval and one 0x00 (R173, R174). -/
theorem execAll_encode_stream {xs : List CodeStep} (hxs : ∀ x ∈ xs, x.legal) {s : State} (hs : faulted s = false) :
    ∃ t written, execAll (.rcInitEnc :: (xs.map encCommand ++ [.rcFlush])) s = .next t ∧
      t.io.sink = s.io.sink ++ written ∧ written.length = stepsShifts xs fullRange + 5 ∧
      bigEndian written = stepsOffset xs fullRange * 256 := by
  obtain ⟨e, out, he, hsteps, -, hinv⟩ := execAll_rcInitEnc_encCommands hxs hs
  obtain ⟨rest, hflush, hlength, hnumber⟩ := encodes_flush hinv
  have hstart : pipelineNumber [] (effect .rcInitEnc s).rc = 0 := by
    simp [pipelineNumber, keptOctets, effect, freshCoder, bigEndian]
  have hkept : (keptOctets (effect .rcInitEnc s).rc).length = 0 := rfl
  have hsteps_length := hsteps.length
  have hsteps_number := hsteps.number
  have hframe := hsteps.frame
  have hclear : faulted e = false := by rw [hframe]; exact hs
  have hmode : e.mode = .enc := by rw [hframe]; rfl
  have hsink : e.io.sink = s.io.sink ++ out := by rw [hframe]; rfl
  have hsplit := pipelineNumber_append out [] e.rc
  rw [List.append_nil, List.length_nil, Nat.zero_add, hsteps_number, hstart, Nat.zero_mul, Nat.zero_add] at hsplit
  refine ⟨effect .rcFlush e, out ++ rest, ?_, ?_, ?_, ?_⟩
  · rw [← List.cons_append, execAll_append_of_next he, execAll_cons_of_next (exec_rcFlush hclear hmode), execAll]
  · rw [← List.append_assoc, ← hsink]
    exact congrArg (·.io.sink) hflush.frame
  · rw [List.length_append]
    omega
  · rw [bigEndian_append, hlength, hnumber, hsplit]
    ring

/-! ### The decoder along a sequence -/

/-- CODE of a decoder lies in the part of the encoded bit as soon as CODE and the next octets do. -/
theorem decodedBit_eq_stepBit {x : CodeStep} {c : Coder} (hlow : stepOffset c.range.toNat (stepBit x) x ≤ c.code.toNat)
    (hhigh : c.code.toNat < stepOffset c.range.toNat (stepBit x) x + stepPart c.range.toNat (stepBit x) x) :
    decodedBit x c = stepBit x := by
  cases hbit : stepBit x with
  | false =>
    rw [hbit, stepPart_false, stepOffset, if_neg Bool.false_ne_true, Nat.zero_add] at hhigh
    exact decodedBit_eq_false hhigh
  | true =>
    rw [hbit, stepOffset, if_pos rfl] at hlow
    exact decodedBit_eq_true hlow

/-- From `s` to `u` a decoder reads `octets` and takes CODE relative to an interval at `offset` with the given RANGE. -/
structure Follows (s u : State) (octets : List Octet) (offset range : Nat) : Prop where
  faulted : faulted u = faulted s
  mode : u.mode = s.mode
  source : s.io.source = octets ++ u.io.source
  srcCount : u.rc.srcCount = s.rc.srcCount + BitVec.ofNat 32 octets.length
  srcEof : u.rc.srcEof = s.rc.srcEof
  range : u.rc.range.toNat = range
  code : u.rc.code.toNat + offset = s.rc.code.toNat * 256 ^ octets.length + bigEndian octets

theorem Follows.refl (s : State) : Follows s s [] 0 s.rc.range.toNat where
  faulted := rfl
  mode := rfl
  source := rfl
  srcCount := by simp
  srcEof := rfl
  range := rfl
  code := by simp [bigEndian]

theorem value_append (c : Nat) (xs ys : List Octet) : c * 256 ^ (xs ++ ys).length + bigEndian (xs ++ ys) =
    (c * 256 ^ xs.length + bigEndian xs) * 256 ^ ys.length + bigEndian ys := by
  rw [List.length_append, bigEndian_append]
  ring

theorem Follows.trans {s t u : State} {xs ys : List Octet} {x₁ x₂ r₁ r₂ : Nat} (h : Follows s t xs x₁ r₁)
    (k : Follows t u ys x₂ r₂) : Follows s u (xs ++ ys) (x₁ * 256 ^ ys.length + x₂) r₂ where
  faulted := k.faulted.trans h.faulted
  mode := k.mode.trans h.mode
  source := by rw [h.source, k.source, List.append_assoc]
  srcCount := by rw [k.srcCount, h.srcCount, List.length_append, BitVec.ofNat_add, BitVec.add_assoc]
  srcEof := k.srcEof.trans h.srcEof
  range := k.range
  code := by
    have hcode := k.code
    rw [value_append, ← h.code, Nat.add_mul]
    omega

/-- One decoding step inside the interval of an encoded one: the bit comes back, and the decoder follows. -/
theorem follows_decCommand {x : CodeStep} (hx : x.legal) {s : State} (hr : RangeNormal s.rc) {octets rest : List Octet}
    (hsource : s.io.source = octets ++ rest) (hlength : octets.length = stepShifts s.rc.range.toNat x)
    (hlow : stepOffset s.rc.range.toNat (stepBit x) x * 256 ^ octets.length ≤
      s.rc.code.toNat * 256 ^ octets.length + bigEndian octets)
    (hhigh : s.rc.code.toNat * 256 ^ octets.length + bigEndian octets <
      stepOffset s.rc.range.toNat (stepBit x) x * 256 ^ octets.length + stepRange s.rc.range.toNat x) :
    (effect (decCommand x) s).res = (if stepBit x then 1#32 else 0#32) ∧
      Follows s (effect (decCommand x) s) octets (stepOffset s.rc.range.toNat (stepBit x) x * 256 ^ octets.length)
        (stepRange s.rc.range.toNat x) := by
  have hnorm : stepRange s.rc.range.toNat x = stepPart s.rc.range.toNat (stepBit x) x * 256 ^ octets.length := by
    rw [hlength]; rfl
  obtain ⟨⟨-, hfit⟩, -⟩ := step_nested (normalRange_toNat hr) hx
  have hpart := hhigh
  rw [hnorm, ← Nat.add_mul] at hpart
  obtain ⟨hoffset, hcode⟩ := quotient_bounds (bigEndian_lt octets) hlow hpart
  have hbit := decodedBit_eq_stepBit hoffset hcode
  obtain ⟨read, h⟩ := decodes_decCommand hx hr
  obtain rfl : read = octets := by
    have hcount : read.length = octets.length := by rw [h.length, hbit, hlength, stepShifts]
    have hread := h.fromSource
    rwa [hsource, hcount, List.take_left, List.take_of_length_le (by simp [hcount])] at hread
  have hframe := h.frame
  have hvalue := h.code
  have heof : decide (s.io.source.length < read.length) = false := by simp [hsource]
  have hscaled : stepOffset s.rc.range.toNat (stepBit x) x * 256 ^ read.length ≤ s.rc.code.toNat * 256 ^ read.length :=
    Nat.mul_le_mul_right _ hoffset
  rw [hbit, heof, hsource, List.drop_left, Bool.or_false] at hframe
  rw [hbit, Nat.sub_mul, Nat.mod_eq_of_lt (by omega)] at hvalue
  refine ⟨by rw [hframe], by rw [hframe]; rfl, by rw [hframe], by rw [hframe]; exact hsource, by rw [hframe],
    by rw [hframe], by rw [h.range, hbit, stepRange], by omega⟩

theorem execCollect_cons_of_next {i : Instr} {is : List Instr} {s t u : State} {rs : List Response}
    (hi : exec i s = .next t) (his : execCollect is t = some (rs, u)) :
    execCollect (i :: is) s = some (responseOf t :: rs, u) := by
  simp [execCollect, hi, nextOf, his]

/-- A decoder whose CODE and next octets lie in the last interval of a sequence finds the sequence. -/
theorem execCollect_decCommands {xs : List CodeStep} (hxs : ∀ x ∈ xs, x.legal) {s : State} (hs : faulted s = false)
    (hm : s.mode = .dec) (hr : RangeNormal s.rc) {octets rest : List Octet} (hsource : s.io.source = octets ++ rest)
    (hlength : octets.length = stepsShifts xs s.rc.range.toNat)
    (hlow : stepsOffset xs s.rc.range.toNat ≤ s.rc.code.toNat * 256 ^ octets.length + bigEndian octets)
    (hhigh : s.rc.code.toNat * 256 ^ octets.length + bigEndian octets <
      stepsOffset xs s.rc.range.toNat + stepsRange xs s.rc.range.toNat) :
    ∃ rs u, execCollect (xs.map decCommand) s = some (rs, u) ∧
      rs.map (fun r => r.res) = xs.map (fun x => if stepBit x then 1#32 else 0#32) ∧
      Follows s u octets (stepsOffset xs s.rc.range.toNat) (stepsRange xs s.rc.range.toNat) := by
  induction xs generalizing s octets with
  | nil =>
    obtain rfl := List.eq_nil_of_length_eq_zero hlength
    exact ⟨[], s, rfl, rfl, .refl s⟩
  | cons x xs ih =>
    obtain ⟨hx, hxs⟩ := List.forall_mem_cons.1 hxs
    obtain ⟨hnext, -⟩ := step_nested (normalRange_toNat hr) hx
    obtain ⟨-, hnested⟩ := steps_nested hxs hnext
    rw [stepsShifts] at hlength
    obtain ⟨first, later, rfl, hfirst⟩ : ∃ first later, octets = first ++ later ∧
        first.length = stepShifts s.rc.range.toNat x :=
      ⟨octets.take (stepShifts s.rc.range.toNat x), octets.drop (stepShifts s.rc.range.toNat x),
        (List.take_append_drop _ _).symm, by rw [List.length_take]; omega⟩
    have hlater : later.length = stepsShifts xs (stepRange s.rc.range.toNat x) := by
      rw [List.length_append] at hlength
      omega
    rw [stepsOffset, ← hfirst, ← hlater, value_append] at hlow
    rw [stepsOffset, stepsRange, ← hfirst, ← hlater, value_append] at hhigh
    rw [← hlater] at hnested
    rw [List.append_assoc] at hsource
    obtain ⟨hlow₁, hhigh₁⟩ := bounds_of_nested (bigEndian_lt later) hnested hlow hhigh
    obtain ⟨hres, hstep⟩ := follows_decCommand hx hr hsource hfirst hlow₁ hhigh₁
    rw [← hstep.code, Nat.add_mul] at hlow hhigh
    rw [← hstep.range] at hlow hhigh hlater hnext
    obtain ⟨rs, u, hrs, hbits, hrest⟩ := ih hxs (hstep.faulted.trans hs) (hstep.mode.trans hm) hnext.1
      (List.append_cancel_left (hstep.source.symm.trans hsource)) hlater (by omega) (by omega)
    refine ⟨_, u, execCollect_cons_of_next (exec_decCommand hx hs hm) hrs, ?_, ?_⟩
    · rw [List.map_cons, List.map_cons, hbits, responseOf, hres]
    · rw [hstep.range] at hrest hlater
      rw [stepsOffset, stepsRange, ← hfirst, ← hlater]
      exact hstep.trans hrest

/-- A decoder whose preload was `read`, with `source` still to come. -/
def decPreloaded (s : State) (read source : List Octet) (draws : Nat) : State := { s with
  mode := .dec
  rc := { s.rc with
    low := 0#32, range := 0xFFFFFFFF#32, code := BitVec.ofNat 32 (bigEndian read), carry := false
    held := 0#8, heldValid := false, ffRun := 0, srcCount := 4#32, srcEof := false }
  io := { s.io with source := source, draws := draws } }

theorem decPreloaded_code {read : List Octet} (h : read.length = 4) (s : State) (source : List Octet) (draws : Nat) :
    (decPreloaded s read source draws).rc.code.toNat = bigEndian read := by
  have hlt : bigEndian read < 2 ^ 32 := (bigEndian_lt read).trans_eq (by rw [h]; rfl)
  exact (BitVec.toNat_ofNat ..).trans (Nat.mod_eq_of_lt hlt)

/-- RC_INIT_DEC on a source of at least four octets. -/
theorem exec_rcInitDec_of_source {s : State} (hs : faulted s = false) {read later : List Octet} (h : read.length = 4)
    (hsource : s.io.source = read ++ later) : ∃ draws, exec .rcInitDec s = .next (decPreloaded s read later draws) := by
  obtain ⟨octets, draws, hfour, hread, hinit⟩ := exists_reads_rcInitDec hs
  obtain rfl : octets = read := by
    rwa [hsource, ← h, List.take_left, List.take_of_length_le (by simp [hfour, h])] at hread
  have heof : decide (s.io.source.length < 4) = false := by simp [hsource, h]
  rw [heof, hsource, ← h, List.drop_left, h] at hinit
  exact ⟨draws, hinit⟩

/-- A decoder started afresh on octets that lie in the last interval of a sequence. -/
theorem execCollect_rcInitDec_decCommands {xs : List CodeStep} (hxs : ∀ x ∈ xs, x.legal) {s : State}
    (hs : faulted s = false) {octets rest : List Octet} (hsource : s.io.source = octets ++ rest)
    (hlength : octets.length = stepsShifts xs fullRange + 4) (hlow : stepsOffset xs fullRange ≤ bigEndian octets)
    (hhigh : bigEndian octets < stepsOffset xs fullRange + stepsRange xs fullRange) :
    ∃ rs u, execCollect (.rcInitDec :: xs.map decCommand) s = some (rs, u) ∧
      (rs.drop 1).map (fun r => r.res) = xs.map (fun x => if stepBit x then 1#32 else 0#32) ∧
      u.rc.range.toNat = stepsRange xs fullRange ∧ u.rc.code.toNat + stepsOffset xs fullRange = bigEndian octets ∧
      u.rc.srcEof = false ∧ u.io.source = rest ∧ u.rc.srcCount = BitVec.ofNat 32 octets.length := by
  obtain ⟨read, later, rfl, hread⟩ : ∃ read later, octets = read ++ later ∧ read.length = 4 :=
    ⟨octets.take 4, octets.drop 4, (List.take_append_drop _ _).symm, by rw [List.length_take]; omega⟩
  have hlater : later.length = stepsShifts xs fullRange := by
    rw [List.length_append] at hlength
    omega
  rw [List.append_assoc] at hsource
  obtain ⟨draws, hinit⟩ := exec_rcInitDec_of_source hs hread hsource
  rw [bigEndian_append, ← decPreloaded_code hread s (later ++ rest) draws] at hlow hhigh
  obtain ⟨rs, u, hrs, hbits, h⟩ := execCollect_decCommands hxs (s := decPreloaded s read (later ++ rest) draws) hs rfl
    normThreshold_le_fullRange rfl hlater hlow hhigh
  have hcode := h.code
  rw [decPreloaded_code hread, ← bigEndian_append] at hcode
  refine ⟨_, u, execCollect_cons_of_next hinit hrs, hbits, h.range, hcode, h.srcEof,
    (List.append_cancel_left h.source).symm, ?_⟩
  rw [h.srcCount, List.length_append, hread, BitVec.ofNat_add]
  rfl

/-! ### The stream -/

/-- The stream of a sequence, cut where a decoder of its first steps stops: what it reads lies in the interval the
encoder reached after those steps, because the whole stream lies in the last one. -/
theorem stream_bounds {pre post : List CodeStep} (hpre : ∀ x ∈ pre, x.legal) (hpost : ∀ x ∈ post, x.legal)
    {read tail : List Octet} (htail : tail.length = stepsShifts post (stepsRange pre fullRange) + 1)
    (hnumber : bigEndian (read ++ tail) = stepsOffset (pre ++ post) fullRange * 256) :
    stepsOffset pre fullRange ≤ bigEndian read ∧
      bigEndian read < stepsOffset pre fullRange + stepsRange pre fullRange := by
  obtain ⟨hmiddle, -⟩ := steps_nested hpre normalRange_fullRange
  obtain ⟨⟨hlast, -⟩, hnested⟩ := steps_nested hpost hmiddle
  have hpos : 0 < stepsRange post (stepsRange pre fullRange) := Nat.lt_of_lt_of_le (by decide) hlast
  have hsplit : bigEndian read * 256 ^ tail.length + bigEndian tail =
      stepsOffset pre fullRange * 256 ^ tail.length + stepsOffset post (stepsRange pre fullRange) * 256 := by
    rw [← bigEndian_append, hnumber, stepsOffset_append, htail]
    ring
  refine bounds_of_nested (bigEndian_lt tail) (r' := stepsRange post (stepsRange pre fullRange) * 256) ?_ hsplit.ge
    (by omega)
  rw [← Nat.add_mul, htail, Nat.pow_succ, ← Nat.mul_assoc]
  exact Nat.mul_le_mul_right _ hnested

/-! ### The statement -/

/-- Settles O45: the octets a decoder of the first steps reads are the leading ones of the stream, and they lie in
the interval the encoder reached, so the decoder takes the encoder's path. -/
theorem rangeCoderRoundTrip : Obligations.RangeCoderRoundTrip := by
  intro pre post hlegal s hs
  obtain ⟨hpre, hpost⟩ := List.forall_mem_append.1 hlegal
  obtain ⟨e, out, he, -, hrange, -⟩ := execAll_rcInitEnc_encCommands hpre hs
  obtain ⟨t, written, ht, hsink, hlength, hnumber⟩ := execAll_encode_stream hlegal hs
  refine ⟨e, t, written, he, ht, hsink, fun d rest hd hsource => ?_⟩
  rw [stepsShifts_append] at hlength
  obtain ⟨read, tail, rfl, hread⟩ : ∃ read tail, written = read ++ tail ∧
      read.length = stepsShifts pre fullRange + 4 :=
    ⟨written.take (stepsShifts pre fullRange + 4), written.drop (stepsShifts pre fullRange + 4),
      (List.take_append_drop _ _).symm, by rw [List.length_take]; omega⟩
  have htail : tail.length = stepsShifts post (stepsRange pre fullRange) + 1 := by
    rw [List.length_append] at hlength
    omega
  obtain ⟨hlow, hhigh⟩ := stream_bounds hpre hpost htail hnumber
  rw [List.append_assoc] at hsource
  obtain ⟨rs, u, hrs, hbits, hend, hvalue, heof, hrest, hcount⟩ :=
    execCollect_rcInitDec_decCommands hpre hd hsource hread hlow hhigh
  refine ⟨rs, u, hrs, hbits, BitVec.eq_of_toNat_eq (hend.trans hrange.symm), by omega, heof, ?_⟩
  rintro rfl
  have hone : tail.length = 1 := htail
  rw [List.length_append, hone, Nat.add_sub_cancel, List.drop_left]
  exact ⟨hrest, hcount⟩

end Sys2Proof.Machine
end

section
/-! SUPPORT. The predictor (44_predictor R186 to R192): its 16-bit words as exact integers taken mod 2^16, and what each
PR_ command answers in a block that is not faulted. -/
namespace Sys2Proof.Machine

/-! ### Samples as integers mod 2^16 -/

theorem ofInt_sub {w : Nat} (x y : Int) : BitVec.ofInt w (x - y) = BitVec.ofInt w x - BitVec.ofInt w y := by
  rw [Int.sub_eq_add_neg, BitVec.ofInt_add, BitVec.ofInt_neg, BitVec.sub_eq_add_neg]

theorem ofInt_toNat {w : Nat} (v : BitVec w) : BitVec.ofInt w v.toNat = v := by
  rw [BitVec.ofInt_natCast, BitVec.ofNat_toNat, BitVec.setWidth_eq]

theorem ofInt_emod (z : Int) : BitVec.ofInt 16 (z % 65536) = BitVec.ofInt 16 z := by
  apply BitVec.eq_of_toNat_eq
  rw [BitVec.toNat_ofInt, BitVec.toNat_ofInt]
  omega

theorem zext_ofInt (z : Int) : zext (BitVec.ofInt 16 z) = BitVec.ofInt 32 (z % 65536) := by
  apply BitVec.eq_of_toNat_eq
  rw [zext, BitVec.toNat_setWidth, BitVec.toNat_ofInt, BitVec.toNat_ofInt]
  omega

/-! ### The prediction, the residual and the reconstruction -/

/-- The prediction before it is taken mod 2^16 (R186). -/
def exactPred (h : History) : Int := 2 * (h.last1.toNat : Int) - h.last2.toNat

theorem pred_of_ofInt {h : History} {x y : Int} (hx : h.last1 = BitVec.ofInt 16 x) (hy : h.last2 = BitVec.ofInt 16 y) :
    pred h = BitVec.ofInt 16 (2 * x - y) := by
  rw [pred, hx, hy, ofInt_sub, BitVec.ofInt_mul]
  rfl

theorem pred_eq_ofInt (h : History) : pred h = BitVec.ofInt 16 (exactPred h) :=
  pred_of_ofInt (ofInt_toNat h.last1).symm (ofInt_toNat h.last2).symm

theorem sub_pred_eq_ofInt (h : History) (v : Sample) :
    v - pred h = BitVec.ofInt 16 ((v.toNat : Int) - exactPred h % 65536) := by
  rw [ofInt_sub, ofInt_emod, ofInt_toNat, pred_eq_ofInt]

theorem pred_add_eq_ofInt (h : History) (v : Sample) :
    pred h + v = BitVec.ofInt 16 (exactPred h % 65536 + v.toNat) := by
  rw [BitVec.ofInt_add, ofInt_emod, ofInt_toNat, pred_eq_ofInt]

/-- The recurrence of R186 continues a line through the last two samples (R192 (a)). -/
theorem pred_of_line {h : History} {α β n : Int} (h2 : h.last2 = BitVec.ofInt 16 (α + β * (n - 2)))
    (h1 : h.last1 = BitVec.ofInt 16 (α + β * (n - 1))) : pred h = BitVec.ofInt 16 (α + β * n) := by
  have hline : 2 * (α + β * (n - 1)) - (α + β * (n - 2)) = α + β * n := by ring
  rw [pred_of_ofInt h1 h2, hline]

/-! ### The commands -/

section
variable {s : State} (hs : faulted s = false)
include hs

theorem exec_prInit : exec .prInit s = .next (effect .prInit s) := by
  rw [exec, execPrInit, unlessFaulted_of_clear hs, effect]

theorem exec_prPredict (c : Channel) : exec (.prPredict c) s = .next (effect (.prPredict c) s) := by
  rw [exec, execPrPredict, unlessFaulted_of_clear hs, effect]

theorem exec_prResidual (c : Channel) (v : BitVec 16) :
    exec (.prResidual c v) s = .next (effect (.prResidual c v) s) := by
  rw [exec, execPrResidual, unlessFaulted_of_clear hs, effect]

theorem exec_prRecon (c : Channel) (v : BitVec 16) : exec (.prRecon c v) s = .next (effect (.prRecon c v) s) := by
  rw [exec, execPrRecon, unlessFaulted_of_clear hs, effect]

theorem exec_prShift (c : Channel) (v : BitVec 16) : exec (.prShift c v) s = .next (effect (.prShift c v) s) := by
  rw [exec, execPrShift, unlessFaulted_of_clear hs, effect]

theorem exec_prPredict_exact (c : Channel) :
    exec (.prPredict c) s = .next { s with res := BitVec.ofInt 32 (exactPred (histOf s c) % 65536) } := by
  rw [exec_prPredict hs, effect, pred_eq_ofInt, zext_ofInt, setRes]

theorem exec_prResidual_exact (c : Channel) (v : BitVec 16) : exec (.prResidual c v) s =
    .next { s with res := BitVec.ofInt 32 (((v.toNat : Int) - exactPred (histOf s c) % 65536) % 65536) } := by
  rw [exec_prResidual hs, effect, sub_pred_eq_ofInt, zext_ofInt, setRes]

theorem exec_prRecon_exact (c : Channel) (v : BitVec 16) : exec (.prRecon c v) s =
    .next { s with res := BitVec.ofInt 32 ((exactPred (histOf s c) % 65536 + v.toNat) % 65536) } := by
  rw [exec_prRecon hs, effect, pred_add_eq_ofInt, zext_ofInt, setRes]

/-- PR_RECON of the residual gives the sample back (R190). -/
theorem exec_prRecon_residual (c : Channel) (v : BitVec 16) :
    exec (.prRecon c (v - pred (histOf s c))) s = .next { s with res := v.setWidth 32 } := by
  have hundo : pred (histOf s c) + (v - pred (histOf s c)) = v := add_sub_cancel _ _
  rw [exec_prRecon hs, effect, hundo, zext, setRes]

theorem exec_prRecon_residual_exact (c : Channel) (v : BitVec 16) :
    exec (.prRecon c (BitVec.ofInt 16 (((v.toNat : Int) - exactPred (histOf s c) % 65536) % 65536))) s =
      .next { s with res := v.setWidth 32 } := by
  rw [ofInt_emod, ← sub_pred_eq_ofInt, exec_prRecon_residual hs]

end

/-! ### The statements -/

/-- Settles O47: each result is a 16-bit word read as the exact integer mod 2^16, and the two differences cancel; the
two channels differ in the operand bit and the history alone. -/
theorem prPredictResidualReconResult : Obligations.PrPredictResidualReconResult := by
  intro c v s hs
  have hpredict := exec_prPredict_exact hs c
  have hresidual := exec_prResidual_exact hs c v
  have hrecon := exec_prRecon_exact hs c v
  have hundo := exec_prRecon_residual_exact hs c v
  cases c <;> exact ⟨rfl, rfl, rfl, hpredict, hresidual, hrecon, hundo⟩

/-- Settles O48: the prediction is the next point of the line. -/
theorem linearSignalHasZeroResidual : Obligations.LinearSignalHasZeroResidual := by
  intro c s α β n hs h2 h1
  rw [exec_prResidual hs, effect, pred_of_line h2 h1, BitVec.sub_self]
  rfl

/-- Settles O46: the effects of the two commands, with the history of either channel written out. -/
theorem prInitShiftResult : Obligations.PrInitShiftResult := fun v _ hs =>
  ⟨rfl, rfl, rfl, exec_prInit hs, exec_prShift hs .a v, exec_prShift hs .b v⟩

end Sys2Proof.Machine
end

section
/-! SUPPORT. The CX_ commands behind their gates (45_codec R198 to R201), and the frame commands as their parts: the
residual decoder neither reads nor writes RES, so CX_DEC_RES may stand for each half of CX_DEC_FRAME. -/
namespace Sys2Proof.Machine

/-! ### Gates -/

/-- No check of a CX_ command for MODE `m` stops it. -/
structure Ready (m : Mode) (s : State) : Prop where
  clear : faulted s = false
  mode : s.mode = m
  valid : s.mtValid = true

theorem SameOutsideCodec.ready {s t : State} {m : Mode} (h : SameOutsideCodec s t) (hs : Ready m s) : Ready m t := by
  unfold SameOutsideCodec at h
  rw [h]
  exact ⟨hs.clear, hs.mode, hs.valid⟩

theorem Ready.setRes {s : State} {m : Mode} (h : Ready m s) (v : BitVec 32) : Ready m (setRes s v) :=
  ⟨h.clear, h.mode, h.valid⟩

theorem Ready.shiftBoth {s : State} {m : Mode} (h : Ready m s) (a b : Sample) : Ready m (shiftBoth a b s) :=
  ⟨h.clear, h.mode, h.valid⟩

/-- A CX_ command in its MODE raises ModelUninit without a model (60_exceptions R230, R238). -/
theorem exec_cx_of_uninit {i : Instr} {m : Mode} {s : State} (hi : needsModel i = true) (hmode : neededMode i = some m)
    (hs : faulted s = false) (hm : s.mode = m) (hv : s.mtValid = false) :
    exec i s = .next (raise .modelUninit i s) := by
  have hgate (k : Result) :
      unlessFaulted s (requireMode m i s (requireModel i s k)) = .next (raise .modelUninit i s) := by
    rw [unlessFaulted_of_clear hs, requireMode_of_eq hm, requireModel_of_uninit hv]
  cases i with
  | cxEncRes | cxDecRes | cxEncFrame | cxDecFrame =>
    obtain rfl := Option.some.inj hmode
    exact hgate _
  | bmInit | bmGetp | bmUpdate => exact absurd hmode.symm (Option.some_ne_none m)
  | _ => exact absurd hi Bool.false_ne_true

/-- A CX_ command that no check stops takes its effect. -/
theorem exec_cx_of_ready {i : Instr} {m : Mode} {s : State} (hi : needsModel i = true) (hmode : neededMode i = some m)
    (hs : Ready m s) : exec i s = .next (effect i s) := by
  have hgate (k : Result) : unlessFaulted s (requireMode m i s (requireModel i s k)) = k := by
    rw [unlessFaulted_of_clear hs.clear, requireMode_of_eq hs.mode, requireModel_of_valid hs.valid]
  cases i with
  | cxEncRes | cxDecRes | cxEncFrame | cxDecFrame =>
    obtain rfl := Option.some.inj hmode
    exact hgate _
  | bmInit | bmGetp | bmUpdate => exact absurd hmode.symm (Option.some_ne_none m)
  | _ => exact absurd hi Bool.false_ne_true

/-! ### What the coder does not read -/

/-- `u` with the coder registers and the ports of `s`. -/
def withCoder (u s : State) : State := { u with rc := s.rc, io := s.io }

/-- The procedure reads and writes nothing but the coder registers and the ports. -/
def CoderLocal (f : State → State) : Prop := ∀ u s, f (withCoder u s) = withCoder u (f s)

theorem CoderLocal.comp {f g : State → State} (hf : CoderLocal f) (hg : CoderLocal g) : CoderLocal (f ∘ g) :=
  fun u s => (congrArg f (hg u s)).trans (hf u (g s))

/-- A write outside the coder may be made before or after. -/
theorem CoderLocal.setRes {f : State → State} (hf : CoderLocal f) (s : State) (v : BitVec 32) :
    f (setRes s v) = setRes (f s) v := by
  have hself : f s = withCoder s (f s) := hf s s
  exact (hf (Machine.setRes s v) s).trans (congrArg (Machine.setRes · v) hself.symm)

theorem CoderLocal.mtWrite {f : State → State} (hf : CoderLocal f) (s : State) (i : Nat) (p : Prob) :
    f (mtWrite s i p) = mtWrite (f s) i p := by
  have hself : f s = withCoder s (f s) := hf s s
  exact (hf (Machine.mtWrite s i p) s).trans (congrArg (Machine.mtWrite · i p) hself.symm)

theorem CoderLocal.mtUpdate {f : State → State} (hf : CoderLocal f) (s : State) (i : Nat) (bit : Bool) :
    f (mtUpdate s i bit) = mtUpdate (f s) i bit := by
  have hself : f s = withCoder s (f s) := hf s s
  have hread : mtRead (f s) i = mtRead s i := by rw [hself]; rfl
  rw [Machine.mtUpdate, Machine.mtUpdate, hf.mtWrite, hread]

theorem coderLocal_readIntoCode : CoderLocal readIntoCode := by
  intro u s
  have hio : (withCoder u s).io = s.io := rfl
  unfold readIntoCode srcRead
  rw [hio]
  cases s.io.source <;> rfl

theorem coderLocal_decNormalizeLoop (n : Nat) : CoderLocal (decNormalizeLoop n) := by
  induction n with
  | zero => exact fun _ _ => rfl
  | succ n ih =>
    intro u s
    have hrc : (withCoder u s).rc = s.rc := rfl
    unfold decNormalizeLoop
    rw [hrc]
    split
    · rw [coderLocal_readIntoCode u s]
      exact ih u (shiftRange (readIntoCode s))
    · rfl

theorem coderLocal_decNormalize : CoderLocal decNormalize := coderLocal_decNormalizeLoop normBound

theorem coderLocal_decInterval (p : Nat) : CoderLocal fun s => (decInterval p s).2 := by
  intro u s
  have hrc : (withCoder u s).rc = s.rc := rfl
  simp only [decInterval, hrc]
  split <;> rfl

theorem coderLocal_decDirectInterval : CoderLocal fun s => (decDirectInterval s).2 := by
  intro u s
  have hrc : (withCoder u s).rc = s.rc := rfl
  simp only [decDirectInterval, hrc]
  split <;> rfl

theorem coderLocal_decBit (p : Nat) : CoderLocal fun s => (decBit p s).2 :=
  coderLocal_decNormalize.comp (coderLocal_decInterval p)

theorem coderLocal_decDirectBit : CoderLocal fun s => (decDirectBit s).2 :=
  coderLocal_decNormalize.comp coderLocal_decDirectInterval

/-- The bit a decoding step finds, from the coder registers alone (43_range_coder R171). -/
theorem decBit_fst (p : Nat) (s : State) : (decBit p s).1 = decide (partition s.rc.range p ≤ s.rc.code.toNat) := by
  rcases decInterval_cases p s with ⟨hlt, h⟩ | ⟨hge, h⟩
  · rw [decBit, h, decide_eq_false (Nat.not_le.2 hlt)]
  · rw [decBit, h, decide_eq_true hge]

theorem decDirectBit_fst (s : State) :
    (decDirectBit s).1 = decide (s.rc.range.toNat / 2 ≤ s.rc.code.toNat) := by
  rcases decDirectInterval_cases s with ⟨hlt, h⟩ | ⟨hge, h⟩
  · rw [decDirectBit, h, decide_eq_false (Nat.not_le.2 hlt)]
  · rw [decDirectBit, h, decide_eq_true hge]

/-! ### The residual decoder, step by step -/

/-- The entry may be updated after the normalisation: a modelled step decodes a bit and then updates its entry. -/
theorem decModelStep_eq (c : Channel) (ctx : Nat) (s : State) : decModelStep c ctx s =
    ((decBit (patchedProb (mtRead s (contextIndex c ctx))) s).1,
      mtUpdate (decBit (patchedProb (mtRead s (contextIndex c ctx))) s).2 (contextIndex c ctx)
        (decBit (patchedProb (mtRead s (contextIndex c ctx))) s).1) := by
  rw [decModelStep, coderLocal_decNormalize.mtUpdate]
  rfl

theorem decModelStep_setRes (c : Channel) (ctx : Nat) (s : State) (v : BitVec 32) :
    decModelStep c ctx (setRes s v) = ((decModelStep c ctx s).1, setRes (decModelStep c ctx s).2 v) := by
  have hlocal (p : Nat) := (coderLocal_decBit p).setRes s v
  simp only [decModelStep_eq, decBit_fst, mtRead_setRes, setRes_rc] at hlocal ⊢
  rw [hlocal]
  rfl

theorem decWalk_setRes (c : Channel) (n ctx : Nat) (s : State) (v : BitVec 32) :
    decWalk c n ctx (setRes s v) = ((decWalk c n ctx s).1, setRes (decWalk c n ctx s).2 v) := by
  induction n generalizing ctx s with
  | zero => rfl
  | succ n ih => rw [decWalk, decModelStep_setRes, ih, decWalk]

theorem decDirectBit_setRes (s : State) (v : BitVec 32) :
    decDirectBit (setRes s v) = ((decDirectBit s).1, setRes (decDirectBit s).2 v) :=
  Prod.ext (by rw [decDirectBit_fst, decDirectBit_fst, setRes_rc]) (coderLocal_decDirectBit.setRes s v)

theorem decDirectBits_setRes (n ctx : Nat) (s : State) (v : BitVec 32) :
    decDirectBits n ctx (setRes s v) = ((decDirectBits n ctx s).1, setRes (decDirectBits n ctx s).2 v) := by
  induction n generalizing ctx s with
  | zero => rfl
  | succ n ih => rw [decDirectBits, decDirectBit_setRes, ih, decDirectBits]

theorem decResidual_setRes (c : Channel) (s : State) (v : BitVec 32) :
    decResidual c (setRes s v) = ((decResidual c s).1, setRes (decResidual c s).2 v) := by
  rw [decResidual, decWalk_setRes, decDirectBits_setRes, decResidual]

/-! ### The statements -/

theorem SameOutsideCodec.histA {s t : State} (h : SameOutsideCodec s t) : t.histA = s.histA := by
  unfold SameOutsideCodec at h
  rw [h]

theorem SameOutsideCodec.histB {s t : State} (h : SameOutsideCodec s t) : t.histB = s.histB := by
  unfold SameOutsideCodec at h
  rw [h]

theorem setWidth_zext (v : Sample) : (zext v).setWidth 16 = v := by
  rw [zext, BitVec.setWidth_setWidth_of_le v (by decide), BitVec.setWidth_eq]

/-- PR_SHIFT of one sample per channel is the shift of both histories at the end of a frame (45_codec R200, R201). -/
theorem execAll_prShift_both {s : State} (hs : faulted s = false) (a b : Sample) :
    execAll [.prShift .a a, .prShift .b b] s = .next (shiftBoth a b s) := by
  have hfirst : exec (.prShift .b b) (effect (.prShift .a a) s) = .next (shiftBoth a b s) :=
    exec_prShift (s := effect (.prShift .a a) s) hs .b b
  rw [execAll_cons_of_next (exec_prShift hs .a a), execAll_cons_of_next hfirst, execAll]

/-- Settles O51: the gates in order; else the two residual commands run without a fault, and what they lead to has the
histories of the start, so both shifts are those of the frame. -/
theorem cxEncFrameEqualsParts : Obligations.CxEncFrameEqualsParts := by
  intro a b s hs
  refine ⟨rfl, fun hm => exec_of_wrongMode rfl hs hm, fun hm hv => exec_cx_of_uninit rfl rfl hs hm hv,
    fun hm hv => ?_⟩
  have hready : Ready .enc s := ⟨hs, hm, hv⟩
  have hfirst := sameOutsideCodec_encResidual .a (a - pred s.histA) s
  have hsecond := sameOutsideCodec_encResidual .b (b - pred s.histB) (encResidual .a (a - pred s.histA) s)
  have hmiddle := hfirst.ready hready
  have hboth := hfirst.trans hsecond
  refine ⟨_, ?_, exec_cx_of_ready rfl rfl hready, congrArg (shiftHistory · a) hboth.histA,
    congrArg (shiftHistory · b) hboth.histB⟩
  exact (execAll_cons_of_next (exec_cx_of_ready rfl rfl hready) _).trans <|
    (execAll_cons_of_next (exec_cx_of_ready rfl rfl hmiddle) _).trans <|
    execAll_prShift_both (hboth.ready hready).clear a b

/-- Settles O52: the gates in order; else CX_DEC_RES of either channel, where the RES written in between does not
matter, and both shifts. -/
theorem cxDecFrameEqualsParts : Obligations.CxDecFrameEqualsParts := by
  intro s hs
  refine ⟨rfl, fun hm => exec_of_wrongMode rfl hs hm, fun hm hv => exec_cx_of_uninit rfl rfl hs hm hv,
    fun hm hv => ?_⟩
  have hready : Ready .dec s := ⟨hs, hm, hv⟩
  have hfirst : Ready .dec (effect (.cxDecRes .a) s) :=
    ((sameOutsideCodec_decResidual .a s).ready hready).setRes _
  have hsecond : Ready .dec (effect (.cxDecRes .b) (effect (.cxDecRes .a) s)) :=
    ((sameOutsideCodec_decResidual .b _).ready hfirst).setRes _
  have hb := decResidual_setRes .b (decResidual .a s).2 (zext (decResidual .a s).1)
  refine ⟨_, _, _, _, _, exec_cx_of_ready rfl rfl hready, exec_cx_of_ready rfl rfl hfirst, rfl, rfl,
    execAll_prShift_both hsecond.clear _ _, (exec_cx_of_ready rfl rfl hready).trans ?_⟩
  simp only [effect, hb, setRes_res, setWidth_zext]
  rfl

end Sys2Proof.Machine
end

section
/-! SUPPORT. The residual coder as coding steps (45_codec R196, R197): the bits of a residual and a table fix the steps,
each with the probability its entry holds by then. The encoder takes the path of intervals of these steps. -/
namespace Sys2Proof.Machine

/-! ### The steps of a residual -/

/-- The table after an entry is updated. -/
def tableUpdate (m : Memory 13) (i : Nat) (bit : Bool) : Memory 13 :=
  Memory.write mtDefault m i (BitVec.ofNat 13 (update (Memory.read mtDefault m i).toNat bit))

theorem mtUpdate_mt (s : State) (i : Nat) (bit : Bool) : (mtUpdate s i bit).mt = tableUpdate s.mt i bit := rfl

/-- The coding steps of a walk from a context. -/
def walkSteps (c : Channel) : List Bool → Nat → Memory 13 → List CodeStep
  | [], _, _ => []
  | bit :: bits, ctx, m =>
    .modelled (Memory.read mtDefault m (contextIndex c ctx)) bit ::
      walkSteps c bits (2 * ctx + bit.toNat) (tableUpdate m (contextIndex c ctx) bit)

/-- The table a walk leaves. -/
def walkTable (c : Channel) : List Bool → Nat → Memory 13 → Memory 13
  | [], _, m => m
  | bit :: bits, ctx, m => walkTable c bits (2 * ctx + bit.toNat) (tableUpdate m (contextIndex c ctx) bit)

/-- The coding steps of a residual. -/
def residualSteps (c : Channel) (r : Sample) (m : Memory 13) : List CodeStep :=
  walkSteps c (modelledBits r) 1 m ++ (directBits r).map .direct

/-- The table a residual leaves. -/
def residualTable (c : Channel) (r : Sample) (m : Memory 13) : Memory 13 := walkTable c (modelledBits r) 1 m

theorem encModelStep_mt (c : Channel) (ctx : Nat) (bit : Bool) (s : State) :
    (encModelStep c ctx bit s).mt = tableUpdate s.mt (contextIndex c ctx) bit := by
  rw [encModelStep, mtUpdate_mt, sameOutsideCoder_mt (sameOutsideCoder_encBit _ bit s)]

theorem encWalk_mt (c : Channel) (bits : List Bool) (ctx : Nat) (s : State) :
    (encWalk c bits ctx s).mt = walkTable c bits ctx s.mt := by
  induction bits generalizing ctx s with
  | nil => rfl
  | cons bit bits ih => rw [encWalk, ih, encModelStep_mt, walkTable]

theorem encResidual_mt (c : Channel) (r : Sample) (s : State) :
    (encResidual c r s).mt = residualTable c r s.mt := by
  rw [encResidual, sameOutsideCoder_mt (sameOutsideCoder_encDirectBits _ _), encWalk_mt, residualTable]

/-! ### The encoder along a path -/

theorem stepsRange_append (xs ys : List CodeStep) (r : Nat) :
    stepsRange (xs ++ ys) r = stepsRange ys (stepsRange xs r) := by
  induction xs generalizing r with
  | nil => rfl
  | cons x xs ih => exact ih (stepRange r x)

/-- The coder registers and the ports alone. -/
def coderPart (s : State) : State := withCoder State.reset s

theorem Encodes.coderPart {s t : State} {out : List Octet} {n x : Nat} (h : Encodes s t out n x) :
    Encodes (coderPart s) (coderPart t) out n x where
  frame := congrArg Machine.coderPart h.frame
  code := h.code
  srcCount := h.srcCount
  srcEof := h.srcEof
  snkCount := h.snkCount
  length := h.length
  number := h.number

/-- From `s` to `t` the coder encodes the steps `xs`, whatever happens outside it. -/
structure EncPath (xs : List CodeStep) (s t : State) : Prop where
  legal : ∀ x ∈ xs, x.legal
  encodes : ∃ out, Encodes (coderPart s) (coderPart t) out (stepsShifts xs s.rc.range.toNat)
    (stepsOffset xs s.rc.range.toNat)
  range : t.rc.range.toNat = stepsRange xs s.rc.range.toNat

theorem EncPath.refl (s : State) : EncPath [] s s := ⟨by simp, ⟨[], .refl _⟩, rfl⟩

theorem EncPath.trans {xs ys : List CodeStep} {s t u : State} (h : EncPath xs s t) (k : EncPath ys t u) :
    EncPath (xs ++ ys) s u := by
  obtain ⟨out₁, h₁⟩ := h.encodes
  obtain ⟨out₂, h₂⟩ := k.encodes
  rw [h.range] at h₂
  refine ⟨List.forall_mem_append.2 ⟨h.legal, k.legal⟩, ⟨out₁ ++ out₂, ?_⟩, ?_⟩
  · rw [stepsShifts_append, stepsOffset_append]
    exact h₁.trans h₂
  · rw [k.range, h.range, stepsRange_append]

/-- The path does not speak of what lies outside the coder. -/
theorem EncPath.congr {xs : List CodeStep} {s t u : State} (h : EncPath xs s t) (hu : coderPart u = coderPart t) :
    EncPath xs s u := by
  have hrc : u.rc = t.rc := congrArg (·.rc) hu
  exact ⟨h.legal, hu ▸ h.encodes, hrc ▸ h.range⟩

/-- The encoder reads and writes no more of the ports than the sink. -/
theorem EncPath.io {xs : List CodeStep} {s t : State} (h : EncPath xs s t) :
    t.io = { s.io with sink := t.io.sink } := by
  obtain ⟨out, henc⟩ := h.encodes
  have hio : t.io = { s.io with sink := s.io.sink ++ out } := congrArg (·.io) henc.frame
  rw [hio]

theorem encPath_encCommand {x : CodeStep} (hx : x.legal) {s : State} (h : CoderInv .enc s.rc) :
    EncPath [x] s (effect (encCommand x) s) := by
  obtain ⟨⟨out, henc⟩, hrange⟩ := encodes_encCommand hx h
  refine ⟨List.forall_mem_singleton.2 hx, ⟨out, ?_⟩, hrange⟩
  simpa [stepsShifts, stepsOffset, stepShifts] using henc.coderPart

/-! ### The encoder along a residual -/

/-- A probability the coder accepts is given to it as it is (45_codec R204). -/
theorem patchedProb_of_legal {p : Prob} (h : 1 ≤ p.toNat) : patchedProb p = p.toNat := if_neg (by omega)

/-- Every entry is a probability the coder accepts (42_bit_model R150). -/
theorem mtRead_legal {s : State} (h : TableBounded s.mt) (i : Nat) (bit : Bool) :
    (CodeStep.modelled (mtRead s i) bit).legal := by
  obtain ⟨hlow, hhigh⟩ := mtRead_bounded h i
  exact ⟨by omega, by omega⟩

/-- A modelled step of the walk is RC_ENC with the entry's probability, then BM_UPDATE. -/
theorem encModelStep_eq (c : Channel) (ctx : Nat) (bit : Bool) {s : State} (h : TableBounded s.mt) :
    encModelStep c ctx bit s =
      mtUpdate (effect (.rcEnc (mtRead s (contextIndex c ctx)) bit) s) (contextIndex c ctx) bit := by
  obtain ⟨hlow, -⟩ := mtRead_legal h (contextIndex c ctx) bit
  rw [encModelStep, patchedProb_of_legal hlow, effect]

theorem encPath_encModelStep {s : State} (h : CodecInv .enc s) (c : Channel) (ctx : Nat) (bit : Bool) :
    EncPath [.modelled (mtRead s (contextIndex c ctx)) bit] s (encModelStep c ctx bit s) := by
  obtain ⟨hcoder, -, hbounded⟩ := h
  rw [encModelStep_eq c ctx bit hbounded]
  exact (encPath_encCommand (mtRead_legal hbounded (contextIndex c ctx) bit) hcoder).congr rfl

theorem encPath_encWalk (c : Channel) (bits : List Bool) {ctx : Nat} {s : State} (h : CodecInv .enc s)
    (hctx : (ctx + 1) * 2 ^ bits.length ≤ 2 ^ 14) :
    EncPath (walkSteps c bits ctx s.mt) s (encWalk c bits ctx s) := by
  induction bits generalizing ctx s with
  | nil => exact .refl s
  | cons bit bits ih =>
    obtain ⟨hlt, hnext⟩ := context_step hctx bit
    have hrest := ih (codecInv_encModelStep h c hlt bit) hnext
    rw [encModelStep_mt] at hrest
    exact (encPath_encModelStep h c ctx bit).trans hrest

theorem encPath_encDirectBits (bits : List Bool) {s : State} (h : CoderInv .enc s.rc) :
    EncPath (bits.map .direct) s (encDirectBits bits s) := by
  induction bits generalizing s with
  | nil => exact .refl s
  | cons bit bits ih =>
    exact (encPath_encCommand (x := .direct bit) trivial h).trans (ih (coderInv_encDirectBit h bit))

/-- The 13 modelled steps from context 1 stay inside the tree. -/
theorem modelledBits_context (r : Sample) : (1 + 1) * 2 ^ (modelledBits r).length ≤ 2 ^ 14 := by
  simp [modelledBits, Config.nonNoiseBits]

theorem encPath_encResidual {s : State} (h : CodecInv .enc s) (c : Channel) (r : Sample) :
    EncPath (residualSteps c r s.mt) s (encResidual c r s) := by
  obtain ⟨hcoder, -⟩ := codecInv_encWalk c (modelledBits r) h (modelledBits_context r)
  exact (encPath_encWalk c _ h (modelledBits_context r)).trans (encPath_encDirectBits _ hcoder)

end Sys2Proof.Machine
end

section
/-! SUPPORT. The CX_ residual commands and the split commands (45_codec R198, R199, 70_reset R263): along the walk every
entry is a probability RC_ENC and RC_DEC accept, so none of the split commands faults. -/
namespace Sys2Proof.Machine

/-! ### One modelled step -/

theorem toNat_contextIndex (c : Channel) {ctx : Nat} (h : ctx < 8192) :
    (BitVec.ofNat 16 (contextIndex c ctx)).toNat = contextIndex c ctx := by
  have hlt : contextIndex c ctx < 2 ^ 16 := contextIndex_lt c h
  rw [BitVec.toNat_ofNat, Nat.mod_eq_of_lt hlt]

theorem Ready.effect_encCommand {s : State} {m : Mode} (h : Ready m s) (x : CodeStep) :
    Ready m (effect (encCommand x) s) := by
  cases x with
  | modelled p bit => exact (sameOutsideCoder_encBit p.toNat bit s).toCodec.ready h
  | direct bit => exact (sameOutsideCoder_encDirectBit bit s).toCodec.ready h

theorem Ready.setResBit {s : State} {m : Mode} (h : Ready m s) (bit : Bool) : Ready m (setResBit s bit) := h.setRes _

/-- RC_ENC with the entry's probability and then BM_UPDATE are one step of the encoder's walk. -/
theorem exec_rcEnc_bmUpdate {s : State} (hs : Ready .enc s) (h : CodecInv .enc s) (c : Channel) {ctx : Nat}
    (hctx : ctx < 8192) (bit : Bool) : ∃ t, exec (.rcEnc (mtRead s (contextIndex c ctx)) bit) s = .next t ∧
      exec (.bmUpdate (BitVec.ofNat 16 (contextIndex c ctx)) bit) t = .next (encModelStep c ctx bit s) := by
  obtain ⟨-, -, hbounded⟩ := h
  have hlegal := mtRead_legal hbounded (contextIndex c ctx) bit
  have ht := hs.effect_encCommand (.modelled (mtRead s (contextIndex c ctx)) bit)
  refine ⟨_, exec_rcEnc_of_legal hs.clear hs.mode hlegal bit, (exec_bmUpdate_of_valid ht.clear ht.valid _ bit).trans ?_⟩
  rw [effect, toNat_contextIndex c hctx, encModelStep_eq c ctx bit hbounded]
  rfl

theorem toNat_zext_ofBool (bit : Bool) : (zext (BitVec.ofBool bit)).toNat = bit.toNat := by cases bit <;> rfl

theorem zext_ofBool_beq_one (bit : Bool) : (zext (BitVec.ofBool bit) == 1#32) = bit := by cases bit <;> rfl

/-- RC_DEC with the entry's probability and then BM_UPDATE of the bit in RES are one step of the decoder's walk, but
for RES. -/
theorem exec_rcDec_bmUpdate {s : State} (hs : Ready .dec s) (h : CodecInv .dec s) (c : Channel) {ctx : Nat}
    (hctx : ctx < 8192) : ∃ t, exec (.rcDec (mtRead s (contextIndex c ctx))) s = .next t ∧
      t.res = zext (BitVec.ofBool (decModelStep c ctx s).1) ∧
      exec (.bmUpdate (BitVec.ofNat 16 (contextIndex c ctx)) (decModelStep c ctx s).1) t =
        .next (setRes (decModelStep c ctx s).2 t.res) := by
  obtain ⟨-, -, hbounded⟩ := h
  have hlegal := mtRead_legal hbounded (contextIndex c ctx) true
  have hp := patchedProb_of_legal hlegal.1
  have ht := ((sameOutsideCoder_decBit (mtRead s (contextIndex c ctx)).toNat s).toCodec.ready hs).setResBit
    (decBit (mtRead s (contextIndex c ctx)).toNat s).1
  rw [decModelStep_eq, hp]
  refine ⟨_, exec_rcDec_of_legal hs.clear hs.mode hlegal, rfl,
    (exec_bmUpdate_of_valid ht.clear ht.valid _ _).trans ?_⟩
  rw [effect, toNat_contextIndex c hctx]
  rfl

/-! ### The walks -/

theorem splitEncWalk_eq (c : Channel) (bits : List Bool) {ctx : Nat} {s : State} (hs : Ready .enc s)
    (h : CodecInv .enc s) (hctx : (ctx + 1) * 2 ^ bits.length ≤ 2 ^ 14) :
    splitEncWalk c bits ctx s = some (encWalk c bits ctx s) := by
  induction bits generalizing ctx s with
  | nil => rfl
  | cons bit bits ih =>
    obtain ⟨hlt, hnext⟩ := context_step hctx bit
    obtain ⟨t, henc, hupdate⟩ := exec_rcEnc_bmUpdate hs h c hlt bit
    simp only [splitEncWalk, toNat_contextIndex c hlt, henc, nextOf, Option.bind_some, hupdate]
    exact ih ((sameOutsideCodec_encModelStep c ctx bit s).ready hs) (codecInv_encModelStep h c hlt bit) hnext

theorem splitEncDirect_eq (bits : List Bool) {s : State} (hs : Ready .enc s) :
    splitEncDirect bits s = some (encDirectBits bits s) := by
  induction bits generalizing s with
  | nil => rfl
  | cons bit bits ih =>
    rw [splitEncDirect, exec_rcEncDirect hs.clear hs.mode, nextOf, Option.bind_some]
    exact ih (hs.effect_encCommand (.direct bit))

theorem splitEncResidual_eq {s : State} (hs : Ready .enc s) (h : CodecInv .enc s) (c : Channel) (r : Sample) :
    splitEncResidual c r s = some (encResidual c r s) := by
  rw [splitEncResidual, splitEncWalk_eq c _ hs h (modelledBits_context r), Option.bind_some,
    splitEncDirect_eq _ ((sameOutsideCodec_encWalk c _ 1 s).ready hs), encResidual]

theorem exists_splitDecWalk_eq (c : Channel) (n : Nat) {ctx : Nat} {s : State} (hs : Ready .dec s)
    (h : CodecInv .dec s) (hctx : (ctx + 1) * 2 ^ n ≤ 2 ^ 14) :
    ∃ v, splitDecWalk c n ctx s = some ((decWalk c n ctx s).1, setRes (decWalk c n ctx s).2 v) := by
  induction n generalizing ctx s with
  | zero => exact ⟨s.res, rfl⟩
  | succ n ih =>
    obtain ⟨hlt, hnext⟩ := context_step hctx (decModelStep c ctx s).1
    obtain ⟨t, hdec, hres, hupdate⟩ := exec_rcDec_bmUpdate hs h c hlt
    obtain ⟨w, hrest⟩ := ih (s := setRes (decModelStep c ctx s).2 t.res)
      (((sameOutsideCodec_decModelStep c ctx s).ready hs).setRes _) (codecInv_decModelStep h c hlt) hnext
    refine ⟨w, ?_⟩
    have hbit : (t.res == 1#32) = (decModelStep c ctx s).1 := by rw [hres, zext_ofBool_beq_one]
    have hnat : t.res.toNat = (decModelStep c ctx s).1.toNat := by rw [hres, toNat_zext_ofBool]
    simp only [splitDecWalk, toNat_contextIndex c hlt, hdec, nextOf, Option.bind_some, hbit, hnat, hupdate, hrest,
      decWalk_setRes, decWalk]
    rfl

theorem exists_splitDecDirect_eq (n ctx : Nat) {s : State} (hs : Ready .dec s) :
    ∃ v, splitDecDirect n ctx s = some ((decDirectBits n ctx s).1, setRes (decDirectBits n ctx s).2 v) := by
  induction n generalizing ctx s with
  | zero => exact ⟨s.res, rfl⟩
  | succ n ih =>
    have ht : Ready .dec (effect .rcDecDirect s) :=
      ((sameOutsideCoder_decDirectBit s).toCodec.ready hs).setResBit _
    obtain ⟨w, hrest⟩ := ih (2 * ctx + (decDirectBit s).1.toNat) ht
    refine ⟨w, ?_⟩
    have hres : (effect .rcDecDirect s).res.toNat = (decDirectBit s).1.toNat := toNat_zext_ofBool _
    rw [splitDecDirect, exec_rcDecDirect hs.clear hs.mode, nextOf, Option.bind_some, hres, hrest, effect, setResBit,
      decDirectBits_setRes, decDirectBits]
    rfl

theorem exists_splitDecResidual_eq {s : State} (hs : Ready .dec s) (h : CodecInv .dec s) (c : Channel) :
    ∃ v, splitDecResidual c s = some
      ((decDirectBits Config.noiseBits (decWalk c Config.nonNoiseBits 1 s).1
        (decWalk c Config.nonNoiseBits 1 s).2).1 - 0x10000, setRes (decResidual c s).2 v) := by
  obtain ⟨w, hwalk⟩ := exists_splitDecWalk_eq c Config.nonNoiseBits (ctx := 1) hs h (by decide)
  obtain ⟨v, hdirect⟩ := exists_splitDecDirect_eq Config.noiseBits (decWalk c Config.nonNoiseBits 1 s).1
    (((sameOutsideCodec_decWalk c _ 1 s).ready hs).setRes w)
  refine ⟨v, ?_⟩
  rw [splitDecResidual, hwalk, Option.bind_some, hdirect, decDirectBits_setRes, decResidual]
  rfl

/-! ### The context and the residual -/

/-- Each step appends one bit to the context. -/
theorem context_append {ctx n k : Nat} (hk : k < 2 ^ n) (bit : Bool) : ∃ j < 2 ^ (n + 1),
    (2 * ctx + bit.toNat) * 2 ^ n + k = ctx * 2 ^ (n + 1) + j := by
  have hbit : bit.toNat * 2 ^ n ≤ 1 * 2 ^ n := Nat.mul_le_mul_right _ (Bool.toNat_le bit)
  exact ⟨bit.toNat * 2 ^ n + k, by rw [Nat.pow_succ]; omega, by ring⟩

theorem decWalk_context (c : Channel) (n ctx : Nat) (s : State) :
    ∃ k < 2 ^ n, (decWalk c n ctx s).1 = ctx * 2 ^ n + k := by
  induction n generalizing ctx s with
  | zero => exact ⟨0, by simp, by simp [decWalk]⟩
  | succ n ih =>
    obtain ⟨k, hk, hwalk⟩ := ih (2 * ctx + (decModelStep c ctx s).1.toNat) (decModelStep c ctx s).2
    rw [decWalk, hwalk]
    exact context_append hk _

theorem decDirectBits_context (n ctx : Nat) (s : State) :
    ∃ k < 2 ^ n, (decDirectBits n ctx s).1 = ctx * 2 ^ n + k := by
  induction n generalizing ctx s with
  | zero => exact ⟨0, by simp, by simp [decDirectBits]⟩
  | succ n ih =>
    obtain ⟨k, hk, hbits⟩ := ih (2 * ctx + (decDirectBit s).1.toNat) (decDirectBit s).2
    rw [decDirectBits, hbits]
    exact context_append hk _

/-- The leading marker lies above the 16 bits of a residual. -/
theorem ofNat_xor_marker (k : Nat) : BitVec.ofNat 16 ((0x10000 + k) ^^^ 0x10000) = BitVec.ofNat 16 k := by
  have hmarker : BitVec.ofNat 16 0x10000 = 0#16 := rfl
  rw [BitVec.ofNat_xor, BitVec.ofNat_add, hmarker, BitVec.xor_zero, BitVec.zero_add]

/-- The residual is the context less its marker. -/
theorem exists_decResidual_eq (c : Channel) (s : State) : ∃ r < 65536,
    (decDirectBits Config.noiseBits (decWalk c Config.nonNoiseBits 1 s).1
      (decWalk c Config.nonNoiseBits 1 s).2).1 = 0x10000 + r ∧ (decResidual c s).1 = BitVec.ofNat 16 r := by
  obtain ⟨j, hj, hwalk⟩ := decWalk_context c Config.nonNoiseBits 1 s
  obtain ⟨k, hk, hbits⟩ := decDirectBits_context Config.noiseBits (decWalk c Config.nonNoiseBits 1 s).1
    (decWalk c Config.nonNoiseBits 1 s).2
  have hall : (decDirectBits Config.noiseBits (decWalk c Config.nonNoiseBits 1 s).1
      (decWalk c Config.nonNoiseBits 1 s).2).1 = 0x10000 + (j * 8 + k) := by
    rw [hbits, hwalk]
    ring
  have hj' : j < 8192 := hj
  have hk' : k < 8 := hk
  refine ⟨j * 8 + k, by omega, hall, ?_⟩
  rw [← ofNat_xor_marker (j * 8 + k), ← hall, decResidual]

/-! ### The ports -/

theorem SameOutsideCodec.frame {s t : State} (h : SameOutsideCodec s t) :
    t = { s with rc := t.rc, mt := t.mt, io := t.io } := by
  unfold SameOutsideCodec at h
  rw [h]

theorem readIntoCode_sink (s : State) : (readIntoCode s).io.sink = s.io.sink := by
  rw [readIntoCode]
  rcases srcRead_cases s with ⟨o, rest, -, h⟩ | ⟨-, h⟩ <;> rw [h]

theorem decNormalizeLoop_sink (n : Nat) (s : State) : (decNormalizeLoop n s).io.sink = s.io.sink := by
  induction n generalizing s with
  | zero => rfl
  | succ n ih =>
    unfold decNormalizeLoop
    split
    · rw [ih, shiftRange_io, readIntoCode_sink]
    · rfl

theorem decWalk_sink (c : Channel) (n ctx : Nat) (s : State) : (decWalk c n ctx s).2.io.sink = s.io.sink := by
  induction n generalizing ctx s with
  | zero => rfl
  | succ n ih =>
    rw [decWalk, ih, decModelStep]
    exact (decNormalizeLoop_sink _ _).trans (congrArg (·.sink) (decInterval_io _ s))

theorem decDirectBits_sink (n ctx : Nat) (s : State) : (decDirectBits n ctx s).2.io.sink = s.io.sink := by
  induction n generalizing ctx s with
  | zero => rfl
  | succ n ih =>
    rw [decDirectBits, ih, decDirectBit]
    exact (decNormalizeLoop_sink _ _).trans (congrArg (·.sink) (decDirectInterval_io s))

theorem decResidual_sink (c : Channel) (s : State) : (decResidual c s).2.io.sink = s.io.sink := by
  rw [decResidual, decDirectBits_sink, decWalk_sink]

/-! ### The statements -/

/-- Settles O49: the gates in order; else the walk of the split commands is the walk of the command, which takes no
more of the ports than the sink. -/
theorem cxEncResEqualsSplitCommands : Obligations.CxEncResEqualsSplitCommands := by
  intro c v s hs
  refine ⟨fun hm => exec_of_wrongMode rfl hs hm, fun hm hv => exec_cx_of_uninit rfl rfl hs hm hv, fun hm hv hinv => ?_⟩
  have hready : Ready .enc s := ⟨hs, hm, hv⟩
  have hcodec := codecInv_of_inv hinv hm
  have hframe := sameOutsideCodec_encResidual c v s
  have hio := (encPath_encResidual hcodec c v).io
  refine ⟨_, exec_cx_of_ready rfl rfl hready, splitEncResidual_eq hready hcodec c v, ?_⟩
  exact hframe.frame.trans
    (congrArg (fun io => { s with rc := (encResidual c v s).rc, mt := (encResidual c v s).mt, io := io }) hio)

/-- Settles O50: the gates in order; else the walk of the split commands is the walk of the command but for RES, where
the split commands leave the last bit and the command the residual. -/
theorem cxDecResEqualsSplitCommands : Obligations.CxDecResEqualsSplitCommands := by
  intro c s hs
  refine ⟨fun hm => exec_of_wrongMode rfl hs hm, fun hm hv => exec_cx_of_uninit rfl rfl hs hm hv, fun hm hv hinv => ?_⟩
  have hready : Ready .dec s := ⟨hs, hm, hv⟩
  obtain ⟨v, hsplit⟩ := exists_splitDecResidual_eq hready (codecInv_of_inv hinv hm) c
  obtain ⟨r, hr, hcontext, hresidual⟩ := exists_decResidual_eq c s
  have hframe := sameOutsideCodec_decResidual c s
  have hsink := decResidual_sink c s
  have hres : zext (decResidual c s).1 = BitVec.ofNat 32 r := by
    rw [hresidual, zext, BitVec.setWidth_ofNat_of_le_of_lt (by decide) hr]
  rw [hcontext, Nat.add_sub_cancel_left] at hsplit
  refine ⟨r, _, _, exec_cx_of_ready rfl rfl hready, hsplit, hr, ?_, ?_⟩
  · rw [effect, hres]
    rfl
  · unfold SameOutsideCodec at hframe
    rw [hsink] at hframe
    exact congrArg (setRes · (zext (decResidual c s).1)) hframe

end Sys2Proof.Machine
end

section
/-! SUPPORT. The residual decoder on the stream of a residual coder (45_codec R207, R208): a decoder that holds a number
of the interval the steps lead to finds their bits, and with them the same contexts, entries and residuals. -/
namespace Sys2Proof.Machine

/-! ### A decoder with steps to come -/

/-- The decoder holds a number of the interval the steps `xs` lead to; after them RANGE is `range` and the source
is at `rest`. -/
structure ToDecode (xs : List CodeStep) (rest : List Octet) (range : Nat) (s : State) : Prop where
  legal : ∀ x ∈ xs, x.legal
  normal : RangeNormal s.rc
  srcEof : s.rc.srcEof = false
  range : stepsRange xs s.rc.range.toNat = range
  stream : ∃ octets, s.io.source = octets ++ rest ∧ octets.length = stepsShifts xs s.rc.range.toNat ∧
    stepsOffset xs s.rc.range.toNat ≤ s.rc.code.toNat * 256 ^ octets.length + bigEndian octets ∧
    s.rc.code.toNat * 256 ^ octets.length + bigEndian octets <
      stepsOffset xs s.rc.range.toNat + stepsRange xs s.rc.range.toNat

section
variable {xs ys : List CodeStep} {rest : List Octet} {range : Nat} {s : State}

/-- Nothing outside the coder matters. -/
theorem ToDecode.congr {t : State} (h : ToDecode xs rest range s) (ht : coderPart t = coderPart s) :
    ToDecode xs rest range t := by
  have hrc : t.rc = s.rc := congrArg (·.rc) ht
  have hio : t.io = s.io := congrArg (·.io) ht
  exact ⟨h.legal, hrc ▸ h.normal, hrc ▸ h.srcEof, hrc ▸ h.range, hrc ▸ hio ▸ h.stream⟩

/-- The decoding command of the first step finds its bit and has the other steps to come. -/
theorem ToDecode.step {x : CodeStep} (h : ToDecode (x :: xs) rest range s) :
    (effect (decCommand x) s).res = (if stepBit x then 1#32 else 0#32) ∧
      ToDecode xs rest range (effect (decCommand x) s) := by
  obtain ⟨hlegal, hnormal, heof, hrange, octets, hsource, hlength, hlow, hhigh⟩ := h
  obtain ⟨hx, hxs⟩ := List.forall_mem_cons.1 hlegal
  obtain ⟨hnext, -⟩ := step_nested (normalRange_toNat hnormal) hx
  obtain ⟨-, hnested⟩ := steps_nested hxs hnext
  rw [stepsShifts] at hlength
  obtain ⟨first, later, rfl, hfirst⟩ : ∃ first later, octets = first ++ later ∧
      first.length = stepShifts s.rc.range.toNat x :=
    ⟨octets.take (stepShifts s.rc.range.toNat x), octets.drop (stepShifts s.rc.range.toNat x),
      (List.take_append_drop _ _).symm, by rw [List.length_take]; omega⟩
  have hlater : later.length = stepsShifts xs (stepRange s.rc.range.toNat x) := by
    rw [List.length_append] at hlength
    omega
  rw [stepsOffset, ← hfirst, ← hlater, value_append] at hlow
  rw [stepsOffset, stepsRange, ← hfirst, ← hlater, value_append] at hhigh
  rw [← hlater] at hnested
  rw [List.append_assoc] at hsource
  obtain ⟨hlow₁, hhigh₁⟩ := bounds_of_nested (bigEndian_lt later) hnested hlow hhigh
  obtain ⟨hres, hstep⟩ := follows_decCommand hx hnormal hsource hfirst hlow₁ hhigh₁
  rw [← hstep.code, Nat.add_mul] at hlow hhigh
  rw [← hstep.range] at hlow hhigh hlater hnext
  refine ⟨hres, hxs, hnext.1, hstep.srcEof.trans heof, by rw [hstep.range]; exact hrange, later,
    (List.append_cancel_left (hstep.source.symm.trans hsource)), hlater, by omega, by omega⟩

theorem eq_of_zext_ofBool {a b : Bool} (h : zext (BitVec.ofBool a) = if b then 1#32 else 0#32) : a = b := by
  revert a b
  decide

theorem ToDecode.decBit {p : Prob} {bit : Bool} (h : ToDecode (.modelled p bit :: xs) rest range s) :
    (decBit p.toNat s).1 = bit ∧ ToDecode xs rest range (decBit p.toNat s).2 := by
  obtain ⟨hres, hnext⟩ := h.step
  exact ⟨eq_of_zext_ofBool hres, hnext.congr rfl⟩

theorem ToDecode.decDirectBit {bit : Bool} (h : ToDecode (.direct bit :: xs) rest range s) :
    (decDirectBit s).1 = bit ∧ ToDecode xs rest range (decDirectBit s).2 := by
  obtain ⟨hres, hnext⟩ := h.step
  exact ⟨eq_of_zext_ofBool hres, hnext.congr rfl⟩

/-- Both sides update the same entry with the same bit. -/
theorem ToDecode.decModelStep {c : Channel} {ctx : Nat} {bit : Bool}
    (h : ToDecode (.modelled (mtRead s (contextIndex c ctx)) bit :: xs) rest range s) :
    (decModelStep c ctx s).1 = bit ∧ ToDecode xs rest range (decModelStep c ctx s).2 ∧
      (decModelStep c ctx s).2.mt = tableUpdate s.mt (contextIndex c ctx) bit := by
  obtain ⟨⟨hp, -⟩, -⟩ := List.forall_mem_cons.1 h.legal
  obtain ⟨hbit, hnext⟩ := h.decBit
  rw [decModelStep_eq, patchedProb_of_legal hp]
  refine ⟨hbit, hnext.congr rfl, ?_⟩
  rw [mtUpdate_mt, hbit, sameOutsideCoder_mt (sameOutsideCoder_decBit _ s)]

/-! ### The context a walk reaches -/

/-- A context with bits appended. -/
def appendBits (ctx : Nat) (bits : List Bool) : Nat := bits.foldl (fun n bit => 2 * n + bit.toNat) ctx

theorem ToDecode.decWalk {c : Channel} (bits : List Bool) {ctx : Nat}
    (h : ToDecode (walkSteps c bits ctx s.mt ++ ys) rest range s) :
    (decWalk c bits.length ctx s).1 = appendBits ctx bits ∧ ToDecode ys rest range (decWalk c bits.length ctx s).2 ∧
      (decWalk c bits.length ctx s).2.mt = walkTable c bits ctx s.mt := by
  induction bits generalizing ctx s with
  | nil => exact ⟨rfl, h, rfl⟩
  | cons bit bits ih =>
    obtain ⟨hbit, hnext, hmt⟩ := ToDecode.decModelStep (c := c) (ctx := ctx) (bit := bit) h
    rw [← hmt] at hnext
    rw [List.length_cons, Machine.decWalk, hbit, walkTable, ← hmt]
    exact ih hnext

theorem ToDecode.decDirectBits (bits : List Bool) {ctx : Nat} (h : ToDecode (bits.map .direct ++ ys) rest range s) :
    (decDirectBits bits.length ctx s).1 = appendBits ctx bits ∧
      ToDecode ys rest range (decDirectBits bits.length ctx s).2 := by
  induction bits generalizing ctx s with
  | nil => exact ⟨rfl, h⟩
  | cons bit bits ih =>
    obtain ⟨hbit, hnext⟩ := h.decDirectBit
    rw [List.length_cons, Machine.decDirectBits, hbit]
    exact ih hnext

/-- The leading `n` bits of a residual, appended to a context. -/
theorem appendBits_leading (r : Sample) (ctx : Nat) {n : Nat} (hn : n ≤ 16) :
    appendBits ctx ((List.range n).map fun i => r.getLsbD (15 - i)) = ctx * 2 ^ n + r.toNat / 2 ^ (16 - n) := by
  induction n with
  | zero =>
    have hr := r.isLt
    simp only [appendBits, List.range_zero, List.map_nil, List.foldl_nil]
    omega
  | succ n ih =>
    have hexp : 16 - (n + 1) = 15 - n := by omega
    have hpow : 2 ^ (16 - n) = 2 ^ (15 - n) * 2 := by rw [← Nat.pow_succ]; congr 1; omega
    have hbit : (r.getLsbD (15 - n)).toNat = r.toNat / 2 ^ (15 - n) % 2 := Nat.toNat_testBit r.toNat (15 - n)
    have hlast : appendBits ctx ((List.range (n + 1)).map fun i => r.getLsbD (15 - i)) =
        2 * appendBits ctx ((List.range n).map fun i => r.getLsbD (15 - i)) + (r.getLsbD (15 - n)).toNat := by
      rw [List.range_succ, List.map_append, appendBits, List.foldl_append]
      rfl
    rw [hlast, ih (by omega), hbit, hexp, hpow, ← Nat.div_div_eq_div_mul, Nat.pow_succ, ← Nat.mul_assoc]
    omega

/-- All bits of a residual after the leading marker. -/
theorem appendBits_residual (r : Sample) :
    appendBits (appendBits 1 (modelledBits r)) (directBits r) = 0x10000 + r.toNat := by
  have hall : modelledBits r ++ directBits r = (List.range 16).map fun i => r.getLsbD (15 - i) := rfl
  have h := appendBits_leading r 1 (n := 16) le_rfl
  rw [← hall, appendBits, List.foldl_append] at h
  rw [appendBits, appendBits, h]
  omega

/-- The residual comes back, with the table the encoder left. -/
theorem ToDecode.decResidual {c : Channel} {r : Sample} (h : ToDecode (residualSteps c r s.mt ++ ys) rest range s) :
    (decResidual c s).1 = r ∧ ToDecode ys rest range (decResidual c s).2 ∧
      (decResidual c s).2.mt = residualTable c r s.mt := by
  rw [residualSteps, List.append_assoc] at h
  obtain ⟨hcontext, hwalk, hmt⟩ := h.decWalk
  obtain ⟨hall, hdirect⟩ := hwalk.decDirectBits (directBits r) (ctx := appendBits 1 (modelledBits r))
  rw [← hcontext] at hall hdirect
  refine ⟨?_, hdirect, (sameOutsideCoder_mt (sameOutsideCoder_decDirectBits _ _ _)).trans hmt⟩
  rw [hcontext, appendBits_residual, ← hcontext] at hall
  calc (Machine.decResidual c s).1 = BitVec.ofNat 16 ((0x10000 + r.toNat) ^^^ 0x10000) :=
        congrArg (fun n => BitVec.ofNat 16 (n ^^^ 0x10000)) hall
    _ = r := by rw [ofNat_xor_marker, BitVec.ofNat_toNat, BitVec.setWidth_eq]

end

end Sys2Proof.Machine
end

section
/-! SUPPORT. Frames (45_codec R200, R201, R208): a frame and the model in which it is coded fix the coding steps and the
model it leaves; the encoder takes their path, and a decoder with these steps to come finds the frame. -/
namespace Sys2Proof.Machine

/-! ### The model both sides keep -/

/-- What the coding of a frame depends on: the model table and both histories. -/
structure FrameModel where
  table : Memory 13
  histA : History
  histB : History

/-- The model in a state. -/
def modelOf (s : State) : FrameModel := ⟨s.mt, s.histA, s.histB⟩

/-- The model both init sequences start from (30_encoding R97). -/
def freshModel : FrameModel := ⟨[], zeroHistory, zeroHistory⟩

/-- The residual of the first sample, against the prediction taken before the frame (45_codec R200). -/
def FrameModel.residualA (m : FrameModel) (f : Sample × Sample) : Sample := f.1 - pred m.histA

/-- The residual of the second sample. -/
def FrameModel.residualB (m : FrameModel) (f : Sample × Sample) : Sample := f.2 - pred m.histB

/-- The model after a frame (45_codec R208). -/
def FrameModel.after (m : FrameModel) (f : Sample × Sample) : FrameModel where
  table := residualTable .b (m.residualB f) (residualTable .a (m.residualA f) m.table)
  histA := shiftHistory m.histA f.1
  histB := shiftHistory m.histB f.2

/-- The coding steps of a frame. -/
def frameSteps (f : Sample × Sample) (m : FrameModel) : List CodeStep :=
  residualSteps .a (m.residualA f) m.table ++
    residualSteps .b (m.residualB f) (residualTable .a (m.residualA f) m.table)

/-- The coding steps of a sequence of frames. -/
def framesSteps : List (Sample × Sample) → FrameModel → List CodeStep
  | [], _ => []
  | f :: fs, m => frameSteps f m ++ framesSteps fs (m.after f)

/-- The model after a sequence of frames. -/
def FrameModel.afterAll (m : FrameModel) (fs : List (Sample × Sample)) : FrameModel := fs.foldl FrameModel.after m

/-- Either frame command ends with the shift of both histories. -/
theorem modelOf_shiftBoth {s t : State} (f : Sample × Sample) (h : SameOutsideCodec s t)
    (hmt : t.mt = ((modelOf s).after f).table) (v : BitVec 32) :
    modelOf (setRes (shiftBoth f.1 f.2 t) v) = (modelOf s).after f := by
  have hA : shiftHistory t.histA f.1 = ((modelOf s).after f).histA := congrArg (shiftHistory · f.1) h.histA
  have hB : shiftHistory t.histB f.2 = ((modelOf s).after f).histB := congrArg (shiftHistory · f.2) h.histB
  rw [modelOf, setRes_mt, setRes_histA, setRes_histB, shiftBoth_mt, shiftBoth_histA, shiftBoth_histB, hmt, hA, hB]

/-! ### The encoder along frames -/

/-- The encoder between two commands of COMPRESS. -/
structure EncLive (s : State) : Prop where
  ready : Ready .enc s
  inv : CodecInv .enc s

theorem EncLive.encResidual {s : State} (h : EncLive s) (c : Channel) (r : Sample) : EncLive (encResidual c r s) :=
  ⟨(sameOutsideCodec_encResidual c r s).ready h.ready, codecInv_encResidual h.inv c r⟩

theorem exec_cxEncFrame {s : State} (h : EncLive s) (f : Sample × Sample) : ∃ t,
    exec (.cxEncFrame f.1 f.2) s = .next t ∧ EncLive t ∧ EncPath (frameSteps f (modelOf s)) s t ∧
      modelOf t = (modelOf s).after f := by
  have ha := h.encResidual .a (f.1 - pred s.histA)
  have hb := ha.encResidual .b (f.2 - pred s.histB)
  have hframe := (sameOutsideCodec_encResidual .a (f.1 - pred s.histA) s).trans
    (sameOutsideCodec_encResidual .b (f.2 - pred s.histB) _)
  have hpath := (encPath_encResidual h.inv .a (f.1 - pred s.histA)).trans
    (encPath_encResidual ha.inv .b (f.2 - pred s.histB))
  have hmt : (encResidual .b (f.2 - pred s.histB) (encResidual .a (f.1 - pred s.histA) s)).mt =
      ((modelOf s).after f).table := by rw [encResidual_mt, encResidual_mt]; rfl
  rw [encResidual_mt] at hpath
  refine ⟨_, exec_cx_of_ready rfl rfl h.ready, ⟨(hb.ready.shiftBoth f.1 f.2).setRes _, hb.inv⟩,
    hpath.congr rfl, modelOf_shiftBoth f hframe hmt _⟩

theorem execAll_cxEncFrames (fs : List (Sample × Sample)) {s : State} (h : EncLive s) : ∃ t,
    execAll (fs.map fun f => .cxEncFrame f.1 f.2) s = .next t ∧ EncLive t ∧
      EncPath (framesSteps fs (modelOf s)) s t ∧ modelOf t = (modelOf s).afterAll fs := by
  induction fs generalizing s with
  | nil => exact ⟨s, rfl, h, .refl s, rfl⟩
  | cons f fs ih =>
    obtain ⟨t, ht, hlive, hpath, hmodel⟩ := exec_cxEncFrame h f
    obtain ⟨u, hu, hlast, hrest, hafter⟩ := ih hlive
    rw [hmodel] at hrest hafter
    exact ⟨u, (execAll_cons_of_next ht _).trans hu, hlast, hpath.trans hrest, hafter⟩

/-! ### The decoder along frames -/

/-- The samples come back: reconstruction adds the prediction the residual was taken against (44_predictor R190). -/
theorem exec_cxDecFrame {f : Sample × Sample} {ys : List CodeStep} {rest : List Octet} {range : Nat} {s : State}
    (hs : Ready .dec s) (h : ToDecode (frameSteps f (modelOf s) ++ ys) rest range s) : ∃ t,
    exec .cxDecFrame s = .next t ∧ t.res = packPair f.1 f.2 ∧ Ready .dec t ∧ ToDecode ys rest range t ∧
      modelOf t = (modelOf s).after f := by
  rw [frameSteps, List.append_assoc] at h
  obtain ⟨ha, hfirst, hfirst_mt⟩ := ToDecode.decResidual h
  have htable : residualTable .a ((modelOf s).residualA f) (modelOf s).table = (decResidual .a s).2.mt := hfirst_mt.symm
  rw [htable] at hfirst
  obtain ⟨hb, hsecond, hsecond_mt⟩ := hfirst.decResidual
  rw [← htable] at hsecond_mt
  have hA : pred s.histA + (decResidual .a s).1 = f.1 := by rw [ha]; exact add_sub_cancel _ _
  have hB : pred s.histB + (decResidual .b (decResidual .a s).2).1 = f.2 := by rw [hb]; exact add_sub_cancel _ _
  have heffect : effect .cxDecFrame s =
      setRes (shiftBoth f.1 f.2 (decResidual .b (decResidual .a s).2).2) (packPair f.1 f.2) := by
    simp only [effect, hA, hB]
  have hframe := (sameOutsideCodec_decResidual .a s).trans (sameOutsideCodec_decResidual .b (decResidual .a s).2)
  rw [exec_cx_of_ready rfl rfl hs, heffect]
  exact ⟨_, rfl, rfl, ((hframe.ready hs).shiftBoth _ _).setRes _, hsecond.congr rfl,
    modelOf_shiftBoth f hframe hsecond_mt _⟩

theorem execCollect_cxDecFrames (fs : List (Sample × Sample)) {rest : List Octet} {range : Nat} {s : State}
    (hs : Ready .dec s) (h : ToDecode (framesSteps fs (modelOf s)) rest range s) : ∃ rs u,
    execCollect (List.replicate fs.length .cxDecFrame) s = some (rs, u) ∧
      rs.map (fun r => r.res) = fs.map (fun f => packPair f.1 f.2) ∧ ToDecode [] rest range u ∧
      modelOf u = (modelOf s).afterAll fs := by
  induction fs generalizing s with
  | nil => exact ⟨[], s, rfl, rfl, h, rfl⟩
  | cons f fs ih =>
    obtain ⟨t, ht, hres, hready, hnext, hmodel⟩ := exec_cxDecFrame hs h
    rw [← hmodel] at hnext
    obtain ⟨rs, u, hu, hall, hlast, hafter⟩ := ih hready hnext
    rw [hmodel] at hafter
    exact ⟨_, u, execCollect_cons_of_next ht hu, by rw [List.map_cons, List.map_cons, hall, responseOf, hres], hlast,
      hafter⟩

end Sys2Proof.Machine
end

section
/-! SUPPORT. Streams (45_codec R205 to R209): COMPRESS writes the stream of the steps its frames fix, whatever state it
starts from, and DECOMPRESS decodes these steps from it. -/
namespace Sys2Proof.Machine

/-! ### COMPRESS -/

/-- The stream of a sequence of steps: the low end of the last interval and one 0x00 (43_range_coder R173, R174). -/
structure StreamOf (xs : List CodeStep) (written : List Octet) : Prop where
  legal : ∀ x ∈ xs, x.legal
  length : written.length = stepsShifts xs fullRange + 5
  number : bigEndian written = stepsOffset xs fullRange * 256

/-- Where the encoder stands after CODEC_INIT_ENC. -/
def compressStart (s : State) : State := effect .rcInitEnc (effect .prInit (effect .mtInit s))

theorem execAll_codecInitEnc {s : State} (hs : faulted s = false) :
    execAll codecInitEnc s = .next (compressStart s) := by
  have hmodel : exec .prInit (effect .mtInit s) = .next (effect .prInit (effect .mtInit s)) :=
    exec_prInit (s := effect .mtInit s) hs
  have hcoder : exec .rcInitEnc (effect .prInit (effect .mtInit s)) = .next (compressStart s) :=
    exec_rcInitEnc (s := effect .prInit (effect .mtInit s)) hs
  rw [codecInitEnc, execAll_cons_of_next (exec_mtInit hs), execAll_cons_of_next hmodel, execAll_cons_of_next hcoder,
    execAll]

theorem encLive_compressStart {s : State} (hs : faulted s = false) : EncLive (compressStart s) :=
  ⟨⟨hs, rfl, rfl⟩, coderInv_freshCoder_enc s.rc, tableInv_fill_pInit Config.tableSize⟩

theorem modelOf_compressStart (s : State) : modelOf (compressStart s) = freshModel := rfl

/-- The flush after a path from a fresh coder completes the stream of its steps. -/
theorem exists_streamOf_flush {xs : List CodeStep} {s e : State} (h : EncPath xs (compressStart s) e)
    (he : CoderInv .enc e.rc) : ∃ written, (effect .rcFlush e).io.sink = s.io.sink ++ written ∧ StreamOf xs written := by
  obtain ⟨out, hpath⟩ := h.encodes
  obtain ⟨rest, hflush, -, -⟩ := encodes_flush he
  obtain ⟨-, ⟨hlow, hcarry, -, hvalid, hrun⟩, -⟩ := (coderInv_flushed_iff _).1 (coderInv_flush he)
  have hall := hpath.trans hflush.coderPart
  have hkept : keptOctets (drain (shiftOutRun Config.flushLength e)).rc = [] := by
    rw [keptOctets, hvalid, hrun]
    rfl
  have hstart : pipelineNumber [] (compressStart s).rc = 0 := by
    simp [pipelineNumber, keptOctets, compressStart, effect, freshCoder, bigEndian]
  have hend : pipelineNumber (out ++ rest) (drain (shiftOutRun Config.flushLength e)).rc =
      bigEndian (out ++ rest) * 2 ^ 32 := by
    rw [pipelineNumber, hkept, hlow, hcarry, List.append_nil, Bool.toNat_false, BitVec.toNat_zero, Nat.add_zero,
      Nat.add_zero]
  have hlength : (out ++ rest).length + (keptOctets (drain (shiftOutRun Config.flushLength e)).rc).length =
    0 + (stepsShifts xs fullRange + 5) := hall.length
  have hnumber : pipelineNumber (out ++ rest) (drain (shiftOutRun Config.flushLength e)).rc =
    pipelineNumber [] (compressStart s).rc * 256 ^ (stepsShifts xs fullRange + 5) +
      (stepsOffset xs fullRange * 256 ^ 5 + 0) := hall.number
  rw [hkept, List.length_nil] at hlength
  rw [hend, hstart] at hnumber
  exact ⟨out ++ rest, congrArg (·.io.sink) hall.frame, h.legal, by omega, by omega⟩

/-- Everything COMPRESS does from a state that is not faulted. -/
theorem execAll_compress (octets : List Octet) {s : State} (hs : faulted s = false) : ∃ t written,
    execAll (compress octets) s = .next t ∧ t.io.sink = s.io.sink ++ written ∧
      StreamOf (framesSteps (framesOf octets) freshModel) written ∧
      t.rc.range.toNat = stepsRange (framesSteps (framesOf octets) freshModel) fullRange ∧
      modelOf t = freshModel.afterAll (framesOf octets) := by
  obtain ⟨e, he, hlive, hpath, hmodel⟩ := execAll_cxEncFrames (framesOf octets) (encLive_compressStart hs)
  rw [modelOf_compressStart] at hpath hmodel
  obtain ⟨hcoder, -⟩ := hlive.inv
  obtain ⟨written, hsink, hstream⟩ := exists_streamOf_flush hpath hcoder
  have hflush := exec_rcFlush hlive.ready.clear hlive.ready.mode
  have hsame := (sameOutsideCoder_shiftOutRun Config.flushLength e).trans (sameOutsideCoder_drain _)
  refine ⟨_, written, ?_, hsink, hstream, ?_, ?_⟩
  · rw [compress, List.append_assoc, execAll_append_of_next (execAll_codecInitEnc hs), execAll_append_of_next he,
      execAll_cons_of_next hflush, execAll]
  · rw [← show (compressStart s).rc.range.toNat = fullRange from rfl, ← hpath.range, effect, drain_range,
      shiftOutRun_range]
  · rw [← hmodel, modelOf, modelOf, effect, hsame.toCodec.histA, hsame.toCodec.histB, sameOutsideCoder_mt hsame]

/-! ### DECOMPRESS -/

/-- A stream but for its last octet is a number of the interval its steps lead to. -/
theorem StreamOf.exists_split {xs : List CodeStep} {written : List Octet} (h : StreamOf xs written) :
    ∃ read last, written = read ++ last ∧ last.length = 1 ∧ read.length = stepsShifts xs fullRange + 4 ∧
      stepsOffset xs fullRange ≤ bigEndian read ∧
      bigEndian read < stepsOffset xs fullRange + stepsRange xs fullRange := by
  have hlength := h.length
  have hread : (written.take (stepsShifts xs fullRange + 4)).length = stepsShifts xs fullRange + 4 := by
    rw [List.length_take]
    omega
  have hlast : (written.drop (stepsShifts xs fullRange + 4)).length = 1 := by
    rw [List.length_drop]
    omega
  refine ⟨_, _, (List.take_append_drop _ _).symm, hlast, hread, ?_⟩
  refine stream_bounds (post := []) h.legal (by simp) hlast ?_
  rw [List.take_append_drop, List.append_nil, h.number]

/-- CODEC_INIT_DEC on a stream: the fresh model, and a decoder with all steps of the stream to come. -/
theorem execCollect_codecInitDec {xs : List CodeStep} (hxs : ∀ x ∈ xs, x.legal) {s : State} (hs : faulted s = false)
    {read rest : List Octet} (hsource : s.io.source = read ++ rest)
    (hlength : read.length = stepsShifts xs fullRange + 4) (hlow : stepsOffset xs fullRange ≤ bigEndian read)
    (hhigh : bigEndian read < stepsOffset xs fullRange + stepsRange xs fullRange) : ∃ rs t,
    (∀ is qs u, execCollect is t = some (qs, u) → execCollect (codecInitDec ++ is) s = some (rs ++ qs, u)) ∧
      rs.length = codecInitDec.length ∧ Ready .dec t ∧ ToDecode xs rest (stepsRange xs fullRange) t ∧
      modelOf t = freshModel := by
  obtain ⟨first, later, rfl, hfirst⟩ : ∃ first later, read = first ++ later ∧ first.length = 4 :=
    ⟨read.take 4, read.drop 4, (List.take_append_drop _ _).symm, by rw [List.length_take]; omega⟩
  have hlater : later.length = stepsShifts xs fullRange := by
    rw [List.length_append] at hlength
    omega
  have hmodel : exec .prInit (effect .mtInit s) = .next (effect .prInit (effect .mtInit s)) :=
    exec_prInit (s := effect .mtInit s) hs
  rw [List.append_assoc] at hsource
  obtain ⟨draws, hinit⟩ := exec_rcInitDec_of_source (s := effect .prInit (effect .mtInit s)) hs hfirst hsource
  have hcode := decPreloaded_code hfirst (effect .prInit (effect .mtInit s)) (later ++ rest) draws
  rw [bigEndian_append, ← hcode] at hlow hhigh
  exact ⟨[_, _, _], _, fun is qs u hu => execCollect_cons_of_next (exec_mtInit hs) <|
      execCollect_cons_of_next hmodel <| execCollect_cons_of_next hinit hu, rfl, ⟨hs, rfl, rfl⟩,
    ⟨hxs, normThreshold_le_fullRange, rfl, rfl, later, rfl, hlater, hlow, hhigh⟩, rfl⟩

/-! ### Octets and frames -/

theorem frameOctets_packPair (o₀ o₁ o₂ o₃ : Octet) :
    frameOctets (packPair (sampleOf o₀ o₁) (sampleOf o₂ o₃)) = [o₀, o₁, o₂, o₃] := by
  have hlow (k : Nat) (hk : k + 8 ≤ 16) : (packPair (sampleOf o₀ o₁) (sampleOf o₂ o₃)).extractLsb' k 8 =
      (o₁ ++ o₀).extractLsb' k 8 := BitVec.extractLsb'_append_eq_of_add_le hk
  have hhigh (k : Nat) (hk : 16 ≤ k) : (packPair (sampleOf o₀ o₁) (sampleOf o₂ o₃)).extractLsb' k 8 =
      (o₃ ++ o₂).extractLsb' (k - 16) 8 := BitVec.extractLsb'_append_eq_of_le hk
  rw [frameOctets, hlow 0 (by decide), hlow 8 (by decide), hhigh 16 (by decide), hhigh 24 (by decide),
    BitVec.extractLsb'_append_eq_right, BitVec.extractLsb'_append_eq_left, BitVec.extractLsb'_append_eq_right,
    BitVec.extractLsb'_append_eq_left]

/-- Whole frames hold every octet. -/
theorem flatMap_frameOctets_framesOf {octets : List Octet} (h : 4 ∣ octets.length) :
    (framesOf octets).flatMap (fun f => frameOctets (packPair f.1 f.2)) = octets ∧
      (framesOf octets).length * 4 = octets.length := by
  induction octets using framesOf.induct with
  | case1 o₀ o₁ o₂ o₃ rest ih =>
    obtain ⟨hflat, hlength⟩ := ih (by simpa [Nat.add_assoc] using h)
    rw [framesOf, List.flatMap_cons, hflat, frameOctets_packPair]
    simp only [List.length_cons]
    exact ⟨rfl, by omega⟩
  | case2 octets hshort =>
    obtain rfl : octets = [] := by
      rcases octets with _ | ⟨o₀, _ | ⟨o₁, _ | ⟨o₂, _ | ⟨o₃, rest⟩⟩⟩⟩
      · rfl
      · exact absurd h (by decide : ¬ 4 ∣ 1)
      · exact absurd h (by decide : ¬ 4 ∣ 2)
      · exact absurd h (by decide : ¬ 4 ∣ 3)
      · exact (hshort o₀ o₁ o₂ o₃ rest rfl).elim
    exact ⟨rfl, rfl⟩

/-- Octets are determined by their number and how many they are. -/
theorem bigEndian_injective {xs ys : List Octet} (hlength : xs.length = ys.length)
    (h : bigEndian xs = bigEndian ys) : xs = ys := by
  induction xs generalizing ys with
  | nil => exact (List.eq_nil_of_length_eq_zero hlength.symm).symm
  | cons x xs ih =>
    obtain ⟨y, ys, rfl⟩ := List.exists_cons_of_length_eq_add_one hlength.symm
    have htail : xs.length = ys.length := Nat.succ.inj hlength
    have hx := bigEndian_lt xs
    have hy := bigEndian_lt ys
    rw [bigEndian, bigEndian, htail] at h
    rw [htail] at hx
    obtain ⟨hle, hlt⟩ := quotient_bounds (low := y.toNat) (high := y.toNat + 1) (c := x.toNat) hx (by omega)
      (by rw [Nat.succ_mul]; omega)
    obtain rfl : x = y := BitVec.eq_of_toNat_eq (by omega)
    rw [ih htail (by omega)]

/-! ### The statements -/

/-- Settles O55: both streams have the length and the number that the steps of the frames give, and the steps do not
depend on the state. -/
theorem compressIsDeterministic : Obligations.CompressIsDeterministic := by
  intro octets s₁ s₂ h₁ h₂
  obtain ⟨t₁, written₁, ht₁, hsink₁, hstream₁, -⟩ := execAll_compress octets h₁
  obtain ⟨t₂, written₂, ht₂, hsink₂, hstream₂, -⟩ := execAll_compress octets h₂
  obtain rfl : written₁ = written₂ :=
    bigEndian_injective (hstream₁.length.trans hstream₂.length.symm) (hstream₁.number.trans hstream₂.number.symm)
  exact ⟨t₁, t₂, written₁, ht₁, ht₂, hsink₁, hsink₂⟩

/-- Settles O54: the stream of COMPRESS but for its last octet is a number of the interval its steps lead to, so
DECOMPRESS decodes these steps frame by frame, with the encoder's model. -/
theorem codecRoundTrip : Obligations.CodecRoundTrip := by
  intro octets hwhole s hs
  obtain ⟨t, written, ht, hsink, hstream, hrange, hmodel⟩ := execAll_compress octets hs
  refine ⟨t, written, ht, hsink, fun d rest hd hsource => ?_⟩
  obtain ⟨read, last, rfl, hlast, hread, hlow, hhigh⟩ := hstream.exists_split
  obtain ⟨hoctets, hcount⟩ := flatMap_frameOctets_framesOf hwhole
  rw [List.append_assoc] at hsource
  obtain ⟨rs, e, he, hskip, hready, hstart, hfresh⟩ :=
    execCollect_codecInitDec hstream.legal hd hsource hread hlow hhigh
  rw [← hfresh] at hstart
  obtain ⟨qs, u, hu, hsamples, hend, hafter⟩ := execCollect_cxDecFrames _ hready hstart
  rw [hfresh, ← hmodel] at hafter
  obtain ⟨-, -, heof, hfinal, octets', hrest, hnone, -⟩ := hend
  obtain rfl := List.eq_nil_of_length_eq_zero hnone
  have hframes : (octets.length + 3) / 4 = (framesOf octets).length := by omega
  refine ⟨rs ++ qs, u, ?_, ?_, congrArg (·.table) hafter, congrArg (·.histA) hafter, congrArg (·.histB) hafter, ?_,
    heof, ?_⟩
  · rw [decompress, hframes]
    exact he _ _ _ hu
  · have hflat : qs.flatMap (fun r => frameOctets r.res) = (qs.map fun r => r.res).flatMap frameOctets :=
      (List.flatMap_map ..).symm
    rw [decompressOutput, ← hskip, List.drop_left, hflat, hsamples, List.flatMap_map, hoctets, List.take_length]
  · rw [hfresh] at hfinal
    exact BitVec.eq_of_toNat_eq (hfinal.trans hrange.symm)
  · rw [List.length_append, hlast, Nat.add_sub_cancel, List.drop_left]
    exact hrest

end Sys2Proof.Machine
end

section
/-! SUPPORT. What the system commands answer (46_system R215 to R217): each listed register as a number, the fault of
an unlisted one, and the reset state. -/
namespace Sys2Proof.Machine

/-! ### Packed registers as numbers -/

/-- Fields joined in a word: the upper field counts in units of the lower one's range. -/
theorem toNat_append_eq_add {m n : Nat} (x : BitVec m) (y : BitVec n) :
    (x ++ y).toNat = 2 ^ n * x.toNat + y.toNat := by
  rw [BitVec.toNat_append, ← Nat.shiftLeft_add_eq_or_of_lt y.isLt, Nat.shiftLeft_eq, Nat.mul_comm]

theorem eq_ofNat_of_toNat_eq {w k : Nat} {x : BitVec w} (h : x.toNat = k) : x = BitVec.ofNat w k := by
  rw [← h, BitVec.ofNat_toNat, BitVec.setWidth_eq]

theorem toNat_ofBool_eq_ite (b : Bool) : (BitVec.ofBool b).toNat = if b = true then 1 else 0 := by
  cases b <;> rfl

/-- MODE as a number (10_state R26). -/
def modeNumber : Mode → Nat
  | .idle => 0
  | .enc => 1
  | .dec => 2
  | .flushed => 3

theorem toNat_modeBits (m : Mode) : (modeBits m).toNat = modeNumber m := by cases m <;> rfl

theorem dqEmptyFlag_iff (r : Ring) : dqEmptyFlag r = true ↔ r.dqSize = 0#17 := beq_iff_eq

/-- STATUS by the weights of its bits (10_state R39); with every field a number, the two sums differ only in the order
of their terms. -/
theorem status_eq_ofNat (s : State) : status s = BitVec.ofNat 32
    ((if faulted s then 1 else 0) + (if s.mtValid then 2 else 0) + (if s.ring.alloc then 4 else 0) +
      (if s.rc.srcEof then 8 else 0) + (if s.rc.heldValid then 16 else 0) + (if s.rc.carry then 32 else 0) +
      256 * modeNumber s.mode + (if s.ring.alloc = true ∧ s.ring.dqSize = s.ring.n then 1024 else 0) +
      (if s.ring.dqSize = 0#17 then 2048 else 0)) := by
  apply eq_ofNat_of_toNat_eq
  simp only [status, toNat_append_eq_add, toNat_ofBool_eq_ite, toNat_modeBits, dqFullFlag_iff, dqEmptyFlag_iff,
    BitVec.toNat_zero, Nat.mul_zero, Nat.zero_add, Nat.add_zero, Nat.mul_add, mul_ite, Nat.mul_one, ← Nat.mul_assoc,
    Nat.reducePow, Nat.reduceMul]
  ac_rfl

theorem rcPipe_eq_ofNat (c : Coder) : rcPipe c = BitVec.ofNat 32
    (c.held.toNat + (if c.heldValid then 256 else 0) + (if c.carry then 512 else 0)) := by
  apply eq_ofNat_of_toNat_eq
  simp only [rcPipe, toNat_append_eq_add, toNat_ofBool_eq_ite, BitVec.toNat_zero, Nat.mul_zero, Nat.zero_add,
    Nat.mul_add, mul_ite, Nat.mul_one, Nat.reducePow, Nat.reduceMul]
  ac_rfl

theorem packPair_eq_ofNat (a b : Sample) : packPair a b = BitVec.ofNat 32 (a.toNat + 65536 * b.toNat) := by
  apply eq_ofNat_of_toNat_eq
  rw [packPair, toNat_append_eq_add]
  omega

/-! ### RD_REG -/

theorem readReg_of_not_listed {n : BitVec 8} (hn : n ∉ listedRegisters) (s : State) : readReg s n = none := by
  fun_cases readReg s n
  case case25 => rfl
  all_goals exact absurd (by decide) hn

theorem exec_rdReg_of_readReg {n : BitVec 8} {s : State} {v : BitVec 32} (h : readReg s n = some v) :
    exec (.rdReg n) s = .next { s with res := v } := by
  simp only [exec, execRdReg, h, setRes]

theorem exec_rdReg_of_not_listed {n : BitVec 8} (hn : n ∉ listedRegisters) (s : State) :
    exec (.rdReg n) s = unlessFaulted s (.next (raise .badOperand (.rdReg n) s)) := by
  rw [exec, execRdReg, readReg_of_not_listed hn]

/-- Settles O56: the register map gives each listed number, with STATUS, RC_PIPE and the history pairs as numbers; an
unlisted number is behind the gate of a faulted block. -/
theorem rdRegResult : Obligations.RdRegResult := by
  intro s reads
  have hreads (n : BitVec 8) (v : BitVec 32) (h : readReg s n = some v) : reads n v := exec_rdReg_of_readReg h
  refine ⟨fun _ => rfl, hreads _ _ (congrArg some (status_eq_ofNat s)), hreads _ _ rfl, hreads _ _ rfl,
    hreads _ _ rfl, hreads _ _ rfl, hreads _ _ rfl, hreads _ _ rfl, hreads _ _ rfl, hreads _ _ rfl, hreads _ _ rfl,
    hreads _ _ (congrArg some (rcPipe_eq_ofNat s.rc)), hreads _ _ rfl, hreads _ _ rfl, hreads _ _ rfl,
    hreads _ _ (congrArg some (packPair_eq_ofNat _ _)), hreads _ _ rfl,
    hreads _ _ (congrArg some (packPair_eq_ofNat _ _)), hreads _ _ rfl, hreads _ _ rfl, hreads _ _ rfl,
    hreads _ _ rfl, hreads _ _ rfl, hreads _ _ rfl, hreads _ _ rfl, fun n hn hs => ?_, fun n hn hs => ?_⟩
  · rw [exec_rdReg_of_not_listed hn, unlessFaulted_of_clear hs]
  · rw [exec_rdReg_of_not_listed hn, unlessFaulted_of_faulted hs]

/-! ### SET_OPT and RESET -/

theorem exec_setOpt {s : State} (hs : faulted s = false) (val : BitVec 32) :
    exec (.setOpt val) s = .next (effect (.setOpt val) s) := by
  rw [exec, execSetOpt, unlessFaulted_of_clear hs, effect]

/-- Settles O57: the gate of a faulted block is the only check before the write. -/
theorem setOptResult : Obligations.SetOptResult := fun val _ hs => ⟨rfl, exec_setOpt hs val⟩

theorem exec_reset (s : State) : exec .reset s = .next (resetBlock s) := rfl

/-- After either reset event only DQ_EMPTY is set (10_state R39, R44). -/
theorem status_resetBlock (s : State) : status (resetBlock s) = 0x800#32 :=
  calc
    status (resetBlock s) = status State.reset := rfl
    _ = 0x800#32 := by decide

/-- The whole operand field of RESET is zero bits (30_encoding R91, layout N). -/
theorem arg_eq_zero_of_decode_reset {arg : BitVec 32} {i : Instr} (h : decode (commandWord 0x7F#8 arg) = .ok i) :
    arg = 0#32 := by
  rw [decode, opcodeOf_commandWord, argOf_commandWord] at h
  obtain ⟨hzero, -⟩ := accept_ok.1 h
  rwa [show 0xFFFFFFFF#32 = BitVec.allOnes 32 from rfl, BitVec.and_allOnes] at hzero

/-- Settles O9: the reset state holds each register's reset value and the old ports. -/
theorem resetCommandResult : Obligations.ResetCommandResult :=
  ⟨fun s =>
    ⟨resetBlock s, exec_reset s, rfl, rfl, rfl, rfl, rfl, rfl, rfl, rfl, rfl, rfl, status_resetBlock s, rfl⟩,
    fun _ harg _ h => harg (arg_eq_zero_of_decode_reset h)⟩

end Sys2Proof.Machine
end

section
/-! SUPPORT. The hardware reset input (70_reset R255, R256), between two commands and in the middle of one. -/
namespace Sys2Proof.Machine

/-- Settles O7: the equations of a step without input and of a step on the reset input. -/
theorem stepWaitsAndHardwareReset : Obligations.StepWaitsAndHardwareReset := by
  refine fun s => ⟨step_of_no_input, fun rest hin => ?_⟩
  rw [step_of_resetInput hin, resetBlock, takeInput_of_inputs hin]

/-- Settles O8: the two cuts of the model are the octets that passed the ports, and the source's is bounded by what
the command consumed. -/
theorem hardwareResetAbandonsCommand : Obligations.HardwareResetAbandonsCommand := by
  intro s w rest u hin hrun
  have hstep : step s = .next (abandon { s with io := { s.io with inputs := rest } } u) := by
    rw [step_of_resetDuring hin, takeInput_of_inputs hin, hrun, abandonTo]
  exact ⟨Config.resetSinkCut u.io.draws,
    min (Config.resetSourceCut u.io.draws) (s.io.source.length - u.io.source.length), u.io.draws + 1,
    Nat.min_le_right _ _, hstep⟩

end Sys2Proof.Machine
end

section
/-! SUPPORT. The fault latch (60_exceptions R239 to R241): only a fault entry and a reset write it, so a command word
that leaves a fault behind took it or found it, and nothing but a reset clears one. -/
namespace Sys2Proof.Machine

/-! ### The latch through an effect -/

theorem SameOutsideCodec.latch {s t : State} (h : SameOutsideCodec s t) : t.latch = s.latch := by
  rw [h.frame]

theorem SameOutsideCoder.latch {s t : State} (h : SameOutsideCoder s t) : t.latch = s.latch := h.toCodec.latch

theorem effect_latch {i : Instr} (hi : i ≠ .reset) (s : State) : (effect i s).latch = s.latch := by
  cases i with
  | rcInitDec =>
    exact ((sameOutsideCoder_decStart s).trans (sameOutsideCoder_readIntoCodeRun Config.preloadLength _)).latch
  | rcEnc p bit => exact (sameOutsideCoder_encBit _ bit s).latch
  | rcEncDirect bit => exact (sameOutsideCoder_encDirectBit bit s).latch
  | rcDec p => exact (sameOutsideCoder_decBit _ s).latch
  | rcDecDirect => exact (sameOutsideCoder_decDirectBit s).latch
  | rcFlush =>
    simp only [effect]
    exact ((sameOutsideCoder_shiftOutRun _ s).trans (sameOutsideCoder_drain _)).latch
  | prShift c v => exact setHist_latch s c _
  | cxEncRes c v => exact (sameOutsideCodec_encResidual c v s).latch
  | cxDecRes c => exact (sameOutsideCodec_decResidual c s).latch
  | cxEncFrame a b =>
    exact ((sameOutsideCodec_encResidual .a _ s).trans (sameOutsideCodec_encResidual .b _ _)).latch
  | cxDecFrame => exact ((sameOutsideCodec_decResidual .a s).trans (sameOutsideCodec_decResidual .b _)).latch
  | reset => exact absurd rfl hi
  | _ => rfl

theorem faulted_effect {i : Instr} (hi : i ≠ .reset) (s : State) : faulted (effect i s) = faulted s := by
  rw [faulted, effect_latch hi, faulted]

theorem faulted_effect_of_clear {s : State} (hs : faulted s = false) (i : Instr) : faulted (effect i s) = false := by
  by_cases hi : i = .reset
  · rw [hi, effect, faulted_resetBlock]
  · rw [faulted_effect hi, hs]

/-! ### A word in a block that is not faulted -/

theorem raise_of_decode_ok {w : CmdWord} {i : Instr} (h : decode w = .ok i) (f : FaultCode) (s : State) :
    raise f i s = raiseWord f w s := by
  rw [raise, encode_of_decode_ok h]

/-- A word that leaves a fault where none was has entered it, and done nothing else. -/
theorem runWord_next_of_faulted {w : CmdWord} {s t : State} (hs : faulted s = false) (h : runWord w s = .next t)
    (ht : faulted t = true) : ∃ f, t = raiseWord f w s := by
  cases hd : decode w with
  | ok i =>
    rw [runWord_of_decode_ok hd] at h
    obtain rfl | ⟨f, rfl⟩ | rfl := exec_next h
    · exact absurd ht (Bool.eq_false_iff.1 hs)
    · exact ⟨f, raise_of_decode_ok hd f s⟩
    · exact absurd ht (Bool.eq_false_iff.1 (faulted_effect_of_clear hs i))
  | error e =>
    rw [runWord_of_decode_error hd] at h
    obtain ⟨hf, -⟩ | ⟨-, ht⟩ := illegalCommand_next h
    · exact absurd hf (Bool.eq_false_iff.1 hs)
    · exact ⟨.illegalCommand, ht⟩

/-- Settles O13: the fault entry writes the latch alone, with the fields of the word. -/
theorem faultsArePrecise : Obligations.FaultsArePrecise := by
  intro w s t hs hrun ht
  obtain ⟨f, rfl⟩ := runWord_next_of_faulted hs hrun ht
  exact ⟨f, rfl, rfl⟩

/-! ### A word in a faulted block -/

theorem exists_readReg_of_listed {n : BitVec 8} (hn : n ∈ listedRegisters) (s : State) :
    ∃ v, readReg s n = some v := by
  fun_cases readReg s n
  case case25 => simp_all [listedRegisters]
  all_goals exact ⟨_, rfl⟩

theorem exec_of_faulted {i : Instr} {s : State} (hs : faulted s = true) (hreset : i ≠ .reset)
    (hread : ∀ n ∈ listedRegisters, i ≠ .rdReg n) : exec i s = .next s := by
  cases i with
  | rdReg n =>
    rw [exec_rdReg_of_not_listed fun hn => hread n hn rfl, unlessFaulted_of_faulted hs]
  | reset => exact absurd rfl hreset
  | _ => exact unlessFaulted_of_faulted hs _

theorem runWord_of_faulted {w : CmdWord} {s : State} (hs : faulted s = true) (hreset : decode w ≠ .ok .reset)
    (hread : ∀ n ∈ listedRegisters, decode w ≠ .ok (.rdReg n)) : runWord w s = .next s := by
  cases hd : decode w with
  | ok i =>
    rw [hd] at hreset hread
    rw [runWord_of_decode_ok hd]
    exact exec_of_faulted hs (fun h => hreset (congrArg _ h)) fun n hn h => hread n hn (congrArg _ h)
  | error e => rw [runWord_of_decode_error hd, illegalCommand, unlessFaulted_of_faulted hs]

/-- Settles O14: every other command is behind the gate of a faulted block, and so is the IllegalCommand entry. -/
theorem faultedBlockRefusesWork : Obligations.FaultedBlockRefusesWork := by
  refine fun w s hs => ⟨runWord_of_faulted hs, fun n hn hd => ?_, fun hd => ?_⟩
  · obtain ⟨v, hv⟩ := exists_readReg_of_listed hn s
    exact ⟨v, hv, by rw [runWord_of_decode_ok hd, exec_rdReg_of_readReg hv]⟩
  · exact ⟨resetBlock s, by rw [runWord_of_decode_ok hd, exec_reset], faulted_resetBlock s, rfl⟩

/-! ### Leaving the faulted state -/

theorem faulted_exec {i : Instr} {s : State} (hi : i ≠ .reset) (hs : faulted s = true) :
    AllNext (fun t => faulted t = true) (exec i s) :=
  exec_allNext hs (faulted_raise · i s) ((faulted_effect hi s).trans hs)

/-- The word that clears a fault is the one of RESET. -/
theorem eq_encode_reset_of_runWord {w : CmdWord} {s t : State} (hs : faulted s = true) (h : runWord w s = .next t)
    (ht : faulted t = false) : w = encode .reset := by
  cases hd : decode w with
  | ok i =>
    rw [runWord_of_decode_ok hd] at h
    have hi : i = .reset := by
      by_contra hi
      exact Bool.eq_false_iff.1 ht (faulted_exec hi hs t h)
    rw [← hi, encode_of_decode_ok hd]
  | error e =>
    rw [runWord_of_decode_error hd, illegalCommand, unlessFaulted_of_faulted hs] at h
    obtain rfl := Host.Outcome.next.inj h
    exact absurd hs (Bool.eq_false_iff.1 ht)

/-- Settles O15: of the four kinds of step, waiting changes nothing and a command clears the fault only if it is
RESET. -/
theorem onlyResetLeavesFaultedState : Obligations.OnlyResetLeavesFaultedState := by
  intro s t hs hstep ht
  obtain ⟨-, rfl⟩ | ⟨w, rest, u, hin, hrun, rfl⟩ | ⟨rest, hin, -⟩ | ⟨w, rest, u, hin, -, -⟩ := step_next hstep
  · exact absurd hs (Bool.eq_false_iff.1 ht)
  · obtain rfl := eq_encode_reset_of_runWord (s := takeInput s) hs hrun ht
    exact .inl ⟨rest, hin⟩
  · exact .inr (.inl ⟨rest, hin⟩)
  · exact .inr (.inr ⟨w, rest, hin⟩)

end Sys2Proof.Machine
end

section
/-! SUPPORT. The fault table decides what a command answers (60_exceptions R226, R238): its four items (BadMode,
ModelUninit, CbUnallocated, operand checks) are the checks of the meanings, in the same order. -/
namespace Sys2Proof.Machine

/-- The next state of a command when the fault table gives `f`: the fault entered, or with none the effect. -/
def afterChecks (i : Instr) (s : State) : Option FaultCode → State
  | some f => raise f i s
  | none => effect i s

/-- A last check that faults exactly when its condition does not hold. -/
theorem exec_of_check {i : Instr} {s : State} {p : Prop} [Decidable p] {f : FaultCode}
    (hpass : p → exec i s = .next (effect i s)) (hfail : ¬ p → exec i s = .next (raise f i s)) :
    exec i s = .next (afterChecks i s (if p then none else some f)) := by
  split
  next hp => exact hpass hp
  next hp => exact hfail hp

/-- With MODE, model and storage as the command needs them, its own operand check decides; the commands are grouped by
which of these they need. -/
theorem exec_eq_afterChecks_operandFault {i : Instr} {s : State} (hs : faulted s = false) (hring : RingInv s.ring)
    (hmode : ∀ m, neededMode i = some m → s.mode = m) (hmodel : needsModel i = true → s.mtValid = true)
    (halloc : needsStorage i = true → s.ring.alloc = true) :
    exec i s = .next (afterChecks i s (operandFault s i)) := by
  obtain ⟨hallocated, -⟩ := id hring
  cases i with
  | cbRelease | cbPrev | cbNext | dqCapacity | dqSize | dqFull | mtInit | rcInitEnc | rcInitDec | prInit
  | prPredict | prResidual | prRecon | prShift | setOpt => exact unlessFaulted_of_clear hs _
  | reset => exact exec_reset s
  | rdReg n =>
    refine exec_of_check (fun hn => ?_) fun hn => ?_
    · obtain ⟨v, hv⟩ := exists_readReg_of_listed hn s
      rw [exec_rdReg_of_readReg hv, effect, hv, Option.getD_some, setRes]
    · rw [exec_rdReg_of_not_listed hn, unlessFaulted_of_clear hs]
  | cbResize n pad =>
    exact exec_of_check (fun hn => exec_cbResize_of_legal hs ((sizeLegal_iff n).2 hn) pad) fun hn =>
      exec_cbResize_of_not_legal hs (Bool.eq_false_iff.2 fun h => hn ((sizeLegal_iff n).1 h)) pad
  | dqPopFront k => exact exec_of_check (exec_dqPopFront_of_le hs) fun hk => exec_dqPopFront_of_lt hs (by omega)
  | bmInit idx => exact exec_bmInit_of_valid hs (hmodel rfl) idx
  | bmGetp idx => exact exec_bmGetp_of_valid hs (hmodel rfl) idx
  | bmUpdate idx bit => exact exec_bmUpdate_of_valid hs (hmodel rfl) idx bit
  | cxEncRes | cxDecRes | cxEncFrame | cxDecFrame => exact exec_cx_of_ready rfl rfl ⟨hs, hmode _ rfl, hmodel rfl⟩
  | rcEncDirect bit => exact exec_rcEncDirect hs (hmode _ rfl) bit
  | rcDecDirect => exact exec_rcDecDirect hs (hmode _ rfl)
  | rcFlush => exact exec_rcFlush hs (hmode _ rfl)
  | rcEnc p bit =>
    exact exec_of_check (fun hp => exec_rcEnc_of_legal hs (hmode _ rfl) hp bit) fun hp =>
      exec_rcEnc_of_not_legal hs (hmode _ rfl) (by omega) bit
  | rcDec p =>
    exact exec_of_check (exec_rcDec_of_legal hs (hmode _ rfl)) fun hp =>
      exec_rcDec_of_not_legal hs (hmode _ rfl) (by omega)
  | cbPush v => exact exec_cbPush hs (halloc rfl) hring v
  | cbGet off => exact exec_cbGet hs (halloc rfl) hring off
  | cbFill v => exact exec_cbFill hs (halloc rfl) v
  | dqFront => exact exec_dqFront hs (halloc rfl) (hallocated (halloc rfl))
  | dqGet off => exact exec_dqGet hs (halloc rfl) (hallocated (halloc rfl)) off
  | cbGetu off =>
    refine exec_of_check (fun hoff => exec_cbGetu_of_legal hs (halloc rfl) ?_) fun hoff =>
      exec_cbGetu_of_not_legal hs (halloc rfl) ?_
    · rw [unmaskedLegal_iff]; omega
    · rw [Bool.eq_false_iff, Ne, unmaskedLegal_iff]; omega
  | cbCopyS2e k =>
    exact exec_of_check (exec_cbCopyS2e_of_le hs (halloc rfl)) fun hk =>
      exec_cbCopyS2e_of_lt hs (halloc rfl) (by omega)
  | cbCopyE2s k =>
    exact exec_of_check (exec_cbCopyE2s_of_le hs (halloc rfl)) fun hk =>
      exec_cbCopyE2s_of_lt hs (halloc rfl) (by omega)
  | dqPushBack v =>
    rw [operandFault]
    split
    next hfull => exact exec_dqPushBack_of_full hs (halloc rfl) hfull v
    next hroom => exact exec_dqPushBack_of_room hs (halloc rfl) (hallocated (halloc rfl)) hroom v

/-- What a command answers in a block that is not faulted is what the first entry of the fault table that applies
says. -/
theorem exec_eq_afterChecks_firstFault {i : Instr} {s : State} (hs : faulted s = false) (hring : RingInv s.ring) :
    exec i s = .next (afterChecks i s (firstFault i s)) := by
  rw [firstFault]
  split
  next hany =>
    obtain ⟨m, hneeds, hne⟩ := (Option.any_eq_true _ _).1 hany
    exact exec_of_wrongMode hneeds hs (bne_iff_ne.1 hne).symm
  next hany =>
    have hmode (m : Mode) (hneeds : neededMode i = some m) : s.mode = m := by
      by_contra hne
      exact hany ((Option.any_eq_true _ _).2 ⟨m, hneeds, bne_iff_ne.2 (Ne.symm hne)⟩)
    split
    next huninit =>
      rw [Bool.and_eq_true, Bool.not_eq_true'] at huninit
      obtain ⟨hneeds, hv⟩ := huninit
      cases hm : neededMode i with
      | none => exact exec_of_uninit hneeds hm hs hv
      | some m => exact exec_cx_of_uninit hneeds hm hs (hmode m hm) hv
    next hmodel =>
      split
      next hreleased =>
        rw [Bool.and_eq_true, Bool.not_eq_true'] at hreleased
        obtain ⟨hneeds, ha⟩ := hreleased
        exact exec_of_released hneeds hs ha
      next halloc =>
        exact exec_eq_afterChecks_operandFault hs hring hmode (fun h => by simpa [h] using hmodel) fun h => by
          simpa [h] using halloc

/-- Settles O16: a fault of the table is entered, and without one the effect leaves the latch clear. -/
theorem firstApplicableFaultIsTaken : Obligations.FirstApplicableFaultIsTaken := by
  refine fun i s hs hring => ⟨fun f hf => ?_, fun hnone => ⟨effect i s, ?_, faulted_effect_of_clear hs i⟩⟩
  · rw [exec_eq_afterChecks_firstFault hs hring, hf, afterChecks]
  · rw [exec_eq_afterChecks_firstFault hs hring, hnone, afterChecks]

end Sys2Proof.Machine
end
